-- ==== Sys2Proof/Word.lean ====
section
/-!
DEFINITION. The word types of the MM128 core (spec/00_scope.md R8, R10, R12, R13).
Every value in this hardware is unsigned.
-/

namespace Sys2Proof

/-- A byte, 8 bits (R12). -/
abbrev Byte := BitVec 8

/-- A 32-bit word: a block word, a register of the window, a command word, a byte address (R9). -/
abbrev Word := BitVec 32

/-- A 64-bit word: a mixer output or accumulator word (R9). -/
abbrev DWord := BitVec 64

/-- Eight words, indexed from 0: a block, a mixer output or an accumulator state (R8, R12). -/
@[ext]
structure Lanes (α : Type) where
  w0 : α
  w1 : α
  w2 : α
  w3 : α
  w4 : α
  w5 : α
  w6 : α
  w7 : α
  deriving DecidableEq, Repr

/-- The array of 8 copies of `v` (R12). -/
def Lanes.fill {α : Type} (v : α) : Lanes α := ⟨v, v, v, v, v, v, v, v⟩

end Sys2Proof
end

