-- ==== Sys2Proof/Syntax.lean ====
section
/-!
DEFINITION. The command set: one constructor per row of spec/opcode_table.json (30_encoding.md R112).
No command carries an operand (R115), so every constructor is a name alone; a trailing `+` (I = 1) is
spelled `Inc` here. Beside it the fields of a command word (R111), the registers of the window
(10_state.md R31) and the host notation of R119.
-/

namespace Sys2Proof

/-- The 14 commands (30_encoding.md R112). -/
inductive Instr where
  | nop
  | clracc
  | ldk
  | ldkInc
  | ldm
  | ldmInc
  | add32
  | mix
  | acc64
  | std
  | stdInc
  | blk
  | blkInc
  | run
  deriving DecidableEq, Repr

/-- The fields of a command word (30_encoding.md R111): OP = bits 7:0, I = bit 8, RSV = bits 31:9. -/
structure Fields where
  op  : BitVec 8
  inc : Bool
  rsv : BitVec 23
  deriving DecidableEq, Repr

/-- The registers of the window (10_state.md R31); a 64-bit word has a low and a high half (R54). -/
inductive Reg where
  | id
  | ctrl
  | status
  | cmd
  | kptr
  | mptr
  | dptr
  | klen
  | mlen
  | bcnt
  | kb (i : Fin 8)
  | mb (i : Fin 8)
  | xb (i : Fin 8)
  | zblo (i : Fin 8)
  | zbhi (i : Fin 8)
  | acclo (i : Fin 8)
  | acchi (i : Fin 8)
  deriving DecidableEq, Repr

/-- One line of a host program (30_encoding.md R119), a comment left out. `wait` carries the number of polls that
still read BUSY = 1, which is a matter of time (70_reset_and_hazards.md R296). -/
inductive HostOp where
  | wr (r : Reg) (v : Word)
  | rd (r : Reg)
  | cmd (i : Instr)
  | wait (polls : Nat)
  | doCmd (i : Instr) (polls : Nat)
  | ack
  | clrovr
  | srst
  | wr64zb (i : Fin 8) (v : DWord)
  | wr64acc (i : Fin 8) (v : DWord)
  | rd64zb (i : Fin 8)
  | rd64acc (i : Fin 8)
  | hash (k m d len : Word) (polls : Nat)
  deriving DecidableEq, Repr

end Sys2Proof
end

