-- ==== Sys2Proof/WellFormed.lean ====
section
/-!
DEFINITION. Well-formedness of the fields of a command word (spec/30_encoding.md R111, R114, R117): one check per
reason a word is illegal. An `Instr` carries no operand (R115), so every `Instr` is well-formed as it stands;
that the fields the encoder gives it pass these checks is proved in Laws.
-/

namespace Sys2Proof

/-- RSV must be 0 (R111). -/
def Fields.rsvClear (f : Fields) : Bool := f.rsv == 0

/-- OP is one of the ten operation codes of R112. -/
def Fields.opKnown (f : Fields) : Bool :=
  [0x00#8, 0x01#8, 0x02#8, 0x03#8, 0x04#8, 0x05#8, 0x06#8, 0x07#8, 0x08#8, 0x10#8].contains f.op

/-- I = 1 is legal only for LDK, LDM, STD and BLK (R111). -/
def Fields.incAllowed (f : Fields) : Bool :=
  !f.inc || [0x02#8, 0x03#8, 0x07#8, 0x08#8].contains f.op

/-- All three checks: `legal` of R114. -/
def Fields.wf (f : Fields) : Bool := f.rsvClear && f.opKnown && f.incAllowed

end Sys2Proof
end

