-- ==== Sys2Proof/Decode.lean ====
section
/-!
DEFINITION. Decoding and encoding of command words (spec/30_encoding.md R110 to R118). A command is one 32-bit word
written to CMD; there is no second word and no byte order to decide (R110). The decoder reads the word alone
and is total (R120): a word is one of the 14 commands or illegal, with the reason's name.
-/

namespace Sys2Proof

/-- Why a word is illegal (R117). The names are the model's; the hardware reports ILLEGAL for all three.
Where several apply the first of this order is named (log 20). -/
inductive IllegalWord where
  | reservedBits
  | unknownOp
  | incNotAllowed
  deriving DecidableEq, Repr

/-- What a word decodes to (R120). -/
inductive Decoded where
  | command (i : Instr)
  | illegal (why : IllegalWord)
  deriving DecidableEq, Repr

/-- OP, bits 7:0 (R111). -/
def opField (c : Word) : BitVec 8 := c.extractLsb' 0 8

/-- I, bit 8 (R111). -/
def incField (c : Word) : Bool := c.getLsbD 8

/-- RSV, bits 31:9 (R111). -/
def rsvField (c : Word) : BitVec 23 := c.extractLsb' 9 23

/-- The fields of a word (R111). -/
def fieldsOf (c : Word) : Fields := ⟨opField c, incField c, rsvField c⟩

/-- The word with the given fields, most significant first: RSV, I, OP (R111). -/
def packFields (f : Fields) : Word := f.rsv ++ (BitVec.ofBool f.inc ++ f.op)

/-- The command with operation code `op` and I = 0 (R112). -/
def plainCommand (op : BitVec 8) : Option Instr :=
  match op with
  | 0x00#8 => some .nop
  | 0x01#8 => some .clracc
  | 0x02#8 => some .ldk
  | 0x03#8 => some .ldm
  | 0x04#8 => some .add32
  | 0x05#8 => some .mix
  | 0x06#8 => some .acc64
  | 0x07#8 => some .std
  | 0x08#8 => some .blk
  | 0x10#8 => some .run
  | _ => none

/-- The command with operation code `op` and I = 1 (R112). -/
def incCommand (op : BitVec 8) : Option Instr :=
  match op with
  | 0x02#8 => some .ldkInc
  | 0x03#8 => some .ldmInc
  | 0x07#8 => some .stdInc
  | 0x08#8 => some .blkInc
  | _ => none

/-- Decode of R114: RSV first, then the operation code, then whether it takes I = 1. -/
def decode (c : Word) : Decoded :=
  if rsvField c ≠ 0 then .illegal .reservedBits
  else
    match plainCommand (opField c) with
    | none => .illegal .unknownOp
    | some i =>
      if incField c then
        match incCommand (opField c) with
        | none => .illegal .incNotAllowed
        | some j => .command j
      else .command i

/-- The fields of each command's word (R112). -/
def Instr.fields (i : Instr) : Fields :=
  match i with
  | .nop => ⟨0x00, false, 0⟩
  | .clracc => ⟨0x01, false, 0⟩
  | .ldk => ⟨0x02, false, 0⟩
  | .ldkInc => ⟨0x02, true, 0⟩
  | .ldm => ⟨0x03, false, 0⟩
  | .ldmInc => ⟨0x03, true, 0⟩
  | .add32 => ⟨0x04, false, 0⟩
  | .mix => ⟨0x05, false, 0⟩
  | .acc64 => ⟨0x06, false, 0⟩
  | .std => ⟨0x07, false, 0⟩
  | .stdInc => ⟨0x07, true, 0⟩
  | .blk => ⟨0x08, false, 0⟩
  | .blkInc => ⟨0x08, true, 0⟩
  | .run => ⟨0x10, false, 0⟩

/-- The command word of each command (R112). -/
def encode (i : Instr) : Word := packFields i.fields

/-- The 32-bit word whose bits `spec/opcode_table.json` numbers from 0; every bit at `nbits` and above is 0. -/
def tableWord (nbits w : Nat) : Word := BitVec.ofNat 32 (w % 2 ^ nbits)

/-- What the decoder reads from a row's word. -/
def decodeTableWord (nbits w : Nat) : Option Instr :=
  match decode (tableWord nbits w) with
  | .command i => some i
  | .illegal _ => none

/-- The mnemonic of a command, `+` spelling I = 1 (R118). -/
def Instr.mnemonic (i : Instr) : String :=
  match i with
  | .nop => "NOP"
  | .clracc => "CLRACC"
  | .ldk => "LDK"
  | .ldkInc => "LDK+"
  | .ldm => "LDM"
  | .ldmInc => "LDM+"
  | .add32 => "ADD32"
  | .mix => "MIX"
  | .acc64 => "ACC64"
  | .std => "STD"
  | .stdInc => "STD+"
  | .blk => "BLK"
  | .blkInc => "BLK+"
  | .run => "RUN"

/-- Every command, in the order of R112. -/
def Instr.all : List Instr :=
  [.nop, .clracc, .ldk, .ldkInc, .ldm, .ldmInc, .add32, .mix, .acc64, .std, .stdInc, .blk, .blkInc, .run]

/-- A command is written as its mnemonic alone (R118). -/
def assemble (text : String) : Option Instr := Instr.all.find? fun i => i.mnemonic == text

/-- One hexadecimal digit, capital letters above 9. -/
def hexDigit (d : Nat) : Char := ("0123456789ABCDEF".toList).getD d '0'

/-- The lowest `k` hexadecimal digits of `v`, most significant first. -/
def hexDigits (k v : Nat) : List Char :=
  match k with
  | 0 => []
  | k + 1 => hexDigits k (v / 16) ++ [hexDigit (v % 16)]

/-- What a disassembler prints for a word: the mnemonic of a legal word, `.word 0xHHHHHHHH` otherwise (R118). -/
def disassemble (c : Word) : String :=
  match decode c with
  | .command i => i.mnemonic
  | .illegal _ => ".word 0x" ++ String.ofList (hexDigits 8 c.toNat)

end Sys2Proof
end

