-- ==== Sys2Proof/Config.lean ====
section
/-!
DEFINITION. The constants the source fixes (spec/00_scope.md R8, R9) and the free values of 'any value'
(R17): constants without a body, so that nothing can be proved of the value they give.
The OPEN parameters (MMIO_BASE, BUS_CAN_ERR, SIDE_EFFECT_READS) are fields of the state, see `Machine.Platform`.
-/

namespace Sys2Proof.Config

/-- BLOCK_SIZE, in bytes (R8). -/
abbrev blockBytes : Nat := 32

/-- DIGEST_SIZE, in bytes (R8). -/
abbrev digestBytes : Nat := 64

/-- The number of byte addresses of system memory, 2^32 (20_memory.md R80, D3). -/
abbrev memoryBytes : Nat := 0x100000000

/-- The size of the register window in bytes (10_state.md R31). -/
abbrev windowBytes : Nat := 0x200

/-- A free bit for the n-th draw: the choice between 'old' and 'new' of R247 and R282. Log 7. -/
opaque anyBit : Nat → Bool

/-- A free byte for the n-th draw (R17). Log 7. -/
opaque anyByte : Nat → Byte

/-- A free 32-bit word for the n-th draw (R17). Log 7. -/
opaque anyWord : Nat → Word

/-- A free 64-bit word for the n-th draw (R17). Log 7. -/
opaque anyDWord : Nat → DWord

end Sys2Proof.Config
end

