-- ==== Sys2Proof/Machine/State.lean ====
section
/-!
DEFINITION. The state of the MM128 core and of what stands around it (spec/10_state.md), the events of the outside
world, the reasons a step can stop, and the state after reset (R63). INVENTORY.md lists every field.
-/

namespace Sys2Proof.Machine

/-- The bytes at addresses `base`, …, `base + len - 1`; a range of 20_memory.md R82 or a part of the platform's map. -/
structure Region where
  base : Nat
  len  : Nat
  deriving DecidableEq, Repr

/-- What stands around the core and is not the core's to decide: the OPEN parameters of 00_scope.md R9 and what lies
at each address of system memory (20_memory.md R80). Logs 4, 5, 6. -/
structure Platform where
  /-- MMIO_BASE: the host-bus address of the register window (R31). -/
  mmioBase  : Nat
  /-- BUS_CAN_ERR: whether the memory port can receive an error response (R247). -/
  busCanErr : Bool
  /-- The addresses whose reads get an error response; of no effect unless `busCanErr`. -/
  readErr   : List Region
  /-- The addresses whose writes get an error response; of no effect unless `busCanErr`. -/
  writeErr  : List Region
  /-- The addresses that are not ordinary memory: reads have side effects or writes are not kept (R87). -/
  device    : List Region
  deriving DecidableEq, Repr

/-- One byte access of a command: byte `o` of the key range, of the message range or of the digest range
(20_memory.md R82). A byte is the only grain the memory port guarantees (R86). -/
inductive Access where
  | key (o : Nat)
  | msg (o : Nat)
  | digest (o : Nat)
  deriving DecidableEq, Repr

/-- How far the sequencer has come with the command in flight (10_state.md R60). Log 9. -/
inductive Phase where
  /-- Accepted, nothing of it executed. -/
  | start
  /-- The reads are issued. The bytes of the key and of the message that are read and not yet parsed, each with its place
  in its range. -/
  | read (key msg : List (Nat × Byte))
  /-- The writes of the digest bytes are issued. The places of those not yet answered, and how many addresses `dirty` held
  when RUN's results were settled last (log 8). -/
  | write (left : List Nat) (seen : Nat)
  deriving DecidableEq, Repr

/-- The hidden sequencer state while a command executes (10_state.md R60): the accepted word, the number of blocks and the
index of the current one (of the commands that read one block: 1 and 0), and the phase. -/
structure Job where
  word  : Word
  n     : Nat
  k     : Nat
  phase : Phase
  deriving DecidableEq, Repr

/-- What the outside world does next. Every event is atomic and all are totally ordered (10_state.md R30). Log 3. -/
inductive Event where
  /-- The host writes `v` at a host-bus address, with an access of `size` bytes (R16, R56). -/
  | hostWrite (addr size : Nat) (v : Word)
  /-- The host reads at a host-bus address, with an access of `size` bytes (R16, R56). -/
  | hostRead (addr size : Nat)
  /-- The platform asserts `rst` (R280). -/
  | hardReset
  /-- Another agent, or the host itself, writes a byte of system memory (R80, R91). -/
  | memWrite (addr : Word) (b : Byte)
  /-- From here on other addresses answer with an error (R247). -/
  | errorMap (readErr writeErr : List Region)
  /-- The sequencer takes one of its own steps; nothing while it waits for the memory port. -/
  | tick
  /-- The memory port performs and answers one access the sequencer has issued, in whatever order (20_memory.md R86);
  nothing if there is no such access. -/
  | answer (a : Access)
  /-- The sequencer moves on by itself, as it does when there is no input: it executes an accepted command whole, or takes
  the next step of one it has begun. -/
  | core
  deriving DecidableEq, Repr

/-- The whole state. The registers and the hidden sequencer state are the core's; `mem` is the platform's memory;
`inputs`, `rdata`, `dirty` and `free` are the model's own (INVENTORY.md, '## State'). -/
structure State where
  /-- CTRL.IE (R33, R34). -/
  ie       : Bool
  /-- STATUS.BUSY (R37). -/
  busy     : Bool
  /-- STATUS.DONE (R38). -/
  done     : Bool
  /-- STATUS.OVR (R39). -/
  ovr      : Bool
  /-- STATUS.ERR (R40). -/
  err      : BitVec 4
  /-- The last accepted command word (R42). -/
  lastcmd  : Word
  /-- KPTR (R43). -/
  kptr     : Word
  /-- MPTR (R44). -/
  mptr     : Word
  /-- DPTR (R45). -/
  dptr     : Word
  /-- KLEN (R46). -/
  klen     : Word
  /-- MLEN (R47). -/
  mlen     : Word
  /-- BCNT (R48). -/
  bcnt     : Word
  /-- KB (R49). -/
  kb       : Lanes Word
  /-- MB (R50). -/
  mb       : Lanes Word
  /-- XB (R51). -/
  xb       : Lanes Word
  /-- ZB (R52). -/
  zb       : Lanes DWord
  /-- ACC (R53). -/
  acc      : Lanes DWord
  /-- The command in flight; none when the sequencer is idle (R60). -/
  job      : Option Job
  /-- System memory: address and byte pairs in canonical form (R80). Log 1. -/
  mem      : List Host.Cell
  /-- The platform (R9, R80). Logs 4, 5, 6. -/
  platform : Platform
  /-- What the outside world does next, oldest first. Log 3. -/
  inputs   : List Event
  /-- The value the register port answered last (R16). Log 13. -/
  rdata    : Option Word
  /-- The addresses other agents have written in the present busy period (R91). Log 8. -/
  dirty    : List Nat
  /-- How many free values have been drawn (R17). Log 7. -/
  free     : Nat
  deriving DecidableEq, Repr

/-- Why the machine stops. No error of the hardware stops it (60_exceptions.md R240), so there is one reason. -/
inductive Fault where
  /-- Raised by the sequencer's own steps and the memory port's answers in a hidden state no run reaches: a phase its command
  never enters.
  Safe: the model stops where the hardware has no such state. Log 15. -/
  | badSequencer
  deriving DecidableEq, Repr

/-- Why an instruction has no meaning in the model. -/
inductive Refusal where
  /-- An instruction the model gives no meaning yet. Safe. No arm of `exec` uses it. -/
  | notModelled (mnemonic : String)
  /-- Raised by LDK, LDM, STD, BLK and RUN and their `+` forms when a range they would access covers an address that
  is not ordinary memory: 20_memory.md R87 gives the result no meaning and says a model should refuse the launch.
  Safe. Log 6. -/
  | sideEffectBuffer
  deriving DecidableEq, Repr

/-- The platform State.reset starts from: DESIGN CHOICE, log 4. -/
def Platform.initial : Platform :=
  { mmioBase := 0, busCanErr := true, readErr := [], writeErr := [], device := [] }

/-- The machine right after reset (10_state.md R63, 70_reset_and_hazards.md R281): every register 0, the sequencer idle. -/
def State.reset : State :=
  { ie := false, busy := false, done := false, ovr := false, err := 0
    lastcmd := 0, kptr := 0, mptr := 0, dptr := 0, klen := 0, mlen := 0, bcnt := 0
    kb := Lanes.fill 0, mb := Lanes.fill 0, xb := Lanes.fill 0
    zb := Lanes.fill 0, acc := Lanes.fill 0
    job := none
    mem := []
    platform := Platform.initial
    inputs := [], rdata := none, dirty := [], free := 0 }

end Sys2Proof.Machine
end

