-- ==== Sys2Proof/Machine/Flags.lean ====
section
/-!
DEFINITION. STATUS, CTRL and the interrupt output (spec/10_state.md R33 to R40, R62; 60_exceptions.md R241, R250):
error codes, the words the two registers read as, and the effect of a host write to STATUS. The hardware has no
arithmetic flag (R61).
-/

namespace Sys2Proof.Machine

/-- The ways a command completes (60_exceptions.md R241). -/
inductive ErrCode where
  | ok
  | empty
  | lenMismatch
  | unaligned
  | illegal
  | range
  | bus
  deriving DecidableEq, Repr

/-- The 4-bit code of STATUS.ERR (60_exceptions.md R241); 7 to 15 are never written. -/
def ErrCode.code (e : ErrCode) : BitVec 4 :=
  match e with
  | .ok => 0
  | .empty => 1
  | .lenMismatch => 2
  | .unaligned => 3
  | .illegal => 4
  | .range => 5
  | .bus => 6

/-- One bit as a word. -/
def bitWord (b : Bool) : Word := if b then 1 else 0

/-- What STATUS reads as: `(ERR << 8) | (OVR << 2) | (DONE << 1) | BUSY`, reserved bits 0 (R36). -/
def State.statusWord (s : State) : Word :=
  (s.err.setWidth 32 <<< 8) ||| (bitWord s.ovr <<< 2) ||| (bitWord s.done <<< 1) ||| bitWord s.busy

/-- What CTRL reads as: `zext_32(CTRL.IE)` (R33). -/
def State.ctrlWord (s : State) : Word := bitWord s.ie

/-- The interrupt output: `irq = CTRL.IE AND STATUS.DONE` (R62, 60_exceptions.md R250). -/
def State.irq (s : State) : Bool := s.ie && s.done

/-- A host write of `v` to STATUS: write 1 to clear DONE (bit 1) and OVR (bit 2), every other bit ignored (R36). -/
def writeStatus (v : Word) (s : State) : State :=
  { s with done := s.done && !v.getLsbD 1, ovr := s.ovr && !v.getLsbD 2 }

end Sys2Proof.Machine
end

