-- ==== Sys2Proof/Machine/Operands.lean ====
section
/-!
DEFINITION. Operands: the lanes of the register files, the register window as the host addresses it
(spec/10_state.md R31, R54, R55) and the implicit memory ranges of the commands (20_memory.md R82, R88).
-/

namespace Sys2Proof

/-- Word `i` of a register file (R12). -/
def Lanes.get {α : Type} (l : Lanes α) (i : Fin 8) : α :=
  match i with
  | 0 => l.w0
  | 1 => l.w1
  | 2 => l.w2
  | 3 => l.w3
  | 4 => l.w4
  | 5 => l.w5
  | 6 => l.w6
  | 7 => l.w7

/-- The register file with word `i` set to `v` (R13). -/
def Lanes.set {α : Type} (l : Lanes α) (i : Fin 8) (v : α) : Lanes α :=
  match i with
  | 0 => { l with w0 := v }
  | 1 => { l with w1 := v }
  | 2 => { l with w2 := v }
  | 3 => { l with w3 := v }
  | 4 => { l with w4 := v }
  | 5 => { l with w5 := v }
  | 6 => { l with w6 := v }
  | 7 => { l with w7 := v }

/-- The lane-wise combination of two register files; lane i of the result comes from lane i of each. -/
def Lanes.zipWith {α β γ : Type} (f : α → β → γ) (a : Lanes α) (b : Lanes β) : Lanes γ :=
  ⟨f a.w0 b.w0, f a.w1 b.w1, f a.w2 b.w2, f a.w3 b.w3, f a.w4 b.w4, f a.w5 b.w5, f a.w6 b.w6, f a.w7 b.w7⟩

/-- Bits 31:0 of a 64-bit word (R54). -/
def lowHalf (v : DWord) : Word := v.extractLsb' 0 32

/-- Bits 63:32 of a 64-bit word (R54). -/
def highHalf (v : DWord) : Word := v.extractLsb' 32 32

/-- `v` with bits 31:0 replaced, bits 63:32 kept (R54). -/
def setLow (v : DWord) (x : Word) : DWord := highHalf v ++ x

/-- `v` with bits 63:32 replaced, bits 31:0 kept (R54). -/
def setHigh (v : DWord) (x : Word) : DWord := x ++ lowHalf v

/-- The offset of a register in the window (R31). -/
def Reg.offset (r : Reg) : Nat :=
  match r with
  | .id => 0x000
  | .ctrl => 0x004
  | .status => 0x008
  | .cmd => 0x00C
  | .kptr => 0x010
  | .mptr => 0x014
  | .dptr => 0x018
  | .klen => 0x01C
  | .mlen => 0x020
  | .bcnt => 0x024
  | .kb i => 0x040 + 4 * i.val
  | .mb i => 0x060 + 4 * i.val
  | .xb i => 0x080 + 4 * i.val
  | .zblo i => 0x0C0 + 8 * i.val
  | .zbhi i => 0x0C4 + 8 * i.val
  | .acclo i => 0x100 + 8 * i.val
  | .acchi i => 0x104 + 8 * i.val

/-- The control registers below offset 0x028 (R31). -/
def controlReg (off : Nat) : Option Reg :=
  match off with
  | 0x000 => some .id
  | 0x004 => some .ctrl
  | 0x008 => some .status
  | 0x00C => some .cmd
  | 0x010 => some .kptr
  | 0x014 => some .mptr
  | 0x018 => some .dptr
  | 0x01C => some .klen
  | 0x020 => some .mlen
  | 0x024 => some .bcnt
  | _ => none

/-- The word index of a file of 32-bit words that begins at `base`. -/
def wordIndex (base off : Nat) : Fin 8 := Fin.ofNat 8 ((off - base) / 4)

/-- The word index of a file of 64-bit words that begins at `base`. -/
def dwordIndex (base off : Nat) : Fin 8 := Fin.ofNat 8 ((off - base) / 8)

/-- Whether the offset names the low half of a 64-bit word of the file that begins at `base` (R54). -/
def isLowHalf (base off : Nat) : Bool := (off - base) % 8 < 4

/-- The register at a 4-byte-aligned offset of the window, none where the offset is reserved (R31, R55). -/
def regAt (off : Nat) : Option Reg :=
  if off < 0x028 then controlReg off
  else if off < 0x040 then none
  else if off < 0x060 then some (.kb (wordIndex 0x040 off))
  else if off < 0x080 then some (.mb (wordIndex 0x060 off))
  else if off < 0x0A0 then some (.xb (wordIndex 0x080 off))
  else if off < 0x0C0 then none
  else if off < 0x100 then
    some (if isLowHalf 0x0C0 off then .zblo (dwordIndex 0x0C0 off) else .zbhi (dwordIndex 0x0C0 off))
  else if off < 0x140 then
    some (if isLowHalf 0x100 off then .acclo (dwordIndex 0x100 off) else .acchi (dwordIndex 0x100 off))
  else none

namespace Machine

/-- The hard-wired value of ID (10_state.md R32). -/
def idValue : Word := 0x4D4D0128

/-- What a register of the window reads as while the core is idle (R32 to R54). -/
def State.readReg (s : State) (r : Reg) : Word :=
  match r with
  | .id => idValue
  | .ctrl => s.ctrlWord
  | .status => s.statusWord
  | .cmd => s.lastcmd
  | .kptr => s.kptr
  | .mptr => s.mptr
  | .dptr => s.dptr
  | .klen => s.klen
  | .mlen => s.mlen
  | .bcnt => s.bcnt
  | .kb i => s.kb.get i
  | .mb i => s.mb.get i
  | .xb i => s.xb.get i
  | .zblo i => lowHalf (s.zb.get i)
  | .zbhi i => highHalf (s.zb.get i)
  | .acclo i => lowHalf (s.acc.get i)
  | .acchi i => highHalf (s.acc.get i)

/-- BCNT and the data registers: a read of one in a busy period returns any value (R58). -/
def dataReg (r : Reg) : Bool :=
  match r with
  | .bcnt | .kb _ | .mb _ | .xb _ | .zblo _ | .zbhi _ | .acclo _ | .acchi _ => true
  | .id | .ctrl | .status | .cmd | .kptr | .mptr | .dptr | .klen | .mlen => false

/-- A host write to a register that plainly holds what is written (R43 to R47, R49 to R54). ID and BCNT are read-only
(R32, R48); CTRL, STATUS and CMD have effects of their own and are not written here. -/
def State.setReg (s : State) (r : Reg) (v : Word) : State :=
  match r with
  | .id | .ctrl | .status | .cmd | .bcnt => s
  | .kptr => { s with kptr := v }
  | .mptr => { s with mptr := v }
  | .dptr => { s with dptr := v }
  | .klen => { s with klen := v }
  | .mlen => { s with mlen := v }
  | .kb i => { s with kb := s.kb.set i v }
  | .mb i => { s with mb := s.mb.set i v }
  | .xb i => { s with xb := s.xb.set i v }
  | .zblo i => { s with zb := s.zb.set i (setLow (s.zb.get i) v) }
  | .zbhi i => { s with zb := s.zb.set i (setHigh (s.zb.get i) v) }
  | .acclo i => { s with acc := s.acc.set i (setLow (s.acc.get i) v) }
  | .acchi i => { s with acc := s.acc.set i (setHigh (s.acc.get i) v) }

/-- The range passes address 0xFFFFFFFF: `start + length > 2^32`, without wrap-around (20_memory.md R88). -/
def Region.pastTop (r : Region) : Bool := Config.memoryBytes < r.base + r.len

/-- The range covers address `a`. -/
def Region.covers (r : Region) (a : Nat) : Bool := r.base ≤ a && a < r.base + r.len

/-- The two ranges have a byte in common. -/
def Region.meets (r q : Region) : Bool :=
  0 < r.len && 0 < q.len && r.base < q.base + q.len && q.base < r.base + r.len

/-- `len` bytes at KPTR (20_memory.md R82). -/
def State.keyRange (s : State) (len : Nat) : Region := ⟨s.kptr.toNat, len⟩

/-- `len` bytes at MPTR (20_memory.md R82). -/
def State.msgRange (s : State) (len : Nat) : Region := ⟨s.mptr.toNat, len⟩

/-- The 64 bytes at DPTR (20_memory.md R82). -/
def State.digestRange (s : State) : Region := ⟨s.dptr.toNat, Config.digestBytes⟩

/-- The 32 bytes of key block `k` (43_driver.md R202). -/
def State.keyBlock (s : State) (k : Nat) : Region := ⟨s.kptr.toNat + Config.blockBytes * k, Config.blockBytes⟩

/-- The 32 bytes of message block `k` (43_driver.md R202). -/
def State.msgBlock (s : State) (k : Nat) : Region := ⟨s.mptr.toNat + Config.blockBytes * k, Config.blockBytes⟩

end Machine

end Sys2Proof
end

