-- ==== Sys2Proof/Machine/Ops.lean ====
section
/-!
DEFINITION. The named operations over memory and registers: reading and writing system memory, acceptance and
completion of a command, raising an error, free draws, the admission of a command's memory ranges and what a race
(20_memory.md R91) or a bus error (60_exceptions.md R247) leaves.
-/

namespace Sys2Proof.Machine

/-! ## System memory -/

/-- System memory as plain data: address and byte pairs (20_memory.md R80). -/
abbrev Memory := List Host.Cell

/-- What an address that is not listed reads as: DESIGN CHOICE, log 1. -/
abbrev unlistedByte : Byte := 0

/-- The byte at address `a`. -/
def Memory.read (m : Memory) (a : Nat) : Byte :=
  match m with
  | [] => unlistedByte
  | c :: rest => if c.1 = a then c.2 else Memory.read rest a

/-- Put a cell in front, unless it says what an unlisted address says. -/
def Memory.cons (a : Nat) (b : Byte) (m : Memory) : Memory := if b = unlistedByte then m else (a, b) :: m

/-- Memory with byte `b` at address `a`, in canonical form if `m` is. -/
def Memory.write (m : Memory) (a : Nat) (b : Byte) : Memory :=
  match m with
  | [] => Memory.cons a b []
  | c :: rest =>
    if a < c.1 then Memory.cons a b (c :: rest)
    else if a = c.1 then Memory.cons a b rest
    else c :: Memory.write rest a b

/-- The `n` bytes at `a`, `a + 1`, …: `MemRead(a, n)` of 00_scope.md R14. -/
def Memory.readBytes (m : Memory) (a n : Nat) : List Byte :=
  match n with
  | 0 => []
  | n + 1 => Memory.read m a :: Memory.readBytes m (a + 1) n

/-- Byte `j` of the sequence goes to `a + j`: `MemWrite` of 00_scope.md R14. -/
def Memory.writeBytes (m : Memory) (a : Nat) (bytes : List Byte) : Memory :=
  match bytes with
  | [] => m
  | b :: rest => Memory.writeBytes (Memory.write m a b) (a + 1) rest

/-- Every address of the list lies above `a`. -/
def Memory.above (a : Nat) (m : Memory) : Bool := m.all fun c => a < c.1

/-- The canonical form: addresses strictly rising and below 2^32, no entry equal to what an unlisted address reads as. -/
def Memory.wf (m : Memory) : Bool :=
  match m with
  | [] => true
  | c :: rest => Memory.above c.1 rest && c.1 < Config.memoryBytes && c.2 != unlistedByte && Memory.wf rest

/-! ## Acceptance, completion, errors -/

/-- The core accepts command word `c` in one atomic step (30_encoding.md R113). The busy period begins, so no agent
has written memory in it yet. -/
def State.accept (s : State) (c : Word) : State :=
  { s with
    lastcmd := c, busy := true, done := false, err := 0
    job := some { word := c, n := 0, k := 0, phase := .start }, dirty := [] }

/-- The command completes in one atomic step (60_exceptions.md R249); the sequencer is idle after it. -/
def State.complete (s : State) (e : ErrCode) : State :=
  { s with err := e.code, done := true, busy := false, job := none, dirty := [] }

/-- `complete(OK)` of 00_scope.md R15: the command ends with no error. -/
def finish (s : State) : Host.Outcome State Fault Refusal := .next (s.complete .ok)

/-- `raise <Error>` of 00_scope.md R15: the one way an error ends a command. No register is saved, no vector taken, no
mode changed, and there is no return from it (60_exceptions.md R240, R253). -/
def raise (e : ErrCode) (s : State) : Host.Outcome State Fault Refusal := .next (s.complete e)

/-! ## Free values (00_scope.md R17), log 7 -/

/-- Eight free 32-bit words, from draw `n` on. -/
def drawWords (n : Nat) : Lanes Word :=
  ⟨Config.anyWord n, Config.anyWord (n + 1), Config.anyWord (n + 2), Config.anyWord (n + 3),
    Config.anyWord (n + 4), Config.anyWord (n + 5), Config.anyWord (n + 6), Config.anyWord (n + 7)⟩

/-- Eight free 64-bit words, from draw `n` on. -/
def drawDWords (n : Nat) : Lanes DWord :=
  ⟨Config.anyDWord n, Config.anyDWord (n + 1), Config.anyDWord (n + 2), Config.anyDWord (n + 3),
    Config.anyDWord (n + 4), Config.anyDWord (n + 5), Config.anyDWord (n + 6), Config.anyDWord (n + 7)⟩

/-- KB any value. -/
def State.anyKB (s : State) : State := { s with kb := drawWords s.free, free := s.free + 8 }

/-- MB any value. -/
def State.anyMB (s : State) : State := { s with mb := drawWords s.free, free := s.free + 8 }

/-- XB any value. -/
def State.anyXB (s : State) : State := { s with xb := drawWords s.free, free := s.free + 8 }

/-- ZB any value. -/
def State.anyZB (s : State) : State := { s with zb := drawDWords s.free, free := s.free + 8 }

/-- ACC any value. -/
def State.anyACC (s : State) : State := { s with acc := drawDWords s.free, free := s.free + 8 }

/-- BCNT any value. -/
def State.anyBCNT (s : State) : State := { s with bcnt := Config.anyWord s.free, free := s.free + 1 }

/-- The register port answers any value (R56, R58). -/
def State.anyAnswer (s : State) : State := { s with rdata := some (Config.anyWord s.free), free := s.free + 1 }

/-! ## Admission of a command's memory ranges -/

/-- What is said of a command's ranges before its first access. -/
inductive Admission where
  /-- Every range may be accessed. -/
  | clear
  /-- A range passes 0xFFFFFFFF (60_exceptions.md R246). -/
  | pastTop
  /-- A range covers an address that is not ordinary memory (20_memory.md R87). -/
  | device
  deriving DecidableEq, Repr

/-- The range covers an address that is not ordinary memory (20_memory.md R87). -/
def State.onDevice (s : State) (r : Region) : Bool := s.platform.device.any fun d => d.meets r

/-- The checks that precede every access: RANGE first, then whether all of it is ordinary memory. -/
def State.vet (s : State) (ranges : List Region) : Admission :=
  if ranges.any fun r => r.pastTop then .pastTop
  else if ranges.any fun r => s.onDevice r then .device
  else .clear

/-- A read of the range meets an error response (60_exceptions.md R247). Log 5. -/
def State.readFails (s : State) (r : Region) : Bool :=
  s.platform.readErr.any (fun e => e.meets r) && s.platform.busCanErr

/-- A write of the range meets an error response (60_exceptions.md R247). Log 5. -/
def State.writeFails (s : State) (r : Region) : Bool :=
  s.platform.writeErr.any (fun e => e.meets r) && s.platform.busCanErr

/-! ## Races (20_memory.md R91), log 8 -/

/-- Another agent has written a byte of the range in this busy period. -/
def State.raced (s : State) (r : Region) : Bool := s.dirty.any fun a => r.covers a

/-- KB, read from `r`, is any value if `r` was raced. -/
def State.settleKey (s : State) (r : Region) : State := if s.raced r then s.anyKB else s

/-- MB, read from `r`, is any value if `r` was raced. -/
def State.settleMsg (s : State) (r : Region) : State := if s.raced r then s.anyMB else s

/-- XB, ZB and ACC, computed from the bytes of `kr` and `mr`, are any value if either was raced. -/
def State.settleSums (s : State) (kr mr : Region) : State :=
  if s.raced kr || s.raced mr then s.anyXB.anyZB.anyACC else s

/-- All five register files after a pass over `kr` and `mr`. -/
def State.settleBlock (s : State) (kr mr : Region) : State :=
  ((s.settleKey kr).settleMsg mr).settleSums kr mr

/-- Memory in which each of the `k` bytes from address `a` on that another agent wrote is any value (20_memory.md R91).
Draws are numbered from `n`. -/
def freeRaced (dirty : List Nat) (n a k : Nat) (m : Memory) : Memory :=
  match k with
  | 0 => m
  | k + 1 =>
    freeRaced dirty (n + 1) (a + 1) k
      (if dirty.contains a && a < Config.memoryBytes then Memory.write m a (Config.anyByte n) else m)

/-- The end of a busy period of STD or RUN, however it ends: a digest byte another agent wrote in it is any value
(20_memory.md R91), also where the command wrote no digest, which 43_driver.md R201 and R204 leave open: log 8. -/
def State.settleDigest (s : State) : State :=
  if s.raced s.digestRange then
    { s with
      mem := freeRaced s.dirty s.free s.dptr.toNat Config.digestBytes s.mem
      free := s.free + Config.digestBytes }
  else s

/-! ## The digest write -/

/-- The bytes a digest write that does not end leaves from address `a` on: each old or new, on its own
(60_exceptions.md R247, 70_reset_and_hazards.md R282). Draws are numbered from `n`. -/
def tornBytes (m : Memory) (n a : Nat) (bytes : List Byte) : List Byte :=
  match bytes with
  | [] => []
  | b :: rest => (if Config.anyBit n then b else Memory.read m a) :: tornBytes m (n + 1) (a + 1) rest

/-- The digest write is performed: `bytes` at DPTR. -/
def State.landDigest (s : State) (bytes : List Byte) : State :=
  { s with mem := Memory.writeBytes s.mem s.dptr.toNat bytes }

/-- The digest write is cut short: each byte old or new. -/
def State.tearDigest (s : State) (bytes : List Byte) : State :=
  { s with
    mem := Memory.writeBytes s.mem s.dptr.toNat (tornBytes s.mem s.free s.dptr.toNat bytes)
    free := s.free + bytes.length }

/-! ## Post-increment (30_encoding.md R115), modulo 2^32 -/

/-- KPTR past the block it used. -/
def State.bumpKey (s : State) (inc : Bool) : State := if inc then { s with kptr := s.kptr + 32 } else s

/-- MPTR past the block it used. -/
def State.bumpMsg (s : State) (inc : Bool) : State := if inc then { s with mptr := s.mptr + 32 } else s

/-- DPTR past the digest it used. -/
def State.bumpDigest (s : State) (inc : Bool) : State := if inc then { s with dptr := s.dptr + 64 } else s

end Sys2Proof.Machine
end

