-- ==== Sys2Proof/Machine/Adders.lean ====
section
/-!
DEFINITION. The word-wise modular adders and the commands ADD32, ACC64 and CLRACC (spec/42_adders.md R180 to R185).
-/

namespace Sys2Proof.Machine

/-- `add_blocks`: addition modulo 2^32 in every lane (R180). -/
def addBlocks (a b : Lanes Word) : Lanes Word := Lanes.zipWith (fun x y => x + y) a b

/-- `accumulate`: addition modulo 2^64 in every lane (R181). -/
def accumulate (s d : Lanes DWord) : Lanes DWord := Lanes.zipWith (fun x y => x + y) s d

/-- `XB <- add_blocks(KB, MB)`. -/
def State.addKM (s : State) : State := { s with xb := addBlocks s.kb s.mb }

/-- `ACC <- accumulate(ACC, ZB)`. -/
def State.addZB (s : State) : State := { s with acc := accumulate s.acc s.zb }

/-- `ACC[i] <- 0` for every i. -/
def State.clearACC (s : State) : State := { s with acc := Lanes.fill 0 }

/-- ADD32 (R182). -/
def execAdd32 (s : State) : Host.Outcome State Fault Refusal := finish s.addKM

/-- ACC64 (R183). -/
def execAcc64 (s : State) : Host.Outcome State Fault Refusal := finish s.addZB

/-- CLRACC (R184). -/
def execClracc (s : State) : Host.Outcome State Fault Refusal := finish s.clearACC

end Sys2Proof.Machine
end

