-- ==== Sys2Proof/Machine/Codec.lean ====
section
/-!
DEFINITION. The word codec: parse_block and serialize_words (spec/40_codec.md R140, R141) and the commands LDK, LDM
and STD with their `+` forms (R143 to R145).
-/

namespace Sys2Proof.Machine

/-- The 32-bit word of four bytes, `b0` least significant (R140, 20_memory.md R83). -/
def word32 (b0 b1 b2 b3 : Byte) : Word := b3 ++ (b2 ++ (b1 ++ b0))

/-- Word `i` of a byte sequence: bytes 4i to 4i + 3 (R140). -/
def wordAt (b : List Byte) (i : Nat) : Word :=
  word32 (b.getD (4 * i) 0) (b.getD (4 * i + 1) 0) (b.getD (4 * i + 2) 0) (b.getD (4 * i + 3) 0)

/-- `parse_block` (R140), for a sequence of 32 bytes. -/
def parseBlock (b : List Byte) : Lanes Word :=
  ⟨wordAt b 0, wordAt b 1, wordAt b 2, wordAt b 3, wordAt b 4, wordAt b 5, wordAt b 6, wordAt b 7⟩

/-- Byte `j` of a 64-bit word, byte 0 being bits 7:0 (R141). -/
def byteOf (v : DWord) (j : Nat) : Byte := v.extractLsb' (8 * j) 8

/-- The 8 little-endian bytes of a 64-bit word (R141). -/
def bytesOf (v : DWord) : List Byte :=
  [byteOf v 0, byteOf v 1, byteOf v 2, byteOf v 3, byteOf v 4, byteOf v 5, byteOf v 6, byteOf v 7]

/-- `serialize_words` (R141): 64 bytes. -/
def serializeWords (w : Lanes DWord) : List Byte :=
  bytesOf w.w0 ++ bytesOf w.w1 ++ bytesOf w.w2 ++ bytesOf w.w3
    ++ bytesOf w.w4 ++ bytesOf w.w5 ++ bytesOf w.w6 ++ bytesOf w.w7

/-- The bytes of a range. -/
def State.fetch (s : State) (r : Region) : List Byte := Memory.readBytes s.mem r.base r.len

/-- `KB <- parse_block(b)`. -/
def State.parseKey (s : State) (b : List Byte) : State := { s with kb := parseBlock b }

/-- `MB <- parse_block(b)`. -/
def State.parseMsg (s : State) (b : List Byte) : State := { s with mb := parseBlock b }

/-- The end of LDK once KB holds the parsed block: races, the increment, completion (R143). No host access lands
between the increment and the completion: the model's choice, log 25. -/
def endLoadKey (inc : Bool) (s : State) : Host.Outcome State Fault Refusal :=
  finish ((s.settleKey (s.keyRange Config.blockBytes)).bumpKey inc)

/-- LDK and LDK+ (R143). -/
def loadKey (inc : Bool) (s : State) : Host.Outcome State Fault Refusal :=
  match s.vet [s.keyRange Config.blockBytes] with
  | .pastTop => raise .range s
  | .device => .refused .sideEffectBuffer
  | .clear =>
    if s.readFails (s.keyRange Config.blockBytes) then raise .bus s.anyKB
    else endLoadKey inc (s.parseKey (s.fetch (s.keyRange Config.blockBytes)))

/-- The end of LDM once MB holds the parsed block (R144). No host access lands
between the increment and the completion: the model's choice, log 25. -/
def endLoadMsg (inc : Bool) (s : State) : Host.Outcome State Fault Refusal :=
  finish ((s.settleMsg (s.msgRange Config.blockBytes)).bumpMsg inc)

/-- LDM and LDM+ (R144). -/
def loadMsg (inc : Bool) (s : State) : Host.Outcome State Fault Refusal :=
  match s.vet [s.msgRange Config.blockBytes] with
  | .pastTop => raise .range s
  | .device => .refused .sideEffectBuffer
  | .clear =>
    if s.readFails (s.msgRange Config.blockBytes) then raise .bus s.anyMB
    else endLoadMsg inc (s.parseMsg (s.fetch (s.msgRange Config.blockBytes)))

/-- The digest of ACC at DPTR, with every byte written; what other agents wrote there is settled. -/
def State.putDigest (s : State) : State := (s.landDigest (serializeWords s.acc)).settleDigest

/-- The digest of ACC at DPTR, with each byte old or new; what other agents wrote there is settled. -/
def State.cutDigest (s : State) : State := (s.tearDigest (serializeWords s.acc)).settleDigest

/-- The end of STD once every digest byte is written: races, the increment, completion (R145). No host access lands
between the increment and the completion: the model's choice, log 25. -/
def endStore (inc : Bool) (s : State) : Host.Outcome State Fault Refusal := finish (s.putDigest.bumpDigest inc)

/-- The end of STD on an error response (R145). -/
def failStore (s : State) : Host.Outcome State Fault Refusal := raise .bus s.cutDigest

/-- STD and STD+ (R145). However they end, a digest byte another agent wrote is any value (20_memory.md R91, log 8). -/
def storeDigest (inc : Bool) (s : State) : Host.Outcome State Fault Refusal :=
  match s.vet [s.digestRange] with
  | .pastTop => raise .range s.settleDigest
  | .device => .refused .sideEffectBuffer
  | .clear => if s.writeFails s.digestRange then failStore s else endStore inc s

/-- LDK (R143). -/
def execLdk (s : State) : Host.Outcome State Fault Refusal := loadKey false s

/-- LDK+ (R143). -/
def execLdkInc (s : State) : Host.Outcome State Fault Refusal := loadKey true s

/-- LDM (R144). -/
def execLdm (s : State) : Host.Outcome State Fault Refusal := loadMsg false s

/-- LDM+ (R144). -/
def execLdmInc (s : State) : Host.Outcome State Fault Refusal := loadMsg true s

/-- STD (R145). -/
def execStd (s : State) : Host.Outcome State Fault Refusal := storeDigest false s

/-- STD+ (R145). -/
def execStdInc (s : State) : Host.Outcome State Fault Refusal := storeDigest true s

end Sys2Proof.Machine
end

