-- ==== Sys2Proof/Machine/Mixer.lean ====
section
/-!
DEFINITION. The block mixer F-128 and the command MIX (spec/41_mixer.md R160 to R165). The coefficient layout is
transcribed from the tables of R160 and R161 verbatim (R162).
-/

namespace Sys2Proof.Machine

/-- `a *w b`: the exact product of two 32-bit values as a 64-bit value (00_scope.md R11). -/
def mulWide (a b : Word) : DWord := a.setWidth 64 * b.setWidth 64

/-- F-128 (R160, R161). -/
def f128 (x : Lanes Word) : Lanes DWord :=
  let u0 := x.w0 + x.w1 + x.w2
  let u1 := x.w1 + x.w2 + x.w3
  let u2 := x.w2 + x.w3 + x.w0
  let u3 := x.w3 + x.w0 + x.w1
  let v0 := x.w5 + x.w6 + x.w7
  let v1 := x.w6 + x.w7 + x.w4
  let v2 := x.w7 + x.w4 + x.w5
  let v3 := x.w4 + x.w5 + x.w6
  { w0 := mulWide x.w0 x.w4
    w1 := mulWide x.w1 x.w5
    w2 := mulWide x.w2 x.w6
    w3 := mulWide x.w3 x.w7
    w4 := mulWide u0 v0
    w5 := mulWide u1 v1
    w6 := mulWide u2 v2
    w7 := mulWide u3 v3 }

/-- `ZB <- f_128(XB)`. -/
def State.mixXB (s : State) : State := { s with zb := f128 s.xb }

/-- MIX (R163). -/
def execMix (s : State) : Host.Outcome State Fault Refusal := finish s.mixXB

end Sys2Proof.Machine
end

