-- ==== Sys2Proof/Machine/Driver.lean ====
section
/-!
DEFINITION. The MAC pipeline driver and the commands NOP, BLK, BLK+ and RUN (spec/43_driver.md R200 to R209).
-/

namespace Sys2Proof.Machine

/-- NOP (R200). -/
def execNop (s : State) : Host.Outcome State Fault Refusal := finish s

/-- Combine, mix and accumulate the block that KB and MB hold (R202, R207). -/
def State.foldBlock (s : State) : State := s.addKM.mixXB.addZB

/-- Parse, combine, mix and accumulate the 32 bytes of a key block and of a message block. -/
def State.foldBytes (s : State) (key msg : List Byte) : State := ((s.parseKey key).parseMsg msg).foldBlock

/-- Parse, combine, mix and accumulate the blocks at `kr` and `mr`. -/
def State.passBlock (s : State) (kr mr : Region) : State := s.foldBytes (s.fetch kr) (s.fetch mr)

/-! ## BLK -/

/-- The end of BLK once the block is accumulated: races, the increments, completion (R207). No host access lands
between the increment and the completion: the model's choice, log 25. -/
def endBlock (inc : Bool) (s : State) : Host.Outcome State Fault Refusal :=
  finish (((s.settleBlock (s.keyRange Config.blockBytes) (s.msgRange Config.blockBytes)).bumpKey inc).bumpMsg inc)

/-- BLK and BLK+ (R207). -/
def oneBlock (inc : Bool) (s : State) : Host.Outcome State Fault Refusal :=
  match s.vet [s.keyRange Config.blockBytes, s.msgRange Config.blockBytes] with
  | .pastTop => raise .range s
  | .device => .refused .sideEffectBuffer
  | .clear =>
    if s.readFails (s.keyRange Config.blockBytes) || s.readFails (s.msgRange Config.blockBytes) then
      raise .bus s.anyKB.anyMB
    else endBlock inc (s.passBlock (s.keyRange Config.blockBytes) (s.msgRange Config.blockBytes))

/-- BLK (R207). -/
def execBlk (s : State) : Host.Outcome State Fault Refusal := oneBlock false s

/-- BLK+ (R207). -/
def execBlkInc (s : State) : Host.Outcome State Fault Refusal := oneBlock true s

/-! ## RUN -/

/-- The length checks of RUN, in the order of R201; none if all pass. The range checks are `State.vet`'s. -/
def State.checkLengths (s : State) : Option ErrCode :=
  if s.mlen = 0 then some .empty
  else if s.klen ≠ s.mlen then some .lenMismatch
  else if s.mlen.toNat % Config.blockBytes ≠ 0 then some .unaligned
  else none

/-- The ranges RUN accesses, in the order R201 checks them. -/
def State.runRanges (s : State) : List Region :=
  [s.keyRange s.mlen.toNat, s.msgRange s.mlen.toNat, s.digestRange]

/-- `n <- MLEN / 32` (R202). -/
def State.blockCount (s : State) : Nat := s.mlen.toNat / Config.blockBytes

/-- What RUN does once its checks have passed: an all-zero accumulator, BCNT <- 0 (R202). -/
def State.startRun (s : State) : State := { s.clearACC with bcnt := 0 }

/-- `BCNT <- k + 1` (R202). -/
def State.countBlock (s : State) (k : Nat) : State := { s with bcnt := BitVec.ofNat 32 (k + 1) }

/-- The loop of RUN over blocks k, …, k + n - 1, in increasing block index (R202, R203). -/
def State.runBlocks (n k : Nat) (s : State) : State :=
  match n with
  | 0 => s
  | n + 1 => State.runBlocks n (k + 1) ((s.passBlock (s.keyBlock k) (s.msgBlock k)).countBlock k)

/-- What a bus error on a read leaves of RUN: KB, MB, XB, ZB, ACC and BCNT any value (60_exceptions.md R247). -/
def State.anyRun (s : State) : State := s.anyKB.anyMB.anyXB.anyZB.anyACC.anyBCNT

/-- The register files after RUN's loop, as far as races leave them (20_memory.md R91). -/
def State.settleRun (s : State) : State := s.settleBlock (s.keyRange s.mlen.toNat) (s.msgRange s.mlen.toNat)

/-- The end of RUN once every digest byte is written (R204, R205): races on the digest, completion. -/
def endRun (s : State) : Host.Outcome State Fault Refusal := finish s.putDigest

/-- The end of RUN on an error response to the digest write (60_exceptions.md R247). -/
def failRun (s : State) : Host.Outcome State Fault Refusal := raise .bus s.cutDigest

/-- The single digest write of RUN, after the loop (R204), and what its answer leads to. Races on the input are settled
before it, so they reach the digest through ACC. -/
def storeRun (s : State) : Host.Outcome State Fault Refusal :=
  if s.writeFails s.digestRange then failRun s else endRun s

/-- RUN (R202). However it ends, a digest byte another agent wrote is any value (20_memory.md R91, log 8). -/
def execRun (s : State) : Host.Outcome State Fault Refusal :=
  match s.checkLengths with
  | some e => raise e s.settleDigest
  | none =>
    match s.vet s.runRanges with
    | .pastTop => raise .range s.settleDigest
    | .device => .refused .sideEffectBuffer
    | .clear =>
      if s.readFails (s.keyRange s.mlen.toNat) || s.readFails (s.msgRange s.mlen.toNat) then
        raise .bus s.anyRun.settleDigest
      else storeRun (s.startRun.runBlocks s.blockCount 0).settleRun

end Sys2Proof.Machine
end

