-- ==== Sys2Proof/Machine/Dispatch.lean ====
section
/-! DEFINITION. The dispatch of a command to its meaning, one arm per constructor of Instr. -/

namespace Sys2Proof.Machine

def exec (i : Instr) (s : State) : Host.Outcome State Fault Refusal :=
  match i with
  | .nop => Sys2Proof.Machine.execNop s
  | .clracc => Sys2Proof.Machine.execClracc s
  | .ldk => Sys2Proof.Machine.execLdk s
  | .ldkInc => Sys2Proof.Machine.execLdkInc s
  | .ldm => Sys2Proof.Machine.execLdm s
  | .ldmInc => Sys2Proof.Machine.execLdmInc s
  | .add32 => Sys2Proof.Machine.execAdd32 s
  | .mix => Sys2Proof.Machine.execMix s
  | .acc64 => Sys2Proof.Machine.execAcc64 s
  | .std => Sys2Proof.Machine.execStd s
  | .stdInc => Sys2Proof.Machine.execStdInc s
  | .blk => Sys2Proof.Machine.execBlk s
  | .blkInc => Sys2Proof.Machine.execBlkInc s
  | .run => Sys2Proof.Machine.execRun s

end Sys2Proof.Machine
end

