-- ==== Sys2Proof/Machine/Sequencer.lean ====
section
/-!
DEFINITION. The sequencer (spec/10_state.md R30, R60): executing the accepted command whole (`coreStep`), and the same
command in the sequencer's own steps (`tick`) and the memory port's answers to its byte accesses (`answer`), between which
events of the outside world can land. The reads come in any order, over all blocks, and so do the writes (20_memory.md
R86); every read comes before every write (R89); the registers take the blocks in index order (43_driver.md R203). Both
ways share the operations of the meanings.
-/

namespace Sys2Proof.Machine

/-- The command in flight has come this far. -/
def State.setJob (s : State) (j : Job) : State := { s with job := some j }

/-! ## Accesses -/

/-- The command reads the key range (20_memory.md R82). -/
def readsKey (i : Instr) : Bool :=
  match i with
  | .ldk | .ldkInc | .blk | .blkInc | .run => true
  | .nop | .clracc | .ldm | .ldmInc | .add32 | .mix | .acc64 | .std | .stdInc => false

/-- The command reads the message range (20_memory.md R82). -/
def readsMsg (i : Instr) : Bool :=
  match i with
  | .ldm | .ldmInc | .blk | .blkInc | .run => true
  | .nop | .clracc | .ldk | .ldkInc | .add32 | .mix | .acc64 | .std | .stdInc => false

/-- The byte at place `o` is among those read. -/
def hasByte (bytes : List (Nat × Byte)) (o : Nat) : Bool := bytes.any fun c => c.1 == o

/-- The byte read at place `o`. -/
def byteAt (bytes : List (Nat × Byte)) (o : Nat) : Byte :=
  match bytes with
  | [] => 0
  | c :: rest => if c.1 = o then c.2 else byteAt rest o

/-- Place `o` lies in a block the sequencer has not yet parsed. -/
def Job.unparsed (j : Job) (o : Nat) : Bool := Config.blockBytes * j.k ≤ o && o < Config.blockBytes * j.n

/-- The sequencer has issued the access and not seen it answered (10_state.md R60). -/
def Job.issued (j : Job) (i : Instr) (a : Access) : Bool :=
  match j.phase with
  | .start => false
  | .read key msg =>
    match a with
    | .key o => readsKey i && j.unparsed o && !hasByte key o
    | .msg o => readsMsg i && j.unparsed o && !hasByte msg o
    | .digest _ => false
  | .write left _ =>
    match a with
    | .key _ | .msg _ => false
    | .digest o => left.contains o

/-- The address of an access. -/
def State.place (s : State) (a : Access) : Nat :=
  match a with
  | .key o => s.kptr.toNat + o
  | .msg o => s.mptr.toNat + o
  | .digest o => s.dptr.toNat + o

/-- A byte of the key is read. -/
def Job.gotKey (j : Job) (o : Nat) (b : Byte) : Job :=
  match j.phase with
  | .read key msg => { j with phase := .read ((o, b) :: key) msg }
  | .start | .write _ _ => j

/-- A byte of the message is read. -/
def Job.gotMsg (j : Job) (o : Nat) (b : Byte) : Job :=
  match j.phase with
  | .read key msg => { j with phase := .read key ((o, b) :: msg) }
  | .start | .write _ _ => j

/-- The write of a digest byte is answered, with `seen` addresses in `dirty`. -/
def Job.wrote (j : Job) (o seen : Nat) : Job :=
  match j.phase with
  | .write left _ => { j with phase := .write (left.erase o) seen }
  | .start | .read _ _ => j

/-- Before a digest byte of command `i` is written or the command ends: the results of RUN are any value if another agent
wrote its input since they were settled last, when `dirty` held `seen` addresses (20_memory.md R91, log 8). -/
def State.settleLate (s : State) (i : Instr) (seen : Nat) : State :=
  match i with
  | .run => if s.dirty.length = seen then s else s.settleRun
  | .nop | .clracc | .ldk | .ldkInc | .ldm | .ldmInc | .add32 | .mix | .acc64 | .std | .stdInc | .blk | .blkInc => s

/-- How many addresses `dirty` held when RUN's results were settled last. -/
def Job.seen (j : Job) : Nat :=
  match j.phase with
  | .write _ seen => seen
  | .start | .read _ _ => 0

/-- Byte `o` of the digest is written to memory. -/
def State.putByte (s : State) (o : Nat) : State :=
  { s with mem := Memory.write s.mem (s.dptr.toNat + o) ((serializeWords s.acc).getD o 0) }

/-- What an error response to a read leaves (60_exceptions.md R247). -/
def failRead (i : Instr) (s : State) : Host.Outcome State Fault Refusal :=
  match i with
  | .ldk | .ldkInc => raise .bus s.anyKB
  | .ldm | .ldmInc => raise .bus s.anyMB
  | .blk | .blkInc => raise .bus s.anyKB.anyMB
  | .run => raise .bus s.anyRun.settleDigest
  | .nop | .clracc | .add32 | .mix | .acc64 | .std | .stdInc => .fault .badSequencer

/-- What an error response to a write leaves (60_exceptions.md R247). -/
def failWrite (i : Instr) (s : State) : Host.Outcome State Fault Refusal :=
  match i with
  | .std | .stdInc => failStore s
  | .run => failRun s
  | .nop | .clracc | .ldk | .ldkInc | .ldm | .ldmInc | .add32 | .mix | .acc64 | .blk | .blkInc => .fault .badSequencer

/-- The memory port performs the write of digest byte `o` and answers it. -/
def performWrite (i : Instr) (j : Job) (o : Nat) (s : State) : Host.Outcome State Fault Refusal :=
  if s.writeFails ⟨s.place (.digest o), 1⟩ then failWrite i s
  else .next ((s.putByte o).setJob (j.wrote o s.dirty.length))

/-- The memory port performs an access of command `i` and answers it. -/
def perform (i : Instr) (j : Job) (a : Access) (s : State) : Host.Outcome State Fault Refusal :=
  match a with
  | .key o =>
    if s.readFails ⟨s.place a, 1⟩ then failRead i s
    else .next (s.setJob (j.gotKey o (Memory.read s.mem (s.place a))))
  | .msg o =>
    if s.readFails ⟨s.place a, 1⟩ then failRead i s
    else .next (s.setJob (j.gotMsg o (Memory.read s.mem (s.place a))))
  | .digest o => performWrite i j o (s.settleLate i j.seen)

/-- The memory port answers an access of the command in flight, if the sequencer has issued it. -/
def answerCommand (i : Instr) (j : Job) (a : Access) (s : State) : Host.Outcome State Fault Refusal :=
  if j.issued i a then perform i j a s else .next s

/-- The memory port answers an access; nothing if the sequencer has issued no such access. -/
def answer (a : Access) (s : State) : Host.Outcome State Fault Refusal :=
  match s.job with
  | none => .next s
  | some j =>
    match decode j.word with
    | .command i => answerCommand i j a s
    | .illegal _ => .next s

/-! ## The sequencer's own steps -/

/-- Vet the ranges of the command, then issue its accesses. -/
def enter (ranges : List Region) (s s' : State) : Host.Outcome State Fault Refusal :=
  match s.vet ranges with
  | .pastTop => raise .range s
  | .device => .refused .sideEffectBuffer
  | .clear => .next s'

/-- The same for a command that writes a digest (20_memory.md R91, log 8). -/
def enterStore (ranges : List Region) (s s' : State) : Host.Outcome State Fault Refusal :=
  match s.vet ranges with
  | .pastTop => raise .range s.settleDigest
  | .device => .refused .sideEffectBuffer
  | .clear => .next s'

/-- The reads of `n` blocks are issued. -/
def State.issueReads (s : State) (j : Job) (n : Nat) : State := s.setJob { j with n := n, k := 0, phase := .read [] [] }

/-- The writes of the digest are issued. -/
def State.issueWrites (s : State) (j : Job) : State :=
  s.setJob { j with phase := .write (List.range Config.digestBytes) s.dirty.length }

/-- The first step of a command: the commands that reach memory pass their checks and issue their accesses; the others are
done at once. -/
def tickStart (i : Instr) (j : Job) (s : State) : Host.Outcome State Fault Refusal :=
  match i with
  | .ldk | .ldkInc => enter [s.keyRange Config.blockBytes] s (s.issueReads j 1)
  | .ldm | .ldmInc => enter [s.msgRange Config.blockBytes] s (s.issueReads j 1)
  | .std | .stdInc => enterStore [s.digestRange] s (s.issueWrites j)
  | .blk | .blkInc => enter [s.keyRange Config.blockBytes, s.msgRange Config.blockBytes] s (s.issueReads j 1)
  | .run =>
    match s.checkLengths with
    | some e => raise e s.settleDigest
    | none => enterStore s.runRanges s (s.startRun.issueReads j s.blockCount)
  | .nop | .clracc | .add32 | .mix | .acc64 => exec i s

/-- The places of the current block. -/
def Job.places (j : Job) : List Nat := (List.range Config.blockBytes).map fun d => Config.blockBytes * j.k + d

/-- Every byte of the current block that the command reads is there. -/
def Job.blockThere (j : Job) (i : Instr) (key msg : List (Nat × Byte)) : Bool :=
  (!readsKey i || j.places.all fun o => hasByte key o) && (!readsMsg i || j.places.all fun o => hasByte msg o)

/-- The 32 bytes of the current block. -/
def Job.blockBytes (j : Job) (bytes : List (Nat × Byte)) : List Byte := j.places.map fun o => byteAt bytes o

/-- What is read and not yet parsed once the current block is parsed. -/
def Job.later (j : Job) (bytes : List (Nat × Byte)) : List (Nat × Byte) :=
  bytes.filter fun c => Config.blockBytes * (j.k + 1) ≤ c.1

/-- RUN goes to the next block, or issues the digest write after the last. What it writes then is computed from its input, so
a race on that is settled first (20_memory.md R91). -/
def nextBlock (j : Job) (key msg : List (Nat × Byte)) (s : State) : State :=
  if j.k + 1 < j.n then s.setJob { j with k := j.k + 1, phase := .read (j.later key) (j.later msg) }
  else s.settleRun.issueWrites j

/-- The current block is parsed; LDK, LDM and BLK end, RUN combines, mixes, accumulates and counts it. -/
def tickBlock (i : Instr) (j : Job) (key msg : List (Nat × Byte)) (s : State) : Host.Outcome State Fault Refusal :=
  match i with
  | .ldk => endLoadKey false (s.parseKey (j.blockBytes key))
  | .ldkInc => endLoadKey true (s.parseKey (j.blockBytes key))
  | .ldm => endLoadMsg false (s.parseMsg (j.blockBytes msg))
  | .ldmInc => endLoadMsg true (s.parseMsg (j.blockBytes msg))
  | .blk => endBlock false (s.foldBytes (j.blockBytes key) (j.blockBytes msg))
  | .blkInc => endBlock true (s.foldBytes (j.blockBytes key) (j.blockBytes msg))
  | .run => .next (nextBlock j key msg ((s.foldBytes (j.blockBytes key) (j.blockBytes msg)).countBlock j.k))
  | .nop | .clracc | .add32 | .mix | .acc64 | .std | .stdInc => .fault .badSequencer

/-- Every digest byte is written (40_codec.md R145, 43_driver.md R204). -/
def tickStored (i : Instr) (s : State) : Host.Outcome State Fault Refusal :=
  match i with
  | .std => endStore false s
  | .stdInc => endStore true s
  | .run => endRun s
  | .nop | .clracc | .ldk | .ldkInc | .ldm | .ldmInc | .add32 | .mix | .acc64 | .blk | .blkInc => .fault .badSequencer

/-- One step of command `i` in flight; nothing while it waits for the memory port. -/
def tickCommand (i : Instr) (j : Job) (s : State) : Host.Outcome State Fault Refusal :=
  match j.phase with
  | .start => tickStart i j s
  | .read key msg => if j.blockThere i key msg then tickBlock i j key msg s else .next s
  | .write left seen => if left.isEmpty then tickStored i (s.settleLate i seen) else .next s

/-- One step of the sequencer; an idle sequencer does nothing. An illegal word ends at its first step with ILLEGAL
(30_encoding.md R114, 60_exceptions.md R245). -/
def tick (s : State) : Host.Outcome State Fault Refusal :=
  match s.job with
  | none => .next s
  | some j =>
    match decode j.word with
    | .command i => tickCommand i j s
    | .illegal _ => raise .illegal s

/-! ## Execution without input -/

/-- Execute accepted command word `c` whole: decode it (30_encoding.md R114) and run its meaning. -/
def runWord (c : Word) (s : State) : Host.Outcome State Fault Refusal :=
  match decode c with
  | .command i => exec i s
  | .illegal _ => raise .illegal s

/-- The first byte of the current block that the command reads and that is not there. -/
def Job.missing (j : Job) (i : Instr) (key msg : List (Nat × Byte)) : Option Access :=
  match if readsKey i then j.places.find? fun o => !hasByte key o else none with
  | some o => some (.key o)
  | none => (if readsMsg i then j.places.find? fun o => !hasByte msg o else none).map Access.msg

/-- The access that is answered next where no input says which: the lowest place of the current block, the key before the
message. -/
def Job.nextAccess (j : Job) (i : Instr) : Option Access :=
  match j.phase with
  | .start => none
  | .read key msg => j.missing i key msg
  | .write left _ => left.head?.map Access.digest

/-- A command already begun in its own steps goes on: its next access is answered, or the sequencer takes its next step. -/
def advance (j : Job) (s : State) : Host.Outcome State Fault Refusal :=
  match decode j.word with
  | .command i =>
    match j.nextAccess i with
    | some a => answerCommand i j a s
    | none => tickCommand i j s
  | .illegal _ => raise .illegal s

/-- The sequencer moves on by itself: a command that has just been accepted is executed whole, one already begun in its own
steps goes on, and an idle sequencer holds every register (60_exceptions.md R260). -/
def coreStep (s : State) : Host.Outcome State Fault Refusal :=
  match s.job with
  | none => .next s
  | some j =>
    match j.phase with
    | .start => runWord j.word s
    | .read _ _ | .write _ _ => advance j s

end Sys2Proof.Machine
end

