-- ==== Sys2Proof/Machine/HostPort.lean ====
section
/-!
DEFINITION. The outside world: reset (spec/70_reset_and_hazards.md R280 to R283), the register port
(10_state.md R31 to R58, 20_memory.md R81), other agents' stores (20_memory.md R91), and the host notation
(30_encoding.md R119).
-/

namespace Sys2Proof.Machine

/-! ## Reset -/

/-- What a reset leaves of an STD or a RUN in flight: each byte of a digest write that is issued and not wholly answered
is old or new (70_reset_and_hazards.md R282), and a digest byte another agent wrote is any value (20_memory.md R91). What
RUN would have written is subject to races on its input. All of it is settled in the step of the reset, so no write of the
discarded command lands later: the model's choice, log 26. Logs 8, 10. -/
def State.abandon (s : State) : State :=
  match s.job with
  | none => s
  | some j =>
    match decode j.word with
    | .command .std | .command .stdInc =>
      match j.phase with
      | .write _ _ => s.cutDigest
      | .start | .read _ _ => s.settleDigest
    | .command .run =>
      match j.phase with
      | .write _ seen => (s.settleLate .run seen).cutDigest
      | .start | .read _ _ => s.settleDigest
    | _ => s

/-- Every register at its reset value, the sequencer idle; what is not the core's stays (R281). -/
def State.cleared (s : State) : State :=
  { State.reset with
    mem := s.mem, platform := s.platform, inputs := s.inputs, rdata := s.rdata, free := s.free }

/-- A reset, hard or soft (R280 to R282). -/
def resetCore (s : State) : State := s.abandon.cleared

/-! ## The register port -/

/-- A host write to CTRL: bit 1 performs the soft reset and bit 0 is then discarded; otherwise IE <- bit 0
(10_state.md R33, R35). -/
def writeCtrl (v : Word) (s : State) : State :=
  if v.getLsbD 1 then resetCore s else { s with ie := v.getLsbD 0 }

/-- A write ignored because the core is busy sets OVR (10_state.md R39, R57). -/
def State.lost (s : State) : State := { s with ovr := true }

/-- `HostWrite` at a 4-byte-aligned offset of the window (10_state.md R32 to R57). -/
def writeOffset (off : Nat) (v : Word) (s : State) : State :=
  match regAt off with
  | some .id => s
  | some .ctrl => writeCtrl v s
  | some .status => writeStatus v s
  | some .cmd => if s.busy then s.lost else s.accept v
  | some r => if s.busy then s.lost else s.setReg r v
  | none => if s.busy then s.lost else s

/-- `HostRead` at a 4-byte-aligned offset of the window: exact, but for BCNT and the data registers in a busy period;
a reserved offset reads 0 (10_state.md R55, R58). -/
def readOffset (off : Nat) (s : State) : State :=
  match regAt off with
  | some r => if s.busy && dataReg r then s.anyAnswer else { s with rdata := some (s.readReg r) }
  | none => { s with rdata := some 0 }

/-- The host-bus address lies in the register window (20_memory.md R81). -/
def State.inWindow (s : State) (addr : Nat) : Bool :=
  s.platform.mmioBase ≤ addr && addr < s.platform.mmioBase + Config.windowBytes

/-- The offset of a host-bus address in the window. -/
def State.windowOffset (s : State) (addr : Nat) : Nat := addr - s.platform.mmioBase

/-- The port performs only 32-bit accesses at 4-byte-aligned offsets (10_state.md R56). -/
def portAccess (size off : Nat) : Bool := size == 4 && off % 4 == 0

/-- A host write on the host bus. One outside the window is not the core's; an unsupported one has no effect
(10_state.md R56). Log 12. -/
def hostWrite (addr size : Nat) (v : Word) (s : State) : State :=
  if s.inWindow addr && portAccess size (s.windowOffset addr) then writeOffset (s.windowOffset addr) v s else s

/-- A host read on the host bus. One outside the window is not the core's; an unsupported one returns any value
(10_state.md R56). Log 12. -/
def hostRead (addr size : Nat) (s : State) : State :=
  if s.inWindow addr then
    if portAccess size (s.windowOffset addr) then readOffset (s.windowOffset addr) s else s.anyAnswer
  else s

/-! ## Other agents -/

/-- Another agent writes a byte of system memory; in a busy period the address is remembered (20_memory.md R91). -/
def memWrite (addr : Word) (b : Byte) (s : State) : State :=
  { s with
    mem := Memory.write s.mem addr.toNat b
    dirty := if s.busy && !s.dirty.contains addr.toNat then addr.toNat :: s.dirty else s.dirty }

/-- The platform's answers to accesses change. -/
def setErrorMap (rd wr : List Region) (s : State) : State :=
  { s with platform := { s.platform with readErr := rd, writeErr := wr } }

/-- One event of the outside world, or of the schedule. -/
def handle (e : Event) (s : State) : Host.Outcome State Fault Refusal :=
  match e with
  | .hostWrite addr size v => .next (hostWrite addr size v s)
  | .hostRead addr size => .next (hostRead addr size s)
  | .hardReset => .next (resetCore s)
  | .memWrite addr b => .next (memWrite addr b s)
  | .errorMap rd wr => .next (setErrorMap rd wr s)
  | .tick => tick s
  | .answer a => answer a s
  | .core => coreStep s

/-- Events one after the other, up to the first at which the machine stops. -/
def runEvents (es : List Event) (s : State) : Host.Outcome State Fault Refusal :=
  match es with
  | [] => .next s
  | e :: rest =>
    match handle e s with
    | .next s' => runEvents rest s'
    | .fault r => .fault r
    | .refused r => .refused r

/-- The machine's next event: the oldest input, or the sequencer where there is none. -/
def stepEvent (s : State) : Host.Outcome State Fault Refusal :=
  match s.inputs with
  | [] => coreStep s
  | e :: rest => handle e { s with inputs := rest }

/-! ## Host programs (30_encoding.md R119) -/

/-- `WR <reg>, <value>` as a host access. -/
def wrEvent (base : Nat) (r : Reg) (v : Word) : Event := .hostWrite (base + r.offset) 4 v

/-- `RD <reg>` as a host access. -/
def rdEvent (base : Nat) (r : Reg) : Event := .hostRead (base + r.offset) 4

/-- `WAIT`: polls that read BUSY = 1, the command's execution, and the poll that reads BUSY = 0. Log 21. -/
def waitEvents (base polls : Nat) : List Event :=
  List.replicate polls (rdEvent base .status) ++ [.core, rdEvent base .status]

/-- `DO <mnemonic>`: `CMD` then `WAIT`. -/
def doEvents (base : Nat) (i : Instr) (polls : Nat) : List Event :=
  wrEvent base .cmd (encode i) :: waitEvents base polls

/-- The events of one line of a host program whose window lies at `base`. -/
def expandOp (base : Nat) (o : HostOp) : List Event :=
  match o with
  | .wr r v => [wrEvent base r v]
  | .rd r => [rdEvent base r]
  | .cmd i => [wrEvent base .cmd (encode i)]
  | .wait polls => waitEvents base polls
  | .doCmd i polls => doEvents base i polls
  | .ack => [wrEvent base .status 0x00000002]
  | .clrovr => [wrEvent base .status 0x00000004]
  | .srst => [wrEvent base .ctrl 0x00000002]
  | .wr64zb i v => [wrEvent base (.zblo i) (lowHalf v), wrEvent base (.zbhi i) (highHalf v)]
  | .wr64acc i v => [wrEvent base (.acclo i) (lowHalf v), wrEvent base (.acchi i) (highHalf v)]
  | .rd64zb i => [rdEvent base (.zblo i), rdEvent base (.zbhi i)]
  | .rd64acc i => [rdEvent base (.acclo i), rdEvent base (.acchi i)]
  | .hash k m d len polls =>
    [wrEvent base .kptr k, wrEvent base .mptr m, wrEvent base .dptr d, wrEvent base .klen len,
      wrEvent base .mlen len] ++ doEvents base .run polls

/-- The events of a host program, line by line. -/
def expandProgram (base : Nat) (p : List HostOp) : List Event := p.flatMap (expandOp base)

end Sys2Proof.Machine
end

