-- ==== Sys2Proof/Machine/Step.lean ====
section
/-!
DEFINITION. The step: the oldest input if there is one, otherwise the sequencer. The core fetches nothing from memory
(spec/20_memory.md R94): a command comes from the host's write to CMD, so the "next instruction" of the machine is the
accepted command word (10_state.md R60).
-/

namespace Sys2Proof.Machine

/-- One step of the machine. -/
def step (s : State) : Host.Outcome State Fault Refusal := stepEvent s

/-- The state in which the row's word has just been accepted (30_encoding.md R113) and nothing of the outside world
comes before its execution. Log 3. -/
def State.withFetchWord (s : State) (nbits w : Nat) : State :=
  { s.accept (tableWord nbits w) with inputs := [] }

end Sys2Proof.Machine
end

