-- ==== Sys2Proof/Safety.lean ====
section
/-!
DEFINITION. What a legal state is, in the terms the claims use: the invariant of every step.
-/

namespace Sys2Proof.Machine

/-- The ranges have passed the command's checks. -/
def State.admitted (s : State) (ranges : List Region) : Bool := s.vet ranges == .clear

/-- The bytes read and not yet parsed lie in unparsed blocks, each place once. -/
def Job.placesOk (j : Job) (bytes : List (Nat × Byte)) : Bool :=
  bytes.all (fun c => j.unparsed c.1) && decide (bytes.map Prod.fst).Nodup

/-- The reads in flight: a current block, and bytes of the ranges the command reads alone. -/
def Job.readOk (j : Job) (i : Instr) (key msg : List (Nat × Byte)) : Bool :=
  j.k < j.n && (readsKey i || key.isEmpty) && (readsMsg i || msg.isEmpty) && j.placesOk key && j.placesOk msg

/-- The digest bytes not yet answered are some of the 64, each once. -/
def leftOk (left : List Nat) : Bool := left.all (fun o => o < Config.digestBytes) && decide left.Nodup

/-- RUN's hidden state agrees with its registers: the checks have passed and n is the block count (10_state.md R60,
43_driver.md R201, R202). -/
def Job.runOk (j : Job) (s : State) : Bool :=
  s.checkLengths == none && s.admitted s.runRanges && j.n == s.blockCount

/-- The phases command `i` goes through, and what holds in each. -/
def Job.phaseOk (j : Job) (i : Instr) (s : State) : Bool :=
  match i with
  | .nop | .clracc | .add32 | .mix | .acc64 => j.phase == .start
  | .ldk | .ldkInc =>
    match j.phase with
    | .start => true
    | .read key msg => j.n == 1 && s.admitted [s.keyRange Config.blockBytes] && j.readOk i key msg
    | .write _ _ => false
  | .ldm | .ldmInc =>
    match j.phase with
    | .start => true
    | .read key msg => j.n == 1 && s.admitted [s.msgRange Config.blockBytes] && j.readOk i key msg
    | .write _ _ => false
  | .std | .stdInc =>
    match j.phase with
    | .start => true
    | .read _ _ => false
    | .write left _ => s.admitted [s.digestRange] && leftOk left
  | .blk | .blkInc =>
    match j.phase with
    | .start => true
    | .read key msg =>
      j.n == 1 && s.admitted [s.keyRange Config.blockBytes, s.msgRange Config.blockBytes] && j.readOk i key msg
    | .write _ _ => false
  | .run =>
    match j.phase with
    | .start => true
    | .read key msg => j.runOk s && s.bcnt.toNat == j.k && j.readOk i key msg
    | .write left _ => j.runOk s && s.bcnt.toNat == j.n && j.k + 1 == j.n && leftOk left

/-- The command in flight is the last accepted word, in a phase that word's command goes through; an illegal word ends
at its first step. -/
def Job.ok (j : Job) (s : State) : Bool :=
  j.word == s.lastcmd &&
    match decode j.word with
    | .command i => j.phaseOk i s
    | .illegal _ => j.phase == .start

/-- What holds of the command in flight, or of an idle core: BUSY is 1 exactly while one is in flight, and then DONE and
ERR are 0 (10_state.md R37, R38, R40); races are counted in a busy period only (20_memory.md R91). -/
def State.jobInv (s : State) : Bool :=
  match s.job with
  | none => !s.busy && s.dirty.isEmpty
  | some j => s.busy && !s.done && s.err == 0 && j.ok s

/-- The invariant every step keeps: memory in canonical form, STATUS.ERR one of the codes 0 to 6 (10_state.md R40), and
`State.jobInv`. -/
def State.inv (s : State) : Bool := Memory.wf s.mem && s.err.toNat ≤ 6 && s.jobInv

end Sys2Proof.Machine
end

