-- ==== Sys2Proof/Certificates/Slice0/Obligations.lean ====
section
/-!
DEFINITION. The statements about the MM128 core, for the provers. Each docstring names the rule of spec/ it formalises.
The words the statements use are defined first, from addresses and numbers, not from the model's own operations.
-/

open Sys2Proof Sys2Proof.Machine

namespace Sys2Proof.Claims

/-- Completion with the given code (60_exceptions.md R249): ERR, DONE and BUSY; the sequencer is idle and the count of
races ends with the busy period. Nothing else changes. -/
def ended (s : State) (code : Nat) : State :=
  { s with err := BitVec.ofNat 4 code, done := true, busy := false, job := none, dirty := [] }

/-- Address `a` lies in the range. -/
def inside (r : Region) (a : Nat) : Prop := r.base ≤ a ∧ a < r.base + r.len

/-- The range has no address in common with any of the regions. -/
def apart (rs : List Region) (r : Region) : Prop := ∀ d ∈ rs, ∀ a, ¬(inside d a ∧ inside r a)

/-- The range ends at 0xFFFFFFFF or below (20_memory.md R88). -/
def fits (r : Region) : Prop := r.base + r.len ≤ 2 ^ 32

/-- The range is ordinary memory below 2^32 (20_memory.md R87, R88). -/
def ordinary (s : State) (r : Region) : Prop := fits r ∧ apart s.platform.device r

/-- No read of the range meets an error response (60_exceptions.md R247). -/
def readsWell (s : State) (r : Region) : Prop := s.platform.busCanErr = false ∨ apart s.platform.readErr r

/-- No write of the range meets an error response (60_exceptions.md R247). -/
def writesWell (s : State) (r : Region) : Prop := s.platform.busCanErr = false ∨ apart s.platform.writeErr r

/-- No other agent has written the range in this busy period (20_memory.md R91). -/
def quiet (s : State) (r : Region) : Prop := ∀ a ∈ s.dirty, ¬inside r a

/-- The ranges a command accesses, in the order its checks take them (20_memory.md R82, 60_exceptions.md R246). -/
def ranges (i : Instr) (s : State) : List Region :=
  match i with
  | .ldk | .ldkInc => [⟨s.kptr.toNat, 32⟩]
  | .ldm | .ldmInc => [⟨s.mptr.toNat, 32⟩]
  | .std | .stdInc => [⟨s.dptr.toNat, 64⟩]
  | .blk | .blkInc => [⟨s.kptr.toNat, 32⟩, ⟨s.mptr.toNat, 32⟩]
  | .run => [⟨s.kptr.toNat, s.mlen.toNat⟩, ⟨s.mptr.toNat, s.mlen.toNat⟩, ⟨s.dptr.toNat, 64⟩]
  | .nop | .clracc | .add32 | .mix | .acc64 => []

/-- The three length checks of RUN pass (43_driver.md R201). -/
def lengthsOk (s : State) : Prop := s.mlen ≠ 0 ∧ s.klen = s.mlen ∧ s.mlen.toNat % 32 = 0

/-- The 32-bit number at address `a`, the byte at the lowest address least significant (20_memory.md R83). -/
def leWord (m : List Host.Cell) (a : Nat) : Nat :=
  (Memory.read m a).toNat + 256 * (Memory.read m (a + 1)).toNat + 65536 * (Memory.read m (a + 2)).toNat
    + 16777216 * (Memory.read m (a + 3)).toNat

/-- `l` is the block at address `a` (40_codec.md R140). -/
def isBlock (l : Lanes Word) (m : List Host.Cell) (a : Nat) : Prop :=
  ∀ i : Fin 8, (l.get i).toNat = leWord m (a + 4 * i.val)

/-- Memory holds the digest of `acc` at address `a`: byte 8i + j is byte j of word i (40_codec.md R141). -/
def isDigest (m : List Host.Cell) (a : Nat) (acc : Lanes DWord) : Prop :=
  ∀ i j : Fin 8, (Memory.read m (a + 8 * i.val + j.val)).toNat = (acc.get i).toNat / 256 ^ j.val % 256

/-- Every byte outside the range reads as before. -/
def sameOutside (m m' : List Host.Cell) (r : Region) : Prop := ∀ a, ¬inside r a → Memory.read m' a = Memory.read m a

/-- Memory `m` reads as that of `s`, but for the bytes of the digest range that another agent wrote in the busy period
(20_memory.md R91). -/
def onlyRaced (s : State) (m : List Host.Cell) : Prop :=
  ∀ a, ¬(inside s.digestRange a ∧ a ∈ s.dirty) → Memory.read m a = Memory.read s.mem a

/-- The command ends with the code before any access of its own: nothing changes but STATUS, and what another agent wrote
in the digest range of an STD or a RUN is any value (20_memory.md R91, log 8). -/
def rejected (i : Instr) (s : State) (code : Nat) : Prop :=
  ∃ m f, exec i s = .next (ended { s with mem := m, free := f } code) ∧ onlyRaced s m ∧
    (i ∉ [Instr.std, .stdInc, .run] ∨ quiet s s.digestRange → m = s.mem ∧ f = s.free)

/-- Word `i` of eight, as a number. -/
def num (x : Lanes Word) (i : Nat) : Nat := (x.get (Fin.ofNat 8 i)).toNat

/-- `z` is F-128 of `x`, in the index form of 41_mixer.md R165, on numbers. -/
def isMix (x : Lanes Word) (z : Lanes DWord) : Prop :=
  ∀ i < 4,
    (z.get (Fin.ofNat 8 i)).toNat = num x i * num x (i + 4) ∧
    (z.get (Fin.ofNat 8 (i + 4))).toNat =
      ((num x i + num x ((i + 1) % 4) + num x ((i + 2) % 4)) % 2 ^ 32)
        * ((num x (4 + (i + 1) % 4) + num x (4 + (i + 2) % 4) + num x (4 + (i + 3) % 4)) % 2 ^ 32)

/-- `x` is the lane-wise sum modulo 2^32 of `a` and `b` (42_adders.md R180). -/
def isSum32 (a b x : Lanes Word) : Prop :=
  ∀ i : Fin 8, (x.get i).toNat = ((a.get i).toNat + (b.get i).toNat) % 2 ^ 32

/-- `x` is the lane-wise sum modulo 2^64 of `a` and `b` (42_adders.md R181). -/
def isSum64 (a b x : Lanes DWord) : Prop :=
  ∀ i : Fin 8, (x.get i).toNat = ((a.get i).toNat + (b.get i).toNat) % 2 ^ 64

/-- The mixer output of block `k` of the key and message at KPTR and MPTR (43_driver.md R205). -/
def blockMix (s : State) (k : Nat) : Lanes DWord :=
  f128 (addBlocks (parseBlock (Memory.readBytes s.mem (s.kptr.toNat + 32 * k) 32))
    (parseBlock (Memory.readBytes s.mem (s.mptr.toNat + 32 * k) 32)))

/-- What RUN's loop leaves in the register files, as far as no other agent wrote the input (43_driver.md R205, 20_memory.md
R91): KB and MB are the last blocks, XB and ZB computed from them, ACC the sum over all blocks. -/
def loopLeft (s : State) (kb mb xb : Lanes Word) (zb acc : Lanes DWord) : Prop :=
  (quiet s ⟨s.kptr.toNat, s.mlen.toNat⟩ → isBlock kb s.mem (s.kptr.toNat + (s.mlen.toNat - 32))) ∧
  (quiet s ⟨s.mptr.toNat, s.mlen.toNat⟩ → isBlock mb s.mem (s.mptr.toNat + (s.mlen.toNat - 32))) ∧
  (quiet s ⟨s.kptr.toNat, s.mlen.toNat⟩ → quiet s ⟨s.mptr.toNat, s.mlen.toNat⟩ →
    isSum32 kb mb xb ∧ isMix xb zb ∧
      ∀ l : Fin 8, (acc.get l).toNat =
        (∑ k ∈ Finset.range (s.mlen.toNat / 32), ((blockMix s k).get l).toNat) % 2 ^ 64)

/-- Another agent has written RUN's key or message in this busy period (20_memory.md R91). -/
def inputRaced (s : State) : Prop := ¬(quiet s ⟨s.kptr.toNat, s.mlen.toNat⟩ ∧ quiet s ⟨s.mptr.toNat, s.mlen.toNat⟩)

/-- Every word of ACC is a free draw (00_scope.md R17). -/
def accFree (s : State) : Prop := ∀ l : Fin 8, ∃ n, s.acc.get l = Config.anyDWord n

/-- The address of a byte access: its place in the key, message or digest range (20_memory.md R82). -/
def addressOf (s : State) (a : Access) : Nat :=
  match a with
  | .key o => s.kptr.toNat + o
  | .msg o => s.mptr.toNat + o
  | .digest o => s.dptr.toNat + o

/-- The event is the sequencer's own: a step of it, or the memory port's answer to one of its accesses. -/
def own (e : Event) : Prop := e = .tick ∨ ∃ a, e = .answer a

/-- The legality formula of 30_encoding.md R114, on the number of the word. -/
def legal (c : Word) : Prop :=
  c.toNat / 512 = 0 ∧ c.toNat % 256 ∈ [0, 1, 2, 3, 4, 5, 6, 7, 8, 16] ∧
    (c.toNat / 256 % 2 = 0 ∨ c.toNat % 256 ∈ [2, 3, 7, 8])

/-- The 14 legal words (30_encoding.md R112). -/
def legalWords : List Word :=
  [0x00000000, 0x00000001, 0x00000002, 0x00000102, 0x00000003, 0x00000103, 0x00000004, 0x00000005, 0x00000006,
    0x00000007, 0x00000107, 0x00000008, 0x00000108, 0x00000010]

/-- The state after the oldest input is taken. -/
def taken (s : State) (rest : List Event) : State := { s with inputs := rest }

/-- The next input is a 32-bit host write of `v` at window offset `off`. -/
def hostWrites (s : State) (off : Nat) (v : Word) (rest : List Event) : Prop :=
  s.inputs = .hostWrite (s.platform.mmioBase + off) 4 v :: rest

/-- The next input is a 32-bit host read at window offset `off`. -/
def hostReads (s : State) (off : Nat) (rest : List Event) : Prop :=
  s.inputs = .hostRead (s.platform.mmioBase + off) 4 :: rest

/-- The next input is a reset: `rst`, or a write to CTRL with bit 1 set (70_reset_and_hazards.md R280). -/
def resetNext (s : State) (rest : List Event) : Prop :=
  s.inputs = .hardReset :: rest ∨ ∃ v : Word, v.getLsbD 1 = true ∧ hostWrites s 0x004 v rest

/-- The command after another, if that one answered a next state. -/
def andThen (o : Host.Outcome State Fault Refusal) (i : Instr) : Host.Outcome State Fault Refusal :=
  match o with
  | .next s => exec i s
  | .fault f => .fault f
  | .refused q => .refused q

/-- `BLK+` n times. -/
def blocksDriven (n : Nat) (o : Host.Outcome State Fault Refusal) : Host.Outcome State Fault Refusal :=
  match n with
  | 0 => o
  | n + 1 => blocksDriven n (andThen o .blkInc)

/-- The four little-endian bytes of a word. -/
def leBytes (w : Word) : List Byte :=
  [BitVec.ofNat 8 w.toNat, BitVec.ofNat 8 (w.toNat / 256), BitVec.ofNat 8 (w.toNat / 65536),
    BitVec.ofNat 8 (w.toNat / 16777216)]

/-- The concatenation of the little-endian bytes of eight words. -/
def blockBytes (w : Lanes Word) : List Byte :=
  leBytes w.w0 ++ leBytes w.w1 ++ leBytes w.w2 ++ leBytes w.w3 ++ leBytes w.w4 ++ leBytes w.w5 ++ leBytes w.w6
    ++ leBytes w.w7

end Sys2Proof.Claims

open Sys2Proof.Claims

/-! ## Decoding -/

/-- A word decodes to a command exactly when it is that command's word (30_encoding.md R112, R120). -/
def Obligations.DecodeAndEncodeAgree : Prop := ∀ (c : Word) (i : Instr), decode c = .command i ↔ c = encode i

/-- A word is decoded before anything else; it is executed if it is legal and ends with ILLEGAL, changing nothing but
STATUS, if it is not; the legal words are the 14 of R112 (30_encoding.md R114, 60_exceptions.md R245). That one step with
no input is the whole meaning is the model's choice: logs 3, 14. -/
def Obligations.WordIsExecutedOrIllegal : Prop :=
  ∀ (s : State) (c : Word), s.inputs = [] →
    (legal c ↔ c ∈ legalWords) ∧
    (legal c → ∃ i, c = encode i ∧ step (s.accept c) = exec i (s.accept c)) ∧
    (¬legal c → step (s.accept c) = .next (ended { s with lastcmd := c } 4))

/-- Words written out from 30_encoding.md R112 and from the vectors V-E6 and V-E7 of 95_test_vectors.md. -/
def Obligations.TableWordsDecode : Prop :=
  decode 0x00000000 = .command .nop ∧ decode 0x00000001 = .command .clracc ∧
  decode 0x00000002 = .command .ldk ∧ decode 0x00000102 = .command .ldkInc ∧
  decode 0x00000003 = .command .ldm ∧ decode 0x00000103 = .command .ldmInc ∧
  decode 0x00000004 = .command .add32 ∧ decode 0x00000005 = .command .mix ∧
  decode 0x00000006 = .command .acc64 ∧ decode 0x00000007 = .command .std ∧
  decode 0x00000107 = .command .stdInc ∧ decode 0x00000008 = .command .blk ∧
  decode 0x00000108 = .command .blkInc ∧ decode 0x00000010 = .command .run ∧
  (∀ c ∈ ([0x00000009, 0x0000000F, 0x00000011, 0x000000FF, 0x00000100, 0x00000101, 0x00000104, 0x00000105,
      0x00000106, 0x00000110, 0x00000200, 0x00000202, 0x80000010, 0xFFFFFFFF] : List Word),
    ∀ i, decode c ≠ .command i)

/-! ## The step -/

/-- With no input, the step of a core that has accepted a command's word is the command's meaning (10_state.md R60).
The inputs and the phases are the model's: logs 3, 9, 14. -/
def Obligations.StepRunsAcceptedCommand : Prop :=
  ∀ (s : State) (c : Word) (i : Instr), s.inputs = [] → s.job = some ⟨c, 0, 0, .start⟩ → decode c = .command i →
    step s = exec i s

/-- The oldest input is taken first; with none an idle core holds every register (10_state.md R30, 60_exceptions.md
R260). The list of inputs is the model's choice: log 3. -/
def Obligations.StepTakesOldestInput : Prop :=
  ∀ s : State,
    (∀ (e : Event) (rest : List Event), s.inputs = e :: rest → step s = handle e (taken s rest)) ∧
    (s.inputs = [] → s.job = none → step s = .next s)

/-- A command written to CMD by the host of an idle core is accepted, and the step after that is its meaning
(10_state.md R41, 30_encoding.md R113, R119). That execution is one step of its own is the model's choice: logs 3, 14.
-/
def Obligations.IssuedCommandRuns : Prop :=
  ∀ (s : State) (i : Instr), s.busy = false → s.inputs = expandOp s.platform.mmioBase (.cmd i) →
    step s = .next ((taken s []).accept (encode i)) ∧
    step ((taken s []).accept (encode i)) = exec i ((taken s []).accept (encode i))

/-- Acceptance (30_encoding.md R113): LASTCMD, BUSY, DONE and ERR in one step; irq falls; while busy it is not accepted. -/
def Obligations.CommandIsAccepted : Prop :=
  ∀ (s : State) (v : Word) (rest : List Event), hostWrites s 0x00C v rest →
    (s.busy = false →
      step s = .next
        { taken s rest with
          lastcmd := v, busy := true, done := false, err := 0, job := some ⟨v, 0, 0, .start⟩, dirty := [] } ∧
      ((taken s rest).accept v).irq = false) ∧
    (s.busy = true → step s = .next { taken s rest with ovr := true })

/-! ## Results of the commands -/

/-- NOP changes nothing but STATUS (43_driver.md R200). -/
def Obligations.NopOnlyCompletes : Prop := ∀ s : State, exec .nop s = .next (ended s 0)

/-- CLRACC sets every word of ACC to 0 and changes no other register (42_adders.md R184). -/
def Obligations.ClraccClearsAccumulator : Prop :=
  ∀ s : State, exec .clracc s = .next (ended { s with acc := ⟨0, 0, 0, 0, 0, 0, 0, 0⟩ } 0)

/-- ADD32: XB is the lane-wise sum modulo 2^32 of KB and MB (42_adders.md R180, R182). -/
def Obligations.Add32CombinesBlocks : Prop :=
  ∀ s : State, ∃ x, exec .add32 s = .next (ended { s with xb := x } 0) ∧ isSum32 s.kb s.mb x

/-- ACC64: ACC is the lane-wise sum modulo 2^64 of ACC and ZB (42_adders.md R181, R183). -/
def Obligations.Acc64Accumulates : Prop :=
  ∀ s : State, ∃ a, exec .acc64 s = .next (ended { s with acc := a } 0) ∧ isSum64 s.acc s.zb a

/-- MIX: ZB is F-128 of XB (41_mixer.md R160, R161, R163, R165). -/
def Obligations.MixAppliesF128 : Prop :=
  ∀ s : State, ∃ z, exec .mix s = .next (ended { s with zb := z } 0) ∧ isMix s.xb z

/-- LDK and LDK+ (40_codec.md R143): RANGE, BUS, and the block parsed where no race disturbs it. Where errors occur and
how races are counted is the model's choice: logs 5, 8. -/
def Obligations.LoadKeyBlock : Prop :=
  ∀ (i : Instr) (s : State), i = .ldk ∨ i = .ldkInc →
    (0xFFFFFFE0 < s.kptr.toNat → exec i s = .next (ended s 5)) ∧
    (ordinary s ⟨s.kptr.toNat, 32⟩ → ¬readsWell s ⟨s.kptr.toNat, 32⟩ →
      ∃ kb f, exec i s = .next (ended { s with kb := kb, free := f } 6)) ∧
    (ordinary s ⟨s.kptr.toNat, 32⟩ → readsWell s ⟨s.kptr.toNat, 32⟩ → quiet s ⟨s.kptr.toNat, 32⟩ →
      ∃ kb, exec i s =
          .next (ended { s with kb := kb, kptr := if i = .ldkInc then s.kptr + 32 else s.kptr } 0) ∧
        isBlock kb s.mem s.kptr.toNat)

/-- LDM and LDM+ (40_codec.md R144): RANGE, BUS, and the block parsed where no race disturbs it. Where errors occur and
how races are counted is the model's choice: logs 5, 8. -/
def Obligations.LoadMessageBlock : Prop :=
  ∀ (i : Instr) (s : State), i = .ldm ∨ i = .ldmInc →
    (0xFFFFFFE0 < s.mptr.toNat → exec i s = .next (ended s 5)) ∧
    (ordinary s ⟨s.mptr.toNat, 32⟩ → ¬readsWell s ⟨s.mptr.toNat, 32⟩ →
      ∃ mb f, exec i s = .next (ended { s with mb := mb, free := f } 6)) ∧
    (ordinary s ⟨s.mptr.toNat, 32⟩ → readsWell s ⟨s.mptr.toNat, 32⟩ → quiet s ⟨s.mptr.toNat, 32⟩ →
      ∃ mb, exec i s =
          .next (ended { s with mb := mb, mptr := if i = .ldmInc then s.mptr + 32 else s.mptr } 0) ∧
        isBlock mb s.mem s.mptr.toNat)

/-- STD and STD+ (40_codec.md R145): RANGE, BUS with each byte that no race disturbs old or new (log 24), and the digest
written. Where errors occur and how races are counted is the model's choice: logs 5, 8. -/
def Obligations.StoreDigest : Prop :=
  ∀ (i : Instr) (s : State), i = .std ∨ i = .stdInc → Memory.wf s.mem = true →
    (0xFFFFFFC0 < s.dptr.toNat → rejected i s 5) ∧
    (ordinary s s.digestRange → ¬writesWell s s.digestRange →
      ∃ m f, exec i s = .next (ended { s with mem := m, free := f } 6) ∧ sameOutside s.mem m s.digestRange ∧
        ∀ l j : Fin 8, s.dptr.toNat + 8 * l.val + j.val ∉ s.dirty →
          Memory.read m (s.dptr.toNat + 8 * l.val + j.val)
              = Memory.read s.mem (s.dptr.toNat + 8 * l.val + j.val) ∨
            (Memory.read m (s.dptr.toNat + 8 * l.val + j.val)).toNat
              = (s.acc.get l).toNat / 256 ^ j.val % 256) ∧
    (ordinary s s.digestRange → writesWell s s.digestRange → quiet s s.digestRange →
      ∃ m, exec i s =
          .next (ended { s with mem := m, dptr := if i = .stdInc then s.dptr + 64 else s.dptr } 0) ∧
        sameOutside s.mem m s.digestRange ∧ isDigest m s.dptr.toNat s.acc)

/-- BLK and BLK+ (43_driver.md R207): RANGE, BUS, and one block parsed, combined, mixed and accumulated. Where errors
occur and how races are counted is the model's choice: logs 5, 8. -/
def Obligations.BlockStep : Prop :=
  ∀ (i : Instr) (s : State), i = .blk ∨ i = .blkInc →
    (0xFFFFFFE0 < s.kptr.toNat ∨ 0xFFFFFFE0 < s.mptr.toNat → exec i s = .next (ended s 5)) ∧
    (ordinary s ⟨s.kptr.toNat, 32⟩ → ordinary s ⟨s.mptr.toNat, 32⟩ →
      ¬(readsWell s ⟨s.kptr.toNat, 32⟩ ∧ readsWell s ⟨s.mptr.toNat, 32⟩) →
      ∃ kb mb f, exec i s = .next (ended { s with kb := kb, mb := mb, free := f } 6)) ∧
    (ordinary s ⟨s.kptr.toNat, 32⟩ → ordinary s ⟨s.mptr.toNat, 32⟩ →
      readsWell s ⟨s.kptr.toNat, 32⟩ → readsWell s ⟨s.mptr.toNat, 32⟩ →
      quiet s ⟨s.kptr.toNat, 32⟩ → quiet s ⟨s.mptr.toNat, 32⟩ →
      ∃ kb mb xb zb acc, exec i s =
          .next (ended
            { s with
              kb := kb, mb := mb, xb := xb, zb := zb, acc := acc
              kptr := if i = .blkInc then s.kptr + 32 else s.kptr
              mptr := if i = .blkInc then s.mptr + 32 else s.mptr } 0) ∧
        isBlock kb s.mem s.kptr.toNat ∧ isBlock mb s.mem s.mptr.toNat ∧ isSum32 kb mb xb ∧ isMix xb zb ∧
        isSum64 s.acc zb acc)

/-- The checks of RUN, in their order; a failed one leaves everything but STATUS (43_driver.md R201). That digest bytes
another agent wrote in the busy period are any value even then is R91's letter: log 8. -/
def Obligations.RunChecksInOrder : Prop :=
  ∀ s : State,
    (s.mlen.toNat = 0 → rejected .run s 1) ∧
    (s.mlen.toNat ≠ 0 → s.klen.toNat ≠ s.mlen.toNat → rejected .run s 2) ∧
    (s.mlen.toNat ≠ 0 → s.klen.toNat = s.mlen.toNat → s.mlen.toNat % 32 ≠ 0 → rejected .run s 3) ∧
    (s.mlen.toNat ≠ 0 → s.klen.toNat = s.mlen.toNat → s.mlen.toNat % 32 = 0 →
      (s.kptr.toNat + s.mlen.toNat > 2 ^ 32 ∨ s.mptr.toNat + s.mlen.toNat > 2 ^ 32 ∨ s.dptr.toNat + 64 > 2 ^ 32) →
      rejected .run s 5)

/-- The state after a successful RUN (43_driver.md R205): ACC is the sum over all blocks, KB, MB, XB and ZB are the last
block's, BCNT is the number of blocks, the digest is written, and nothing else changes. Where errors occur and how races
are counted is the model's choice: logs 5, 8. -/
def Obligations.RunComputesDigest : Prop :=
  ∀ s : State, lengthsOk s → Memory.wf s.mem = true →
    (∀ r ∈ ranges .run s, ordinary s r ∧ quiet s r) →
    readsWell s ⟨s.kptr.toNat, s.mlen.toNat⟩ → readsWell s ⟨s.mptr.toNat, s.mlen.toNat⟩ →
    writesWell s s.digestRange →
    ∃ kb mb xb zb acc m, exec .run s =
        .next (ended
          { s with
            kb := kb, mb := mb, xb := xb, zb := zb, acc := acc, mem := m
            bcnt := BitVec.ofNat 32 (s.mlen.toNat / 32) } 0) ∧
      isBlock kb s.mem (s.kptr.toNat + (s.mlen.toNat - 32)) ∧ isBlock mb s.mem (s.mptr.toNat + (s.mlen.toNat - 32)) ∧
      isSum32 kb mb xb ∧ isMix xb zb ∧
      (∀ l : Fin 8, (acc.get l).toNat =
        (∑ k ∈ Finset.range (s.mlen.toNat / 32), ((blockMix s k).get l).toNat) % 2 ^ 64) ∧
      isDigest m s.dptr.toNat acc ∧ sameOutside s.mem m s.digestRange

/-! ## Errors -/

/-- Past the checks before it, a range that passes 0xFFFFFFFF ends the command with RANGE, with no access and no
register changed (60_exceptions.md R246). Digest bytes another agent wrote: log 8. -/
def Obligations.RangeErrorTouchesNothing : Prop :=
  ∀ (i : Instr) (s : State), (i = .run → lengthsOk s) → (∃ r ∈ ranges i s, r.base + r.len > 2 ^ 32) → rejected i s 5

/-- What a bus error leaves, and that there is none where the port cannot report one (60_exceptions.md R247). Where
errors occur and how races are counted is the model's choice: logs 5, 8; an error together with a race is log 24. -/
def Obligations.BusErrorLeavesTableState : Prop :=
  ∀ s : State, Memory.wf s.mem = true →
    (∀ i t, s.platform.busCanErr = false → exec i s = .next t → t.err ≠ 6) ∧
    (∀ i, i = .ldk ∨ i = .ldkInc → ordinary s ⟨s.kptr.toNat, 32⟩ → ¬readsWell s ⟨s.kptr.toNat, 32⟩ →
      ∃ kb f, exec i s = .next (ended { s with kb := kb, free := f } 6)) ∧
    (∀ i, i = .ldm ∨ i = .ldmInc → ordinary s ⟨s.mptr.toNat, 32⟩ → ¬readsWell s ⟨s.mptr.toNat, 32⟩ →
      ∃ mb f, exec i s = .next (ended { s with mb := mb, free := f } 6)) ∧
    (∀ i, i = .blk ∨ i = .blkInc → (∀ r ∈ ranges i s, ordinary s r) → (∃ r ∈ ranges i s, ¬readsWell s r) →
      ∃ kb mb f, exec i s = .next (ended { s with kb := kb, mb := mb, free := f } 6)) ∧
    (∀ i, i = .std ∨ i = .stdInc → ordinary s s.digestRange → ¬writesWell s s.digestRange →
      ∃ m f, exec i s = .next (ended { s with mem := m, free := f } 6) ∧ sameOutside s.mem m s.digestRange ∧
        ∀ j < 64, s.dptr.toNat + j ∉ s.dirty →
          Memory.read m (s.dptr.toNat + j) = Memory.read s.mem (s.dptr.toNat + j) ∨
            Memory.read m (s.dptr.toNat + j) = (serializeWords s.acc).getD j 0) ∧
    (lengthsOk s → (∀ r ∈ ranges .run s, ordinary s r) →
      ¬(readsWell s ⟨s.kptr.toNat, s.mlen.toNat⟩ ∧ readsWell s ⟨s.mptr.toNat, s.mlen.toNat⟩) →
      ∃ kb mb xb zb acc n m f, exec .run s = .next (ended
          { s with kb := kb, mb := mb, xb := xb, zb := zb, acc := acc, bcnt := n, mem := m, free := f } 6) ∧
        onlyRaced s m ∧ (quiet s s.digestRange → m = s.mem)) ∧
    (lengthsOk s → (∀ r ∈ ranges .run s, ordinary s r) →
      readsWell s ⟨s.kptr.toNat, s.mlen.toNat⟩ → readsWell s ⟨s.mptr.toNat, s.mlen.toNat⟩ →
      ¬writesWell s s.digestRange →
      ∃ kb mb xb zb acc m f, exec .run s = .next (ended
          { s with
            kb := kb, mb := mb, xb := xb, zb := zb, acc := acc, mem := m, free := f
            bcnt := BitVec.ofNat 32 (s.mlen.toNat / 32) } 6) ∧
        loopLeft s kb mb xb zb acc ∧ sameOutside s.mem m s.digestRange ∧
        ∀ j < 64, s.dptr.toNat + j ∉ s.dirty →
          Memory.read m (s.dptr.toNat + j) = Memory.read s.mem (s.dptr.toNat + j) ∨
            Memory.read m (s.dptr.toNat + j) = (serializeWords acc).getD j 0)

/-- A command whose ranges fit and whose checks pass is refused exactly when one of its ranges covers an address that
is no ordinary memory (20_memory.md R87). That the model refuses is log 6. -/
def Obligations.DeviceBufferIsRefused : Prop :=
  ∀ (i : Instr) (s : State), (i = .run → lengthsOk s) → (∀ r ∈ ranges i s, fits r) →
    (exec i s = .refused .sideEffectBuffer ↔ ∃ r ∈ ranges i s, ¬apart s.platform.device r)

/-- No error stops the core: every command answers a next state, but for the refusal of 20_memory.md R87
(60_exceptions.md R240). The refusal is log 6; that every access is answered is log 11. -/
def Obligations.EveryCommandEnds : Prop :=
  ∀ (i : Instr) (s : State),
    (s.platform.device = [] → ∃ t, exec i s = .next t) ∧
    (∀ f, exec i s ≠ .fault f) ∧ (∀ q, exec i s = .refused q → q = .sideEffectBuffer)

/-- Completion (60_exceptions.md R249, R250): DONE 1, BUSY 0, the sequencer idle, irq = IE, and a code of 0 to 6. -/
def Obligations.EveryEndIsACompletion : Prop :=
  ∀ (i : Instr) (s t : State), exec i s = .next t →
    t.done = true ∧ t.busy = false ∧ t.job = none ∧ t.irq = s.ie ∧ t.err.toNat ≤ 6

/-- Races (20_memory.md R91): what a command read from a range another agent wrote, and what it computed from it, is
any value; everything else is as without the race. How a race is counted is the model's choice: log 8. -/
def Obligations.RaceFreesOnlyWhatWasRead : Prop :=
  ∀ s : State,
    (∀ i, i = .ldk ∨ i = .ldkInc → ordinary s ⟨s.kptr.toNat, 32⟩ → readsWell s ⟨s.kptr.toNat, 32⟩ →
      ∃ kb f, exec i s = .next (ended
        { s with kb := kb, free := f, kptr := if i = .ldkInc then s.kptr + 32 else s.kptr } 0)) ∧
    (∀ i, i = .ldm ∨ i = .ldmInc → ordinary s ⟨s.mptr.toNat, 32⟩ → readsWell s ⟨s.mptr.toNat, 32⟩ →
      ∃ mb f, exec i s = .next (ended
        { s with mb := mb, free := f, mptr := if i = .ldmInc then s.mptr + 32 else s.mptr } 0)) ∧
    (∀ i, i = .blk ∨ i = .blkInc → (∀ r ∈ ranges i s, ordinary s r ∧ readsWell s r) →
      ∃ kb mb xb zb acc f, exec i s = .next (ended
          { s with
            kb := kb, mb := mb, xb := xb, zb := zb, acc := acc, free := f
            kptr := if i = .blkInc then s.kptr + 32 else s.kptr
            mptr := if i = .blkInc then s.mptr + 32 else s.mptr } 0) ∧
        (quiet s ⟨s.kptr.toNat, 32⟩ → isBlock kb s.mem s.kptr.toNat) ∧
        (quiet s ⟨s.mptr.toNat, 32⟩ → isBlock mb s.mem s.mptr.toNat)) ∧
    (∀ i, i = .std ∨ i = .stdInc → Memory.wf s.mem = true → ordinary s s.digestRange → writesWell s s.digestRange →
      ∃ m f, exec i s = .next (ended
          { s with mem := m, free := f, dptr := if i = .stdInc then s.dptr + 64 else s.dptr } 0) ∧
        sameOutside s.mem m s.digestRange ∧
        ∀ j < 64, s.dptr.toNat + j ∉ s.dirty →
          Memory.read m (s.dptr.toNat + j) = (serializeWords s.acc).getD j 0) ∧
    (lengthsOk s → Memory.wf s.mem = true → (∀ r ∈ ranges .run s, ordinary s r) →
      readsWell s ⟨s.kptr.toNat, s.mlen.toNat⟩ → readsWell s ⟨s.mptr.toNat, s.mlen.toNat⟩ →
      writesWell s s.digestRange →
      ∃ kb mb xb zb acc m f, exec .run s = .next (ended
          { s with
            kb := kb, mb := mb, xb := xb, zb := zb, acc := acc, mem := m, free := f
            bcnt := BitVec.ofNat 32 (s.mlen.toNat / 32) } 0) ∧
        loopLeft s kb mb xb zb acc ∧ sameOutside s.mem m s.digestRange ∧
        ∀ j < 64, s.dptr.toNat + j ∉ s.dirty → Memory.read m (s.dptr.toNat + j) = (serializeWords acc).getD j 0)

/-- What RUN writes while the busy period lasts (20_memory.md R89, R91): after the last block it issues the 64 byte writes, with
every word of ACC a free draw if its input was raced; the port's answer to one of them stores that byte of ACC and changes
no other byte, and ACC is drawn anew if the input is raced and another agent has written since it was settled last. That
the results are free from the race on, and not before it, is the model's choice: log 8; the phases are log 9. -/
def Obligations.RacedRunWritesFreeBytes : Prop :=
  ∀ (s : State) (j : Job) (rest : List Event), s.inv = true → s.job = some j → decode j.word = .command .run →
    (∀ key msg, j.phase = .read key msg → j.k + 1 = j.n → j.blockThere .run key msg = true → s.inputs = .tick :: rest →
      ∃ t, step s = .next t ∧ t.mem = s.mem ∧ t.dirty = s.dirty ∧
        t.job = some { j with phase := .write (List.range 64) s.dirty.length } ∧ (inputRaced s → accFree t)) ∧
    (∀ left seen o, j.phase = .write left seen → o ∈ left → s.inputs = .answer (.digest o) :: rest →
      writesWell s s.digestRange →
      ∃ t, step s = .next t ∧ t.dirty = s.dirty ∧
        t.job = some { j with phase := .write (left.erase o) s.dirty.length } ∧
        Memory.read t.mem (s.dptr.toNat + o) = (serializeWords t.acc).getD o 0 ∧
        (∀ a, a ≠ s.dptr.toNat + o → Memory.read t.mem a = Memory.read s.mem a) ∧
        (seen = s.dirty.length ∨ ¬inputRaced s → t.acc = s.acc) ∧
        (seen ≠ s.dirty.length → inputRaced s → accFree t))

/-! ## Frames -/

/-- The operand table (30_encoding.md R116): what no command, or no other command, writes; and that a pointer moves only on
success (R115). -/
def Obligations.CommandsWriteOnlyTheirOperands : Prop :=
  ∀ (i : Instr) (s t : State), exec i s = .next t →
    (t.klen = s.klen ∧ t.mlen = s.mlen ∧ t.lastcmd = s.lastcmd ∧ t.ie = s.ie ∧ t.ovr = s.ovr ∧
      t.platform = s.platform ∧ t.inputs = s.inputs ∧ t.rdata = s.rdata) ∧
    (i ∉ [Instr.ldkInc, .blkInc] → t.kptr = s.kptr) ∧
    (i ∉ [Instr.ldmInc, .blkInc] → t.mptr = s.mptr) ∧
    (i ∉ [Instr.stdInc] → t.dptr = s.dptr) ∧
    (i ∉ [Instr.ldk, .ldkInc, .blk, .blkInc, .run] → t.kb = s.kb) ∧
    (i ∉ [Instr.ldm, .ldmInc, .blk, .blkInc, .run] → t.mb = s.mb) ∧
    (i ∉ [Instr.add32, .blk, .blkInc, .run] → t.xb = s.xb) ∧
    (i ∉ [Instr.mix, .blk, .blkInc, .run] → t.zb = s.zb) ∧
    (i ∉ [Instr.clracc, .acc64, .blk, .blkInc, .run] → t.acc = s.acc) ∧
    (i ∉ [Instr.run] → t.bcnt = s.bcnt) ∧
    (t.err ≠ 0 → t.kptr = s.kptr ∧ t.mptr = s.mptr ∧ t.dptr = s.dptr)

/-- No command writes memory but STD, STD+ and RUN, they write nothing outside the 64 bytes at DPTR, and nothing of their own
when a check fails (20_memory.md R82). That digest bytes another agent wrote in the busy period are any value even then
(R91) is the model's choice: log 8. -/
def Obligations.OnlyTheDigestIsWritten : Prop :=
  ∀ (i : Instr) (s t : State), exec i s = .next t →
    (i ∉ [Instr.std, .stdInc, .run] → t.mem = s.mem) ∧
    (i ∈ [Instr.std, .stdInc, .run] → ∀ a, ¬inside s.digestRange a → Memory.read t.mem a = Memory.read s.mem a) ∧
    (t.err ≠ 0 → t.err ≠ 6 → onlyRaced s t.mem ∧ (quiet s s.digestRange → t.mem = s.mem))

/-- NOP, CLRACC, ADD32, MIX and ACC64 access no memory: other contents and another platform change nothing of what they
do (20_memory.md R82). -/
def Obligations.RegisterCommandsReadNoMemory : Prop :=
  ∀ (i : Instr) (s t : State) (m : List Host.Cell) (p : Platform), i ∈ [Instr.nop, .clracc, .add32, .mix, .acc64] →
    exec i s = .next t → exec i { s with mem := m, platform := p } = .next { t with mem := m, platform := p }

/-- RUN is a function of the input (43_driver.md R206): where MLEN and the bytes of the key and the message agree, two
successful undisturbed runs leave the same register files, BCNT and digest, whatever else differs. -/
def Obligations.RunDependsOnlyOnItsInput : Prop :=
  ∀ s s' t t' : State, Memory.wf s.mem = true → Memory.wf s'.mem = true → s.dirty = [] → s'.dirty = [] →
    s.mlen = s'.mlen →
    (∀ j < s.mlen.toNat, Memory.read s.mem (s.kptr.toNat + j) = Memory.read s'.mem (s'.kptr.toNat + j)) →
    (∀ j < s.mlen.toNat, Memory.read s.mem (s.mptr.toNat + j) = Memory.read s'.mem (s'.mptr.toNat + j)) →
    exec .run s = .next t → exec .run s' = .next t' → t.err = 0 → t'.err = 0 →
    t.kb = t'.kb ∧ t.mb = t'.mb ∧ t.xb = t'.xb ∧ t.zb = t'.zb ∧ t.acc = t'.acc ∧ t.bcnt = t'.bcnt ∧
    ∀ j < 64, Memory.read t.mem (s.dptr.toNat + j) = Memory.read t'.mem (s'.dptr.toNat + j)

/-! ## The laws of the units -/

/-- parse_block inverts the little-endian layout of eight words and is injective on 32 bytes; serialize_words is injective
(40_codec.md R140, R141, R142). -/
def Obligations.CodecIsBijective : Prop :=
  (∀ w : Lanes Word, (blockBytes w).length = 32 ∧ parseBlock (blockBytes w) = w) ∧
  (∀ b : List Byte, b.length = 32 → blockBytes (parseBlock b) = b) ∧
  (∀ w w' : Lanes DWord, serializeWords w = serializeWords w' → w = w') ∧
  (∀ b : List Byte, b.length = 64 → ∃ w, serializeWords w = b)

/-- Parsing a half of a digest gives the low and high halves of its words, in that order (40_codec.md R142 (d)). -/
def Obligations.DigestHalvesParse : Prop :=
  ∀ w : Lanes DWord,
    parseBlock ((serializeWords w).take 32) =
      ⟨lowHalf w.w0, highHalf w.w0, lowHalf w.w1, highHalf w.w1, lowHalf w.w2, highHalf w.w2, lowHalf w.w3,
        highHalf w.w3⟩ ∧
    parseBlock ((serializeWords w).drop 32) =
      ⟨lowHalf w.w4, highHalf w.w4, lowHalf w.w5, highHalf w.w5, lowHalf w.w6, highHalf w.w6, lowHalf w.w7,
        highHalf w.w7⟩

/-- Which words an output of F-128 does not depend on (41_mixer.md R164 (b), (c)). -/
def Obligations.MixerOutputsDependAsLaidOut : Prop :=
  ∀ (x : Lanes Word) (j l : Fin 8) (v : Word), l.val < 4 →
    (j.val ≠ l.val → j.val ≠ l.val + 4 → (f128 (x.set j v)).get l = (f128 x).get l) ∧
    (j.val = (l.val + 3) % 4 ∨ j.val = 4 + l.val →
      (f128 (x.set j v)).get (Fin.ofNat 8 (4 + l.val)) = (f128 x).get (Fin.ofNat 8 (4 + l.val)))

/-- Accumulating the same deltas in any order gives the same result (42_adders.md R185). -/
def Obligations.AccumulationOrderIsIrrelevant : Prop :=
  ∀ (ds es : List (Lanes DWord)) (a : Lanes DWord), ds.Perm es → ds.foldl accumulate a = es.foldl accumulate a

/-- The longest input RUN accepts (43_driver.md R209): a RUN that succeeds has passed no more than 0xFFFFFFE0 bytes, whose
ranges lie below 2^32, and an input of that length succeeds. -/
def Obligations.RunLengthIsBounded : Prop :=
  (∀ s t : State, exec .run s = .next t → t.err = 0 →
    s.mlen.toNat ≤ 0xFFFFFFE0 ∧ t.bcnt.toNat = s.mlen.toNat / 32 ∧ t.bcnt.toNat ≤ 134217727 ∧
      s.kptr.toNat + s.mlen.toNat ≤ 2 ^ 32 ∧ s.mptr.toNat + s.mlen.toNat ≤ 2 ^ 32) ∧
  (∀ s : State, s.klen = 0xFFFFFFE0 → s.mlen = 0xFFFFFFE0 → s.kptr = 0 → s.mptr = 0 → s.dptr.toNat ≤ 0xFFFFFFC0 →
    s.platform.device = [] → s.platform.busCanErr = false →
    ∃ t, exec .run s = .next t ∧ t.err = 0 ∧ t.bcnt.toNat = 134217727)

/-- The host-driven sequence CLRACC, n times BLK+, STD leaves what RUN leaves, but for the pointers and BCNT, which RUN
leaves at their old values and at n (43_driver.md R208). -/
def Obligations.HostDrivenEqualsRun : Prop :=
  ∀ s : State, lengthsOk s → (∀ r ∈ ranges .run s, ordinary s r ∧ quiet s r) →
    readsWell s ⟨s.kptr.toNat, s.mlen.toNat⟩ → readsWell s ⟨s.mptr.toNat, s.mlen.toNat⟩ →
    writesWell s s.digestRange →
    ∃ t, exec .run s = .next t ∧ t.err = 0 ∧ t.kptr = s.kptr ∧ t.mptr = s.mptr ∧
      t.bcnt = BitVec.ofNat 32 (s.mlen.toNat / 32) ∧
      andThen (blocksDriven (s.mlen.toNat / 32) (exec .clracc s)) .std =
        .next { t with kptr := s.kptr + s.mlen, mptr := s.mptr + s.mlen, bcnt := s.bcnt }

/-! ## The register port -/

/-- The register map (10_state.md R31, R54, R55): the register at every offset, and the reserved offsets. -/
def Obligations.WindowMap : Prop :=
  regAt 0x000 = some .id ∧ regAt 0x004 = some .ctrl ∧ regAt 0x008 = some .status ∧ regAt 0x00C = some .cmd ∧
  regAt 0x010 = some .kptr ∧ regAt 0x014 = some .mptr ∧ regAt 0x018 = some .dptr ∧ regAt 0x01C = some .klen ∧
  regAt 0x020 = some .mlen ∧ regAt 0x024 = some .bcnt ∧
  (∀ i : Fin 8, regAt (0x040 + 4 * i.val) = some (.kb i) ∧ regAt (0x060 + 4 * i.val) = some (.mb i) ∧
    regAt (0x080 + 4 * i.val) = some (.xb i) ∧ regAt (0x0C0 + 8 * i.val) = some (.zblo i) ∧
    regAt (0x0C4 + 8 * i.val) = some (.zbhi i) ∧ regAt (0x100 + 8 * i.val) = some (.acclo i) ∧
    regAt (0x104 + 8 * i.val) = some (.acchi i)) ∧
  (∀ k : Fin 128, regAt (4 * k.val) = none ↔
    (0x028 ≤ 4 * k.val ∧ 4 * k.val ≤ 0x03C) ∨ (0x0A0 ≤ 4 * k.val ∧ 4 * k.val ≤ 0x0BC) ∨ 0x140 ≤ 4 * k.val)

/-- ID always reads 0x4D4D0128, and a write to it has no effect, even in a busy period (10_state.md R32). -/
def Obligations.IdIsHardWired : Prop :=
  ∀ (s : State) (rest : List Event),
    (hostReads s 0x000 rest → step s = .next { taken s rest with rdata := some 0x4D4D0128 }) ∧
    (∀ v, hostWrites s 0x000 v rest → step s = .next (taken s rest))

/-- CTRL (10_state.md R33): the soft reset with bit 1, otherwise IE <- bit 0; it reads as IE; busy or not. -/
def Obligations.CtrlPort : Prop :=
  ∀ (s : State) (rest : List Event),
    (∀ v, hostWrites s 0x004 v rest →
      step s = .next (if v.getLsbD 1 then resetCore (taken s rest) else { taken s rest with ie := v.getLsbD 0 })) ∧
    (hostReads s 0x004 rest →
      step s = .next { taken s rest with rdata := some (BitVec.ofNat 32 s.ie.toNat) })

/-- STATUS (10_state.md R36): the word it reads as, and write 1 to clear for DONE and OVR alone; busy or not. -/
def Obligations.StatusPort : Prop :=
  ∀ (s : State) (rest : List Event),
    (∀ v, hostWrites s 0x008 v rest →
      step s = .next { taken s rest with
        done := if v.getLsbD 1 then false else s.done, ovr := if v.getLsbD 2 then false else s.ovr }) ∧
    (hostReads s 0x008 rest →
      ∃ w, step s = .next { taken s rest with rdata := some w } ∧
        w.toNat = 256 * s.err.toNat + 4 * s.ovr.toNat + 2 * s.done.toNat + s.busy.toNat)

/-- A host read of an idle core (10_state.md R31, R42 to R55): every register answers what it holds, a reserved offset 0, and
nothing changes. -/
def Obligations.IdleReadsAreExact : Prop :=
  ∀ (s : State) (rest : List Event), s.busy = false →
    (∀ off, off < 0x200 → off % 4 = 0 → hostReads s off rest →
      step s = .next { taken s rest with rdata := some (((regAt off).map s.readReg).getD 0) }) ∧
    (∀ p ∈ [(0x00C, s.lastcmd), (0x010, s.kptr), (0x014, s.mptr), (0x018, s.dptr), (0x01C, s.klen), (0x020, s.mlen),
        (0x024, s.bcnt)],
      hostReads s p.1 rest → step s = .next { taken s rest with rdata := some p.2 }) ∧
    (∀ i : Fin 8,
      (hostReads s (0x040 + 4 * i.val) rest → step s = .next { taken s rest with rdata := some (s.kb.get i) }) ∧
      (hostReads s (0x060 + 4 * i.val) rest → step s = .next { taken s rest with rdata := some (s.mb.get i) }) ∧
      (hostReads s (0x080 + 4 * i.val) rest → step s = .next { taken s rest with rdata := some (s.xb.get i) }))

/-- A write to a register that holds what is written is read back, and leaves every other register and memory
(10_state.md R31, R43 to R54); a write to BCNT or a reserved offset has no effect while idle (R48, R55). -/
def Obligations.IdleWriteIsReadBack : Prop :=
  ∀ (s : State) (r : Reg) (v : Word) (rest : List Event), s.busy = false →
    (r ∉ [Reg.id, .ctrl, .status, .cmd, .bcnt] → hostWrites s r.offset v rest →
      ∃ t, step s = .next t ∧ t.readReg r = v ∧ (∀ r', r' ≠ r → t.readReg r' = s.readReg r') ∧
        t.mem = s.mem ∧ t.job = s.job ∧ t.platform = s.platform ∧ t.inputs = rest ∧ t.rdata = s.rdata ∧
        t.dirty = s.dirty ∧ t.free = s.free) ∧
    (hostWrites s 0x024 v rest → step s = .next (taken s rest)) ∧
    (∀ off, off < 0x200 → off % 4 = 0 → regAt off = none → hostWrites s off v rest → step s = .next (taken s rest))

/-- A 64-bit register on the 32-bit port (10_state.md R54), as numbers: each half is read at its offset, and written
without the other. -/
def Obligations.WideRegistersHaveTwoHalves : Prop :=
  ∀ (s : State) (i : Fin 8) (v : Word) (rest : List Event), s.busy = false →
    (hostReads s (0x0C0 + 8 * i.val) rest →
      ∃ w, step s = .next { taken s rest with rdata := some w } ∧ w.toNat = (s.zb.get i).toNat % 2 ^ 32) ∧
    (hostReads s (0x0C4 + 8 * i.val) rest →
      ∃ w, step s = .next { taken s rest with rdata := some w } ∧ w.toNat = (s.zb.get i).toNat / 2 ^ 32) ∧
    (hostReads s (0x100 + 8 * i.val) rest →
      ∃ w, step s = .next { taken s rest with rdata := some w } ∧ w.toNat = (s.acc.get i).toNat % 2 ^ 32) ∧
    (hostReads s (0x104 + 8 * i.val) rest →
      ∃ w, step s = .next { taken s rest with rdata := some w } ∧ w.toNat = (s.acc.get i).toNat / 2 ^ 32) ∧
    (hostWrites s (0x0C0 + 8 * i.val) v rest →
      ∃ x, step s = .next { taken s rest with zb := s.zb.set i x } ∧
        x.toNat = (s.zb.get i).toNat / 2 ^ 32 * 2 ^ 32 + v.toNat) ∧
    (hostWrites s (0x0C4 + 8 * i.val) v rest →
      ∃ x, step s = .next { taken s rest with zb := s.zb.set i x } ∧
        x.toNat = v.toNat * 2 ^ 32 + (s.zb.get i).toNat % 2 ^ 32) ∧
    (hostWrites s (0x100 + 8 * i.val) v rest →
      ∃ x, step s = .next { taken s rest with acc := s.acc.set i x } ∧
        x.toNat = (s.acc.get i).toNat / 2 ^ 32 * 2 ^ 32 + v.toNat) ∧
    (hostWrites s (0x104 + 8 * i.val) v rest →
      ∃ x, step s = .next { taken s rest with acc := s.acc.set i x } ∧
        x.toNat = v.toNat * 2 ^ 32 + (s.acc.get i).toNat % 2 ^ 32)

/-- A host write in a busy period acts on CTRL and STATUS, is ignored by ID, and otherwise only sets OVR (10_state.md R57). -/
def Obligations.BusyWriteIsLost : Prop :=
  ∀ (s : State) (off : Nat) (v : Word) (rest : List Event), s.busy = true → off < 0x200 → off % 4 = 0 →
    hostWrites s off v rest →
    step s = .next
      (if off = 0x000 then taken s rest
       else if off = 0x004 then
         (if v.getLsbD 1 then resetCore (taken s rest) else { taken s rest with ie := v.getLsbD 0 })
       else if off = 0x008 then
         { taken s rest with
           done := if v.getLsbD 1 then false else s.done, ovr := if v.getLsbD 2 then false else s.ovr }
       else { taken s rest with ovr := true })

/-- Reads in a busy period (10_state.md R58): exact for the control registers, 0 at a reserved offset, any value for BCNT and
the data registers; nothing else changes. -/
def Obligations.BusyReads : Prop :=
  ∀ (s : State) (rest : List Event), s.busy = true →
    (hostReads s 0x000 rest → step s = .next { taken s rest with rdata := some 0x4D4D0128 }) ∧
    (hostReads s 0x004 rest → step s = .next { taken s rest with rdata := some (BitVec.ofNat 32 s.ie.toNat) }) ∧
    (hostReads s 0x008 rest →
      ∃ w, step s = .next { taken s rest with rdata := some w } ∧
        w.toNat = 256 * s.err.toNat + 4 * s.ovr.toNat + 2 * s.done.toNat + 1) ∧
    (hostReads s 0x00C rest → step s = .next { taken s rest with rdata := some s.lastcmd }) ∧
    (hostReads s 0x010 rest → step s = .next { taken s rest with rdata := some s.kptr }) ∧
    (hostReads s 0x014 rest → step s = .next { taken s rest with rdata := some s.mptr }) ∧
    (hostReads s 0x018 rest → step s = .next { taken s rest with rdata := some s.dptr }) ∧
    (hostReads s 0x01C rest → step s = .next { taken s rest with rdata := some s.klen }) ∧
    (hostReads s 0x020 rest → step s = .next { taken s rest with rdata := some s.mlen }) ∧
    (∀ off, off < 0x200 → off % 4 = 0 →
      (0x028 ≤ off ∧ off < 0x040) ∨ (0x0A0 ≤ off ∧ off < 0x0C0) ∨ 0x140 ≤ off → hostReads s off rest →
      step s = .next { taken s rest with rdata := some 0 }) ∧
    (∀ off, off % 4 = 0 →
      off = 0x024 ∨ (0x040 ≤ off ∧ off < 0x0A0) ∨ (0x0C0 ≤ off ∧ off < 0x140) → hostReads s off rest →
      ∃ w f, step s = .next { taken s rest with rdata := some w, free := f })

/-- An access of another size or alignment (10_state.md R56): a write has no effect and does not set OVR, a read returns any
value and changes nothing. -/
def Obligations.UnsupportedAccessHasNoEffect : Prop :=
  ∀ (s : State) (off size : Nat) (v : Word) (rest : List Event), off < 0x200 → size ≠ 4 ∨ off % 4 ≠ 0 →
    (s.inputs = .hostWrite (s.platform.mmioBase + off) size v :: rest → step s = .next (taken s rest)) ∧
    (s.inputs = .hostRead (s.platform.mmioBase + off) size :: rest →
      ∃ w f, step s = .next { taken s rest with rdata := some w, free := f })

/-! ## Other agents -/

/-- A store of another agent (20_memory.md R80, R91): exactly the named byte of memory changes; in a busy period its address
counts as raced, outside one nothing does (how races are counted is the model's choice: log 8). -/
def Obligations.OtherStoresChangeOneByte : Prop :=
  ∀ (s : State) (a : Word) (b : Byte) (rest : List Event), Memory.wf s.mem = true →
    s.inputs = .memWrite a b :: rest →
    ∃ m d, step s = .next { taken s rest with mem := m, dirty := d } ∧ Memory.read m a.toNat = b ∧
      (∀ x, x ≠ a.toNat → Memory.read m x = Memory.read s.mem x) ∧
      (s.busy = false → d = s.dirty) ∧ (s.busy = true → ∀ x, x ∈ d ↔ x = a.toNat ∨ x ∈ s.dirty)

/-! ## The status protocol -/

/-- STATUS.OVR is sticky (10_state.md R39): only an ignored host write sets it, and only a write of 1 to STATUS bit 2 or a
reset clears it. -/
def Obligations.OvrIsSticky : Prop :=
  ∀ s t : State, step s = .next t →
    (s.ovr = false → t.ovr = true →
      s.busy = true ∧ ∃ off v rest, hostWrites s off v rest ∧ off < 0x200 ∧ off ∉ [0x000, 0x004, 0x008]) ∧
    (s.ovr = true → t.ovr = false →
      ∃ rest, resetNext s rest ∨ ∃ v : Word, v.getLsbD 2 = true ∧ hostWrites s 0x008 v rest)

/-- BUSY (10_state.md R37): from an invariant state it rises only by the acceptance of a command, and falls only by
completion, which sets DONE, or by a reset. The invariant ties the sequencer to BUSY: log 17. -/
def Obligations.BusyChangesByAcceptanceCompletionReset : Prop :=
  ∀ s t : State, s.inv = true → step s = .next t →
    (s.busy = false → t.busy = true → ∃ v rest, hostWrites s 0x00C v rest ∧ t.lastcmd = v) ∧
    (s.busy = true → t.busy = false → t.done = true ∨ ∃ rest, resetNext s rest)

/-- The interrupt output (60_exceptions.md R251): it falls only when the host clears DONE or IE, when a command is accepted,
and on reset, and each of these lowers it. -/
def Obligations.IrqFallsOnlyAsListed : Prop :=
  ∀ s t : State, step s = .next t → s.irq = true →
    (t.irq = false ↔
      ∃ rest, resetNext s rest ∨ (∃ v : Word, v.getLsbD 1 = true ∧ hostWrites s 0x008 v rest) ∨
        (∃ v : Word, v.getLsbD 0 = false ∧ hostWrites s 0x004 v rest) ∨
        (s.busy = false ∧ ∃ v, hostWrites s 0x00C v rest))

/-! ## Reset -/

/-- After a hard or soft reset, and in State.reset, every register reads its reset value, the sequencer is idle and irq is
0 (10_state.md R63). -/
def Obligations.ResetClearsEveryRegister : Prop :=
  ∀ (s : State) (rest : List Event), resetNext s rest →
    ∃ t, step s = .next t ∧
      ∀ u, u = t ∨ u = State.reset →
        (∀ r : Reg, u.readReg r = if r = .id then 0x4D4D0128 else 0) ∧ u.job = none ∧ u.irq = false

/-- A reset in a busy period (70_reset_and_hazards.md R281, R282): no byte outside the digest range changes; while the digest
write is open each byte of it that no other agent wrote is old or new (when the model lets the write be open is its choice,
log 10; races are log 8); before that no byte changes but a raced one; the platform and the later inputs stay. -/
def Obligations.ResetKeepsMemoryButTheOpenWrite : Prop :=
  ∀ (s : State) (rest : List Event), s.inv = true → resetNext s rest →
    ∃ t, step s = .next t ∧ t.platform = s.platform ∧ t.inputs = rest ∧
      sameOutside s.mem t.mem s.digestRange ∧
      ((∀ j, s.job = some j → ∀ left seen, j.phase ≠ .write left seen) →
        onlyRaced s t.mem ∧ (quiet s s.digestRange → t.mem = s.mem)) ∧
      ((s.lastcmd = encode .run → quiet s ⟨s.kptr.toNat, s.mlen.toNat⟩ ∧ quiet s ⟨s.mptr.toNat, s.mlen.toNat⟩) →
        ∀ j < 64, s.dptr.toNat + j ∉ s.dirty →
          Memory.read t.mem (s.dptr.toNat + j) = Memory.read s.mem (s.dptr.toNat + j) ∨
            Memory.read t.mem (s.dptr.toNat + j) = (serializeWords s.acc).getD j 0)

/-! ## Invariants and refinement -/

/-- Every step keeps the invariant: memory canonical, ERR a code of 0 to 6, BUSY exactly while a command is in flight,
and the hidden sequencer state that of its command (10_state.md R37, R40, R60). The phases are the model's choice: log
9. -/
def Obligations.StepKeepsInvariant : Prop := ∀ s t : State, s.inv = true → step s = .next t → t.inv = true

/-- The state after reset meets the invariant. -/
def Obligations.ResetMeetsInvariant : Prop := State.reset.inv = true

/-- From an invariant state no step stops the core, but for the refusal of 20_memory.md R87 (60_exceptions.md R240). The
refusal is log 6; the fault this excludes, a sequencer state no run reaches, is log 15. -/
def Obligations.NoStepStopsTheCore : Prop :=
  ∀ s : State, s.inv = true →
    (∀ f, step s ≠ .fault f) ∧ (∀ q, step s = .refused q → q = .sideEffectBuffer ∧ s.platform.device ≠ [])

/-- The sequencer's own steps and the memory port's answers refine the meaning: every end the meaning gives is reached by
some of them, and a refusal by the first (10_state.md R60, 20_memory.md R86). Memory in canonical form is part of the
invariant. What is one step is the model's choice: log 9. -/
def Obligations.SequencerStepsReachTheMeaning : Prop :=
  ∀ (s : State) (c : Word) (i : Instr), Memory.wf s.mem = true → s.job = some ⟨c, 0, 0, .start⟩ →
    decode c = .command i →
    (∀ t, exec i s = .next t → ∃ es, (∀ e ∈ es, own e) ∧ runEvents es s = .next t) ∧
    (∀ q, exec i s = .refused q → runEvents [.tick] s = .refused q)

/-- In whatever order the memory port answers the reads of a command, and then its writes, it ends as its meaning says
(20_memory.md R86, 43_driver.md R203), where nothing else comes between and no write meets an error. What is one step is
the model's choice: log 9. -/
def Obligations.OrderOfAccessesIsIrrelevant : Prop :=
  ∀ (s u : State) (c : Word) (i : Instr) (es : List Event), Memory.wf s.mem = true →
    s.job = some ⟨c, 0, 0, .start⟩ → decode c = .command i →
    (i ∈ [Instr.std, .stdInc, .run] → writesWell s s.digestRange) →
    (∀ e ∈ es, own e) → runEvents es s = .next u → u.job = none → exec i s = .next u

/-- Every access the sequencer has issued is to an address of a range of its command below 2^32; after the first write is
issued no read is open (20_memory.md R82, R88, R89). Accesses are the model's single bytes: log 9. -/
def Obligations.IssuedAccessIsInRange : Prop :=
  ∀ (s : State) (j : Job) (i : Instr) (a : Access), s.inv = true → s.job = some j → decode j.word = .command i →
    j.issued i a = true →
    addressOf s a < 2 ^ 32 ∧ (∃ q ∈ ranges i s, inside q (addressOf s a)) ∧
    ((∃ o, a = .digest o) → ∀ o, j.issued i (.key o) = false ∧ j.issued i (.msg o) = false)
end

