-- ==== Sys2Proof/Laws/State.lean ====
section
/-!
SUPPORT. The small lemmas of the state: what each named update leaves in each field. Every later proof reads a field of
an updated state through these and unfolds no update.
-/

namespace Sys2Proof

/-! ### The constants as numbers -/

@[simp] theorem Config.blockBytes_eq : Config.blockBytes = 32 := rfl

@[simp] theorem Config.digestBytes_eq : Config.digestBytes = 64 := rfl

@[simp] theorem Config.memoryBytes_eq : Config.memoryBytes = 4294967296 := rfl

@[simp] theorem Config.windowBytes_eq : Config.windowBytes = 512 := rfl

namespace Machine

/-! ### Acceptance (30_encoding.md R113) -/

@[simp] theorem State.accept_ie (s : State) (c : Word) : (s.accept c).ie = s.ie := rfl
@[simp] theorem State.accept_busy (s : State) (c : Word) : (s.accept c).busy = true := rfl
@[simp] theorem State.accept_done (s : State) (c : Word) : (s.accept c).done = false := rfl
@[simp] theorem State.accept_ovr (s : State) (c : Word) : (s.accept c).ovr = s.ovr := rfl
@[simp] theorem State.accept_err (s : State) (c : Word) : (s.accept c).err = 0 := rfl
@[simp] theorem State.accept_lastcmd (s : State) (c : Word) : (s.accept c).lastcmd = c := rfl
@[simp] theorem State.accept_kptr (s : State) (c : Word) : (s.accept c).kptr = s.kptr := rfl
@[simp] theorem State.accept_mptr (s : State) (c : Word) : (s.accept c).mptr = s.mptr := rfl
@[simp] theorem State.accept_dptr (s : State) (c : Word) : (s.accept c).dptr = s.dptr := rfl
@[simp] theorem State.accept_klen (s : State) (c : Word) : (s.accept c).klen = s.klen := rfl
@[simp] theorem State.accept_mlen (s : State) (c : Word) : (s.accept c).mlen = s.mlen := rfl
@[simp] theorem State.accept_bcnt (s : State) (c : Word) : (s.accept c).bcnt = s.bcnt := rfl
@[simp] theorem State.accept_kb (s : State) (c : Word) : (s.accept c).kb = s.kb := rfl
@[simp] theorem State.accept_mb (s : State) (c : Word) : (s.accept c).mb = s.mb := rfl
@[simp] theorem State.accept_xb (s : State) (c : Word) : (s.accept c).xb = s.xb := rfl
@[simp] theorem State.accept_zb (s : State) (c : Word) : (s.accept c).zb = s.zb := rfl
@[simp] theorem State.accept_acc (s : State) (c : Word) : (s.accept c).acc = s.acc := rfl
@[simp] theorem State.accept_job (s : State) (c : Word) : (s.accept c).job = some ⟨c, 0, 0, .start⟩ := rfl
@[simp] theorem State.accept_mem (s : State) (c : Word) : (s.accept c).mem = s.mem := rfl
@[simp] theorem State.accept_platform (s : State) (c : Word) : (s.accept c).platform = s.platform := rfl
@[simp] theorem State.accept_inputs (s : State) (c : Word) : (s.accept c).inputs = s.inputs := rfl
@[simp] theorem State.accept_rdata (s : State) (c : Word) : (s.accept c).rdata = s.rdata := rfl
@[simp] theorem State.accept_dirty (s : State) (c : Word) : (s.accept c).dirty = [] := rfl
@[simp] theorem State.accept_free (s : State) (c : Word) : (s.accept c).free = s.free := rfl

/-! ### Completion (60_exceptions.md R249) -/

@[simp] theorem State.complete_ie (s : State) (e : ErrCode) : (s.complete e).ie = s.ie := rfl
@[simp] theorem State.complete_busy (s : State) (e : ErrCode) : (s.complete e).busy = false := rfl
@[simp] theorem State.complete_done (s : State) (e : ErrCode) : (s.complete e).done = true := rfl
@[simp] theorem State.complete_ovr (s : State) (e : ErrCode) : (s.complete e).ovr = s.ovr := rfl
@[simp] theorem State.complete_err (s : State) (e : ErrCode) : (s.complete e).err = e.code := rfl
@[simp] theorem State.complete_lastcmd (s : State) (e : ErrCode) : (s.complete e).lastcmd = s.lastcmd := rfl
@[simp] theorem State.complete_kptr (s : State) (e : ErrCode) : (s.complete e).kptr = s.kptr := rfl
@[simp] theorem State.complete_mptr (s : State) (e : ErrCode) : (s.complete e).mptr = s.mptr := rfl
@[simp] theorem State.complete_dptr (s : State) (e : ErrCode) : (s.complete e).dptr = s.dptr := rfl
@[simp] theorem State.complete_klen (s : State) (e : ErrCode) : (s.complete e).klen = s.klen := rfl
@[simp] theorem State.complete_mlen (s : State) (e : ErrCode) : (s.complete e).mlen = s.mlen := rfl
@[simp] theorem State.complete_bcnt (s : State) (e : ErrCode) : (s.complete e).bcnt = s.bcnt := rfl
@[simp] theorem State.complete_kb (s : State) (e : ErrCode) : (s.complete e).kb = s.kb := rfl
@[simp] theorem State.complete_mb (s : State) (e : ErrCode) : (s.complete e).mb = s.mb := rfl
@[simp] theorem State.complete_xb (s : State) (e : ErrCode) : (s.complete e).xb = s.xb := rfl
@[simp] theorem State.complete_zb (s : State) (e : ErrCode) : (s.complete e).zb = s.zb := rfl
@[simp] theorem State.complete_acc (s : State) (e : ErrCode) : (s.complete e).acc = s.acc := rfl
@[simp] theorem State.complete_job (s : State) (e : ErrCode) : (s.complete e).job = none := rfl
@[simp] theorem State.complete_mem (s : State) (e : ErrCode) : (s.complete e).mem = s.mem := rfl
@[simp] theorem State.complete_platform (s : State) (e : ErrCode) : (s.complete e).platform = s.platform := rfl
@[simp] theorem State.complete_inputs (s : State) (e : ErrCode) : (s.complete e).inputs = s.inputs := rfl
@[simp] theorem State.complete_rdata (s : State) (e : ErrCode) : (s.complete e).rdata = s.rdata := rfl
@[simp] theorem State.complete_dirty (s : State) (e : ErrCode) : (s.complete e).dirty = [] := rfl
@[simp] theorem State.complete_free (s : State) (e : ErrCode) : (s.complete e).free = s.free := rfl

/-! ### KB any value -/

@[simp] theorem State.anyKB_ie (s : State) : (s.anyKB).ie = s.ie := rfl
@[simp] theorem State.anyKB_busy (s : State) : (s.anyKB).busy = s.busy := rfl
@[simp] theorem State.anyKB_done (s : State) : (s.anyKB).done = s.done := rfl
@[simp] theorem State.anyKB_ovr (s : State) : (s.anyKB).ovr = s.ovr := rfl
@[simp] theorem State.anyKB_err (s : State) : (s.anyKB).err = s.err := rfl
@[simp] theorem State.anyKB_lastcmd (s : State) : (s.anyKB).lastcmd = s.lastcmd := rfl
@[simp] theorem State.anyKB_kptr (s : State) : (s.anyKB).kptr = s.kptr := rfl
@[simp] theorem State.anyKB_mptr (s : State) : (s.anyKB).mptr = s.mptr := rfl
@[simp] theorem State.anyKB_dptr (s : State) : (s.anyKB).dptr = s.dptr := rfl
@[simp] theorem State.anyKB_klen (s : State) : (s.anyKB).klen = s.klen := rfl
@[simp] theorem State.anyKB_mlen (s : State) : (s.anyKB).mlen = s.mlen := rfl
@[simp] theorem State.anyKB_bcnt (s : State) : (s.anyKB).bcnt = s.bcnt := rfl
@[simp] theorem State.anyKB_kb (s : State) : (s.anyKB).kb = drawWords s.free := rfl
@[simp] theorem State.anyKB_mb (s : State) : (s.anyKB).mb = s.mb := rfl
@[simp] theorem State.anyKB_xb (s : State) : (s.anyKB).xb = s.xb := rfl
@[simp] theorem State.anyKB_zb (s : State) : (s.anyKB).zb = s.zb := rfl
@[simp] theorem State.anyKB_acc (s : State) : (s.anyKB).acc = s.acc := rfl
@[simp] theorem State.anyKB_job (s : State) : (s.anyKB).job = s.job := rfl
@[simp] theorem State.anyKB_mem (s : State) : (s.anyKB).mem = s.mem := rfl
@[simp] theorem State.anyKB_platform (s : State) : (s.anyKB).platform = s.platform := rfl
@[simp] theorem State.anyKB_inputs (s : State) : (s.anyKB).inputs = s.inputs := rfl
@[simp] theorem State.anyKB_rdata (s : State) : (s.anyKB).rdata = s.rdata := rfl
@[simp] theorem State.anyKB_dirty (s : State) : (s.anyKB).dirty = s.dirty := rfl
@[simp] theorem State.anyKB_free (s : State) : (s.anyKB).free = s.free + 8 := rfl

/-! ### MB any value -/

@[simp] theorem State.anyMB_ie (s : State) : (s.anyMB).ie = s.ie := rfl
@[simp] theorem State.anyMB_busy (s : State) : (s.anyMB).busy = s.busy := rfl
@[simp] theorem State.anyMB_done (s : State) : (s.anyMB).done = s.done := rfl
@[simp] theorem State.anyMB_ovr (s : State) : (s.anyMB).ovr = s.ovr := rfl
@[simp] theorem State.anyMB_err (s : State) : (s.anyMB).err = s.err := rfl
@[simp] theorem State.anyMB_lastcmd (s : State) : (s.anyMB).lastcmd = s.lastcmd := rfl
@[simp] theorem State.anyMB_kptr (s : State) : (s.anyMB).kptr = s.kptr := rfl
@[simp] theorem State.anyMB_mptr (s : State) : (s.anyMB).mptr = s.mptr := rfl
@[simp] theorem State.anyMB_dptr (s : State) : (s.anyMB).dptr = s.dptr := rfl
@[simp] theorem State.anyMB_klen (s : State) : (s.anyMB).klen = s.klen := rfl
@[simp] theorem State.anyMB_mlen (s : State) : (s.anyMB).mlen = s.mlen := rfl
@[simp] theorem State.anyMB_bcnt (s : State) : (s.anyMB).bcnt = s.bcnt := rfl
@[simp] theorem State.anyMB_kb (s : State) : (s.anyMB).kb = s.kb := rfl
@[simp] theorem State.anyMB_mb (s : State) : (s.anyMB).mb = drawWords s.free := rfl
@[simp] theorem State.anyMB_xb (s : State) : (s.anyMB).xb = s.xb := rfl
@[simp] theorem State.anyMB_zb (s : State) : (s.anyMB).zb = s.zb := rfl
@[simp] theorem State.anyMB_acc (s : State) : (s.anyMB).acc = s.acc := rfl
@[simp] theorem State.anyMB_job (s : State) : (s.anyMB).job = s.job := rfl
@[simp] theorem State.anyMB_mem (s : State) : (s.anyMB).mem = s.mem := rfl
@[simp] theorem State.anyMB_platform (s : State) : (s.anyMB).platform = s.platform := rfl
@[simp] theorem State.anyMB_inputs (s : State) : (s.anyMB).inputs = s.inputs := rfl
@[simp] theorem State.anyMB_rdata (s : State) : (s.anyMB).rdata = s.rdata := rfl
@[simp] theorem State.anyMB_dirty (s : State) : (s.anyMB).dirty = s.dirty := rfl
@[simp] theorem State.anyMB_free (s : State) : (s.anyMB).free = s.free + 8 := rfl

/-! ### XB any value -/

@[simp] theorem State.anyXB_ie (s : State) : (s.anyXB).ie = s.ie := rfl
@[simp] theorem State.anyXB_busy (s : State) : (s.anyXB).busy = s.busy := rfl
@[simp] theorem State.anyXB_done (s : State) : (s.anyXB).done = s.done := rfl
@[simp] theorem State.anyXB_ovr (s : State) : (s.anyXB).ovr = s.ovr := rfl
@[simp] theorem State.anyXB_err (s : State) : (s.anyXB).err = s.err := rfl
@[simp] theorem State.anyXB_lastcmd (s : State) : (s.anyXB).lastcmd = s.lastcmd := rfl
@[simp] theorem State.anyXB_kptr (s : State) : (s.anyXB).kptr = s.kptr := rfl
@[simp] theorem State.anyXB_mptr (s : State) : (s.anyXB).mptr = s.mptr := rfl
@[simp] theorem State.anyXB_dptr (s : State) : (s.anyXB).dptr = s.dptr := rfl
@[simp] theorem State.anyXB_klen (s : State) : (s.anyXB).klen = s.klen := rfl
@[simp] theorem State.anyXB_mlen (s : State) : (s.anyXB).mlen = s.mlen := rfl
@[simp] theorem State.anyXB_bcnt (s : State) : (s.anyXB).bcnt = s.bcnt := rfl
@[simp] theorem State.anyXB_kb (s : State) : (s.anyXB).kb = s.kb := rfl
@[simp] theorem State.anyXB_mb (s : State) : (s.anyXB).mb = s.mb := rfl
@[simp] theorem State.anyXB_xb (s : State) : (s.anyXB).xb = drawWords s.free := rfl
@[simp] theorem State.anyXB_zb (s : State) : (s.anyXB).zb = s.zb := rfl
@[simp] theorem State.anyXB_acc (s : State) : (s.anyXB).acc = s.acc := rfl
@[simp] theorem State.anyXB_job (s : State) : (s.anyXB).job = s.job := rfl
@[simp] theorem State.anyXB_mem (s : State) : (s.anyXB).mem = s.mem := rfl
@[simp] theorem State.anyXB_platform (s : State) : (s.anyXB).platform = s.platform := rfl
@[simp] theorem State.anyXB_inputs (s : State) : (s.anyXB).inputs = s.inputs := rfl
@[simp] theorem State.anyXB_rdata (s : State) : (s.anyXB).rdata = s.rdata := rfl
@[simp] theorem State.anyXB_dirty (s : State) : (s.anyXB).dirty = s.dirty := rfl
@[simp] theorem State.anyXB_free (s : State) : (s.anyXB).free = s.free + 8 := rfl

/-! ### ZB any value -/

@[simp] theorem State.anyZB_ie (s : State) : (s.anyZB).ie = s.ie := rfl
@[simp] theorem State.anyZB_busy (s : State) : (s.anyZB).busy = s.busy := rfl
@[simp] theorem State.anyZB_done (s : State) : (s.anyZB).done = s.done := rfl
@[simp] theorem State.anyZB_ovr (s : State) : (s.anyZB).ovr = s.ovr := rfl
@[simp] theorem State.anyZB_err (s : State) : (s.anyZB).err = s.err := rfl
@[simp] theorem State.anyZB_lastcmd (s : State) : (s.anyZB).lastcmd = s.lastcmd := rfl
@[simp] theorem State.anyZB_kptr (s : State) : (s.anyZB).kptr = s.kptr := rfl
@[simp] theorem State.anyZB_mptr (s : State) : (s.anyZB).mptr = s.mptr := rfl
@[simp] theorem State.anyZB_dptr (s : State) : (s.anyZB).dptr = s.dptr := rfl
@[simp] theorem State.anyZB_klen (s : State) : (s.anyZB).klen = s.klen := rfl
@[simp] theorem State.anyZB_mlen (s : State) : (s.anyZB).mlen = s.mlen := rfl
@[simp] theorem State.anyZB_bcnt (s : State) : (s.anyZB).bcnt = s.bcnt := rfl
@[simp] theorem State.anyZB_kb (s : State) : (s.anyZB).kb = s.kb := rfl
@[simp] theorem State.anyZB_mb (s : State) : (s.anyZB).mb = s.mb := rfl
@[simp] theorem State.anyZB_xb (s : State) : (s.anyZB).xb = s.xb := rfl
@[simp] theorem State.anyZB_zb (s : State) : (s.anyZB).zb = drawDWords s.free := rfl
@[simp] theorem State.anyZB_acc (s : State) : (s.anyZB).acc = s.acc := rfl
@[simp] theorem State.anyZB_job (s : State) : (s.anyZB).job = s.job := rfl
@[simp] theorem State.anyZB_mem (s : State) : (s.anyZB).mem = s.mem := rfl
@[simp] theorem State.anyZB_platform (s : State) : (s.anyZB).platform = s.platform := rfl
@[simp] theorem State.anyZB_inputs (s : State) : (s.anyZB).inputs = s.inputs := rfl
@[simp] theorem State.anyZB_rdata (s : State) : (s.anyZB).rdata = s.rdata := rfl
@[simp] theorem State.anyZB_dirty (s : State) : (s.anyZB).dirty = s.dirty := rfl
@[simp] theorem State.anyZB_free (s : State) : (s.anyZB).free = s.free + 8 := rfl

/-! ### ACC any value -/

@[simp] theorem State.anyACC_ie (s : State) : (s.anyACC).ie = s.ie := rfl
@[simp] theorem State.anyACC_busy (s : State) : (s.anyACC).busy = s.busy := rfl
@[simp] theorem State.anyACC_done (s : State) : (s.anyACC).done = s.done := rfl
@[simp] theorem State.anyACC_ovr (s : State) : (s.anyACC).ovr = s.ovr := rfl
@[simp] theorem State.anyACC_err (s : State) : (s.anyACC).err = s.err := rfl
@[simp] theorem State.anyACC_lastcmd (s : State) : (s.anyACC).lastcmd = s.lastcmd := rfl
@[simp] theorem State.anyACC_kptr (s : State) : (s.anyACC).kptr = s.kptr := rfl
@[simp] theorem State.anyACC_mptr (s : State) : (s.anyACC).mptr = s.mptr := rfl
@[simp] theorem State.anyACC_dptr (s : State) : (s.anyACC).dptr = s.dptr := rfl
@[simp] theorem State.anyACC_klen (s : State) : (s.anyACC).klen = s.klen := rfl
@[simp] theorem State.anyACC_mlen (s : State) : (s.anyACC).mlen = s.mlen := rfl
@[simp] theorem State.anyACC_bcnt (s : State) : (s.anyACC).bcnt = s.bcnt := rfl
@[simp] theorem State.anyACC_kb (s : State) : (s.anyACC).kb = s.kb := rfl
@[simp] theorem State.anyACC_mb (s : State) : (s.anyACC).mb = s.mb := rfl
@[simp] theorem State.anyACC_xb (s : State) : (s.anyACC).xb = s.xb := rfl
@[simp] theorem State.anyACC_zb (s : State) : (s.anyACC).zb = s.zb := rfl
@[simp] theorem State.anyACC_acc (s : State) : (s.anyACC).acc = drawDWords s.free := rfl
@[simp] theorem State.anyACC_job (s : State) : (s.anyACC).job = s.job := rfl
@[simp] theorem State.anyACC_mem (s : State) : (s.anyACC).mem = s.mem := rfl
@[simp] theorem State.anyACC_platform (s : State) : (s.anyACC).platform = s.platform := rfl
@[simp] theorem State.anyACC_inputs (s : State) : (s.anyACC).inputs = s.inputs := rfl
@[simp] theorem State.anyACC_rdata (s : State) : (s.anyACC).rdata = s.rdata := rfl
@[simp] theorem State.anyACC_dirty (s : State) : (s.anyACC).dirty = s.dirty := rfl
@[simp] theorem State.anyACC_free (s : State) : (s.anyACC).free = s.free + 8 := rfl

/-! ### BCNT any value -/

@[simp] theorem State.anyBCNT_ie (s : State) : (s.anyBCNT).ie = s.ie := rfl
@[simp] theorem State.anyBCNT_busy (s : State) : (s.anyBCNT).busy = s.busy := rfl
@[simp] theorem State.anyBCNT_done (s : State) : (s.anyBCNT).done = s.done := rfl
@[simp] theorem State.anyBCNT_ovr (s : State) : (s.anyBCNT).ovr = s.ovr := rfl
@[simp] theorem State.anyBCNT_err (s : State) : (s.anyBCNT).err = s.err := rfl
@[simp] theorem State.anyBCNT_lastcmd (s : State) : (s.anyBCNT).lastcmd = s.lastcmd := rfl
@[simp] theorem State.anyBCNT_kptr (s : State) : (s.anyBCNT).kptr = s.kptr := rfl
@[simp] theorem State.anyBCNT_mptr (s : State) : (s.anyBCNT).mptr = s.mptr := rfl
@[simp] theorem State.anyBCNT_dptr (s : State) : (s.anyBCNT).dptr = s.dptr := rfl
@[simp] theorem State.anyBCNT_klen (s : State) : (s.anyBCNT).klen = s.klen := rfl
@[simp] theorem State.anyBCNT_mlen (s : State) : (s.anyBCNT).mlen = s.mlen := rfl
@[simp] theorem State.anyBCNT_bcnt (s : State) : (s.anyBCNT).bcnt = Config.anyWord s.free := rfl
@[simp] theorem State.anyBCNT_kb (s : State) : (s.anyBCNT).kb = s.kb := rfl
@[simp] theorem State.anyBCNT_mb (s : State) : (s.anyBCNT).mb = s.mb := rfl
@[simp] theorem State.anyBCNT_xb (s : State) : (s.anyBCNT).xb = s.xb := rfl
@[simp] theorem State.anyBCNT_zb (s : State) : (s.anyBCNT).zb = s.zb := rfl
@[simp] theorem State.anyBCNT_acc (s : State) : (s.anyBCNT).acc = s.acc := rfl
@[simp] theorem State.anyBCNT_job (s : State) : (s.anyBCNT).job = s.job := rfl
@[simp] theorem State.anyBCNT_mem (s : State) : (s.anyBCNT).mem = s.mem := rfl
@[simp] theorem State.anyBCNT_platform (s : State) : (s.anyBCNT).platform = s.platform := rfl
@[simp] theorem State.anyBCNT_inputs (s : State) : (s.anyBCNT).inputs = s.inputs := rfl
@[simp] theorem State.anyBCNT_rdata (s : State) : (s.anyBCNT).rdata = s.rdata := rfl
@[simp] theorem State.anyBCNT_dirty (s : State) : (s.anyBCNT).dirty = s.dirty := rfl
@[simp] theorem State.anyBCNT_free (s : State) : (s.anyBCNT).free = s.free + 1 := rfl

/-! ### The port answers any value -/

@[simp] theorem State.anyAnswer_ie (s : State) : (s.anyAnswer).ie = s.ie := rfl
@[simp] theorem State.anyAnswer_busy (s : State) : (s.anyAnswer).busy = s.busy := rfl
@[simp] theorem State.anyAnswer_done (s : State) : (s.anyAnswer).done = s.done := rfl
@[simp] theorem State.anyAnswer_ovr (s : State) : (s.anyAnswer).ovr = s.ovr := rfl
@[simp] theorem State.anyAnswer_err (s : State) : (s.anyAnswer).err = s.err := rfl
@[simp] theorem State.anyAnswer_lastcmd (s : State) : (s.anyAnswer).lastcmd = s.lastcmd := rfl
@[simp] theorem State.anyAnswer_kptr (s : State) : (s.anyAnswer).kptr = s.kptr := rfl
@[simp] theorem State.anyAnswer_mptr (s : State) : (s.anyAnswer).mptr = s.mptr := rfl
@[simp] theorem State.anyAnswer_dptr (s : State) : (s.anyAnswer).dptr = s.dptr := rfl
@[simp] theorem State.anyAnswer_klen (s : State) : (s.anyAnswer).klen = s.klen := rfl
@[simp] theorem State.anyAnswer_mlen (s : State) : (s.anyAnswer).mlen = s.mlen := rfl
@[simp] theorem State.anyAnswer_bcnt (s : State) : (s.anyAnswer).bcnt = s.bcnt := rfl
@[simp] theorem State.anyAnswer_kb (s : State) : (s.anyAnswer).kb = s.kb := rfl
@[simp] theorem State.anyAnswer_mb (s : State) : (s.anyAnswer).mb = s.mb := rfl
@[simp] theorem State.anyAnswer_xb (s : State) : (s.anyAnswer).xb = s.xb := rfl
@[simp] theorem State.anyAnswer_zb (s : State) : (s.anyAnswer).zb = s.zb := rfl
@[simp] theorem State.anyAnswer_acc (s : State) : (s.anyAnswer).acc = s.acc := rfl
@[simp] theorem State.anyAnswer_job (s : State) : (s.anyAnswer).job = s.job := rfl
@[simp] theorem State.anyAnswer_mem (s : State) : (s.anyAnswer).mem = s.mem := rfl
@[simp] theorem State.anyAnswer_platform (s : State) : (s.anyAnswer).platform = s.platform := rfl
@[simp] theorem State.anyAnswer_inputs (s : State) : (s.anyAnswer).inputs = s.inputs := rfl
@[simp] theorem State.anyAnswer_rdata (s : State) : (s.anyAnswer).rdata = some (Config.anyWord s.free) := rfl
@[simp] theorem State.anyAnswer_dirty (s : State) : (s.anyAnswer).dirty = s.dirty := rfl
@[simp] theorem State.anyAnswer_free (s : State) : (s.anyAnswer).free = s.free + 1 := rfl

/-! ### KB parsed -/

@[simp] theorem State.parseKey_ie (s : State) (b : List Byte) : (s.parseKey b).ie = s.ie := rfl
@[simp] theorem State.parseKey_busy (s : State) (b : List Byte) : (s.parseKey b).busy = s.busy := rfl
@[simp] theorem State.parseKey_done (s : State) (b : List Byte) : (s.parseKey b).done = s.done := rfl
@[simp] theorem State.parseKey_ovr (s : State) (b : List Byte) : (s.parseKey b).ovr = s.ovr := rfl
@[simp] theorem State.parseKey_err (s : State) (b : List Byte) : (s.parseKey b).err = s.err := rfl
@[simp] theorem State.parseKey_lastcmd (s : State) (b : List Byte) : (s.parseKey b).lastcmd = s.lastcmd := rfl
@[simp] theorem State.parseKey_kptr (s : State) (b : List Byte) : (s.parseKey b).kptr = s.kptr := rfl
@[simp] theorem State.parseKey_mptr (s : State) (b : List Byte) : (s.parseKey b).mptr = s.mptr := rfl
@[simp] theorem State.parseKey_dptr (s : State) (b : List Byte) : (s.parseKey b).dptr = s.dptr := rfl
@[simp] theorem State.parseKey_klen (s : State) (b : List Byte) : (s.parseKey b).klen = s.klen := rfl
@[simp] theorem State.parseKey_mlen (s : State) (b : List Byte) : (s.parseKey b).mlen = s.mlen := rfl
@[simp] theorem State.parseKey_bcnt (s : State) (b : List Byte) : (s.parseKey b).bcnt = s.bcnt := rfl
@[simp] theorem State.parseKey_kb (s : State) (b : List Byte) : (s.parseKey b).kb = parseBlock b := rfl
@[simp] theorem State.parseKey_mb (s : State) (b : List Byte) : (s.parseKey b).mb = s.mb := rfl
@[simp] theorem State.parseKey_xb (s : State) (b : List Byte) : (s.parseKey b).xb = s.xb := rfl
@[simp] theorem State.parseKey_zb (s : State) (b : List Byte) : (s.parseKey b).zb = s.zb := rfl
@[simp] theorem State.parseKey_acc (s : State) (b : List Byte) : (s.parseKey b).acc = s.acc := rfl
@[simp] theorem State.parseKey_job (s : State) (b : List Byte) : (s.parseKey b).job = s.job := rfl
@[simp] theorem State.parseKey_mem (s : State) (b : List Byte) : (s.parseKey b).mem = s.mem := rfl
@[simp] theorem State.parseKey_platform (s : State) (b : List Byte) : (s.parseKey b).platform = s.platform := rfl
@[simp] theorem State.parseKey_inputs (s : State) (b : List Byte) : (s.parseKey b).inputs = s.inputs := rfl
@[simp] theorem State.parseKey_rdata (s : State) (b : List Byte) : (s.parseKey b).rdata = s.rdata := rfl
@[simp] theorem State.parseKey_dirty (s : State) (b : List Byte) : (s.parseKey b).dirty = s.dirty := rfl
@[simp] theorem State.parseKey_free (s : State) (b : List Byte) : (s.parseKey b).free = s.free := rfl

/-! ### MB parsed -/

@[simp] theorem State.parseMsg_ie (s : State) (b : List Byte) : (s.parseMsg b).ie = s.ie := rfl
@[simp] theorem State.parseMsg_busy (s : State) (b : List Byte) : (s.parseMsg b).busy = s.busy := rfl
@[simp] theorem State.parseMsg_done (s : State) (b : List Byte) : (s.parseMsg b).done = s.done := rfl
@[simp] theorem State.parseMsg_ovr (s : State) (b : List Byte) : (s.parseMsg b).ovr = s.ovr := rfl
@[simp] theorem State.parseMsg_err (s : State) (b : List Byte) : (s.parseMsg b).err = s.err := rfl
@[simp] theorem State.parseMsg_lastcmd (s : State) (b : List Byte) : (s.parseMsg b).lastcmd = s.lastcmd := rfl
@[simp] theorem State.parseMsg_kptr (s : State) (b : List Byte) : (s.parseMsg b).kptr = s.kptr := rfl
@[simp] theorem State.parseMsg_mptr (s : State) (b : List Byte) : (s.parseMsg b).mptr = s.mptr := rfl
@[simp] theorem State.parseMsg_dptr (s : State) (b : List Byte) : (s.parseMsg b).dptr = s.dptr := rfl
@[simp] theorem State.parseMsg_klen (s : State) (b : List Byte) : (s.parseMsg b).klen = s.klen := rfl
@[simp] theorem State.parseMsg_mlen (s : State) (b : List Byte) : (s.parseMsg b).mlen = s.mlen := rfl
@[simp] theorem State.parseMsg_bcnt (s : State) (b : List Byte) : (s.parseMsg b).bcnt = s.bcnt := rfl
@[simp] theorem State.parseMsg_kb (s : State) (b : List Byte) : (s.parseMsg b).kb = s.kb := rfl
@[simp] theorem State.parseMsg_mb (s : State) (b : List Byte) : (s.parseMsg b).mb = parseBlock b := rfl
@[simp] theorem State.parseMsg_xb (s : State) (b : List Byte) : (s.parseMsg b).xb = s.xb := rfl
@[simp] theorem State.parseMsg_zb (s : State) (b : List Byte) : (s.parseMsg b).zb = s.zb := rfl
@[simp] theorem State.parseMsg_acc (s : State) (b : List Byte) : (s.parseMsg b).acc = s.acc := rfl
@[simp] theorem State.parseMsg_job (s : State) (b : List Byte) : (s.parseMsg b).job = s.job := rfl
@[simp] theorem State.parseMsg_mem (s : State) (b : List Byte) : (s.parseMsg b).mem = s.mem := rfl
@[simp] theorem State.parseMsg_platform (s : State) (b : List Byte) : (s.parseMsg b).platform = s.platform := rfl
@[simp] theorem State.parseMsg_inputs (s : State) (b : List Byte) : (s.parseMsg b).inputs = s.inputs := rfl
@[simp] theorem State.parseMsg_rdata (s : State) (b : List Byte) : (s.parseMsg b).rdata = s.rdata := rfl
@[simp] theorem State.parseMsg_dirty (s : State) (b : List Byte) : (s.parseMsg b).dirty = s.dirty := rfl
@[simp] theorem State.parseMsg_free (s : State) (b : List Byte) : (s.parseMsg b).free = s.free := rfl

/-! ### XB combined -/

@[simp] theorem State.addKM_ie (s : State) : (s.addKM).ie = s.ie := rfl
@[simp] theorem State.addKM_busy (s : State) : (s.addKM).busy = s.busy := rfl
@[simp] theorem State.addKM_done (s : State) : (s.addKM).done = s.done := rfl
@[simp] theorem State.addKM_ovr (s : State) : (s.addKM).ovr = s.ovr := rfl
@[simp] theorem State.addKM_err (s : State) : (s.addKM).err = s.err := rfl
@[simp] theorem State.addKM_lastcmd (s : State) : (s.addKM).lastcmd = s.lastcmd := rfl
@[simp] theorem State.addKM_kptr (s : State) : (s.addKM).kptr = s.kptr := rfl
@[simp] theorem State.addKM_mptr (s : State) : (s.addKM).mptr = s.mptr := rfl
@[simp] theorem State.addKM_dptr (s : State) : (s.addKM).dptr = s.dptr := rfl
@[simp] theorem State.addKM_klen (s : State) : (s.addKM).klen = s.klen := rfl
@[simp] theorem State.addKM_mlen (s : State) : (s.addKM).mlen = s.mlen := rfl
@[simp] theorem State.addKM_bcnt (s : State) : (s.addKM).bcnt = s.bcnt := rfl
@[simp] theorem State.addKM_kb (s : State) : (s.addKM).kb = s.kb := rfl
@[simp] theorem State.addKM_mb (s : State) : (s.addKM).mb = s.mb := rfl
@[simp] theorem State.addKM_xb (s : State) : (s.addKM).xb = addBlocks s.kb s.mb := rfl
@[simp] theorem State.addKM_zb (s : State) : (s.addKM).zb = s.zb := rfl
@[simp] theorem State.addKM_acc (s : State) : (s.addKM).acc = s.acc := rfl
@[simp] theorem State.addKM_job (s : State) : (s.addKM).job = s.job := rfl
@[simp] theorem State.addKM_mem (s : State) : (s.addKM).mem = s.mem := rfl
@[simp] theorem State.addKM_platform (s : State) : (s.addKM).platform = s.platform := rfl
@[simp] theorem State.addKM_inputs (s : State) : (s.addKM).inputs = s.inputs := rfl
@[simp] theorem State.addKM_rdata (s : State) : (s.addKM).rdata = s.rdata := rfl
@[simp] theorem State.addKM_dirty (s : State) : (s.addKM).dirty = s.dirty := rfl
@[simp] theorem State.addKM_free (s : State) : (s.addKM).free = s.free := rfl

/-! ### ZB mixed -/

@[simp] theorem State.mixXB_ie (s : State) : (s.mixXB).ie = s.ie := rfl
@[simp] theorem State.mixXB_busy (s : State) : (s.mixXB).busy = s.busy := rfl
@[simp] theorem State.mixXB_done (s : State) : (s.mixXB).done = s.done := rfl
@[simp] theorem State.mixXB_ovr (s : State) : (s.mixXB).ovr = s.ovr := rfl
@[simp] theorem State.mixXB_err (s : State) : (s.mixXB).err = s.err := rfl
@[simp] theorem State.mixXB_lastcmd (s : State) : (s.mixXB).lastcmd = s.lastcmd := rfl
@[simp] theorem State.mixXB_kptr (s : State) : (s.mixXB).kptr = s.kptr := rfl
@[simp] theorem State.mixXB_mptr (s : State) : (s.mixXB).mptr = s.mptr := rfl
@[simp] theorem State.mixXB_dptr (s : State) : (s.mixXB).dptr = s.dptr := rfl
@[simp] theorem State.mixXB_klen (s : State) : (s.mixXB).klen = s.klen := rfl
@[simp] theorem State.mixXB_mlen (s : State) : (s.mixXB).mlen = s.mlen := rfl
@[simp] theorem State.mixXB_bcnt (s : State) : (s.mixXB).bcnt = s.bcnt := rfl
@[simp] theorem State.mixXB_kb (s : State) : (s.mixXB).kb = s.kb := rfl
@[simp] theorem State.mixXB_mb (s : State) : (s.mixXB).mb = s.mb := rfl
@[simp] theorem State.mixXB_xb (s : State) : (s.mixXB).xb = s.xb := rfl
@[simp] theorem State.mixXB_zb (s : State) : (s.mixXB).zb = f128 s.xb := rfl
@[simp] theorem State.mixXB_acc (s : State) : (s.mixXB).acc = s.acc := rfl
@[simp] theorem State.mixXB_job (s : State) : (s.mixXB).job = s.job := rfl
@[simp] theorem State.mixXB_mem (s : State) : (s.mixXB).mem = s.mem := rfl
@[simp] theorem State.mixXB_platform (s : State) : (s.mixXB).platform = s.platform := rfl
@[simp] theorem State.mixXB_inputs (s : State) : (s.mixXB).inputs = s.inputs := rfl
@[simp] theorem State.mixXB_rdata (s : State) : (s.mixXB).rdata = s.rdata := rfl
@[simp] theorem State.mixXB_dirty (s : State) : (s.mixXB).dirty = s.dirty := rfl
@[simp] theorem State.mixXB_free (s : State) : (s.mixXB).free = s.free := rfl

/-! ### ACC accumulated -/

@[simp] theorem State.addZB_ie (s : State) : (s.addZB).ie = s.ie := rfl
@[simp] theorem State.addZB_busy (s : State) : (s.addZB).busy = s.busy := rfl
@[simp] theorem State.addZB_done (s : State) : (s.addZB).done = s.done := rfl
@[simp] theorem State.addZB_ovr (s : State) : (s.addZB).ovr = s.ovr := rfl
@[simp] theorem State.addZB_err (s : State) : (s.addZB).err = s.err := rfl
@[simp] theorem State.addZB_lastcmd (s : State) : (s.addZB).lastcmd = s.lastcmd := rfl
@[simp] theorem State.addZB_kptr (s : State) : (s.addZB).kptr = s.kptr := rfl
@[simp] theorem State.addZB_mptr (s : State) : (s.addZB).mptr = s.mptr := rfl
@[simp] theorem State.addZB_dptr (s : State) : (s.addZB).dptr = s.dptr := rfl
@[simp] theorem State.addZB_klen (s : State) : (s.addZB).klen = s.klen := rfl
@[simp] theorem State.addZB_mlen (s : State) : (s.addZB).mlen = s.mlen := rfl
@[simp] theorem State.addZB_bcnt (s : State) : (s.addZB).bcnt = s.bcnt := rfl
@[simp] theorem State.addZB_kb (s : State) : (s.addZB).kb = s.kb := rfl
@[simp] theorem State.addZB_mb (s : State) : (s.addZB).mb = s.mb := rfl
@[simp] theorem State.addZB_xb (s : State) : (s.addZB).xb = s.xb := rfl
@[simp] theorem State.addZB_zb (s : State) : (s.addZB).zb = s.zb := rfl
@[simp] theorem State.addZB_acc (s : State) : (s.addZB).acc = accumulate s.acc s.zb := rfl
@[simp] theorem State.addZB_job (s : State) : (s.addZB).job = s.job := rfl
@[simp] theorem State.addZB_mem (s : State) : (s.addZB).mem = s.mem := rfl
@[simp] theorem State.addZB_platform (s : State) : (s.addZB).platform = s.platform := rfl
@[simp] theorem State.addZB_inputs (s : State) : (s.addZB).inputs = s.inputs := rfl
@[simp] theorem State.addZB_rdata (s : State) : (s.addZB).rdata = s.rdata := rfl
@[simp] theorem State.addZB_dirty (s : State) : (s.addZB).dirty = s.dirty := rfl
@[simp] theorem State.addZB_free (s : State) : (s.addZB).free = s.free := rfl

/-! ### ACC cleared -/

@[simp] theorem State.clearACC_ie (s : State) : (s.clearACC).ie = s.ie := rfl
@[simp] theorem State.clearACC_busy (s : State) : (s.clearACC).busy = s.busy := rfl
@[simp] theorem State.clearACC_done (s : State) : (s.clearACC).done = s.done := rfl
@[simp] theorem State.clearACC_ovr (s : State) : (s.clearACC).ovr = s.ovr := rfl
@[simp] theorem State.clearACC_err (s : State) : (s.clearACC).err = s.err := rfl
@[simp] theorem State.clearACC_lastcmd (s : State) : (s.clearACC).lastcmd = s.lastcmd := rfl
@[simp] theorem State.clearACC_kptr (s : State) : (s.clearACC).kptr = s.kptr := rfl
@[simp] theorem State.clearACC_mptr (s : State) : (s.clearACC).mptr = s.mptr := rfl
@[simp] theorem State.clearACC_dptr (s : State) : (s.clearACC).dptr = s.dptr := rfl
@[simp] theorem State.clearACC_klen (s : State) : (s.clearACC).klen = s.klen := rfl
@[simp] theorem State.clearACC_mlen (s : State) : (s.clearACC).mlen = s.mlen := rfl
@[simp] theorem State.clearACC_bcnt (s : State) : (s.clearACC).bcnt = s.bcnt := rfl
@[simp] theorem State.clearACC_kb (s : State) : (s.clearACC).kb = s.kb := rfl
@[simp] theorem State.clearACC_mb (s : State) : (s.clearACC).mb = s.mb := rfl
@[simp] theorem State.clearACC_xb (s : State) : (s.clearACC).xb = s.xb := rfl
@[simp] theorem State.clearACC_zb (s : State) : (s.clearACC).zb = s.zb := rfl
@[simp] theorem State.clearACC_acc (s : State) : (s.clearACC).acc = Lanes.fill 0 := rfl
@[simp] theorem State.clearACC_job (s : State) : (s.clearACC).job = s.job := rfl
@[simp] theorem State.clearACC_mem (s : State) : (s.clearACC).mem = s.mem := rfl
@[simp] theorem State.clearACC_platform (s : State) : (s.clearACC).platform = s.platform := rfl
@[simp] theorem State.clearACC_inputs (s : State) : (s.clearACC).inputs = s.inputs := rfl
@[simp] theorem State.clearACC_rdata (s : State) : (s.clearACC).rdata = s.rdata := rfl
@[simp] theorem State.clearACC_dirty (s : State) : (s.clearACC).dirty = s.dirty := rfl
@[simp] theorem State.clearACC_free (s : State) : (s.clearACC).free = s.free := rfl

/-! ### RUN started -/

@[simp] theorem State.startRun_ie (s : State) : (s.startRun).ie = s.ie := rfl
@[simp] theorem State.startRun_busy (s : State) : (s.startRun).busy = s.busy := rfl
@[simp] theorem State.startRun_done (s : State) : (s.startRun).done = s.done := rfl
@[simp] theorem State.startRun_ovr (s : State) : (s.startRun).ovr = s.ovr := rfl
@[simp] theorem State.startRun_err (s : State) : (s.startRun).err = s.err := rfl
@[simp] theorem State.startRun_lastcmd (s : State) : (s.startRun).lastcmd = s.lastcmd := rfl
@[simp] theorem State.startRun_kptr (s : State) : (s.startRun).kptr = s.kptr := rfl
@[simp] theorem State.startRun_mptr (s : State) : (s.startRun).mptr = s.mptr := rfl
@[simp] theorem State.startRun_dptr (s : State) : (s.startRun).dptr = s.dptr := rfl
@[simp] theorem State.startRun_klen (s : State) : (s.startRun).klen = s.klen := rfl
@[simp] theorem State.startRun_mlen (s : State) : (s.startRun).mlen = s.mlen := rfl
@[simp] theorem State.startRun_bcnt (s : State) : (s.startRun).bcnt = 0 := rfl
@[simp] theorem State.startRun_kb (s : State) : (s.startRun).kb = s.kb := rfl
@[simp] theorem State.startRun_mb (s : State) : (s.startRun).mb = s.mb := rfl
@[simp] theorem State.startRun_xb (s : State) : (s.startRun).xb = s.xb := rfl
@[simp] theorem State.startRun_zb (s : State) : (s.startRun).zb = s.zb := rfl
@[simp] theorem State.startRun_acc (s : State) : (s.startRun).acc = Lanes.fill 0 := rfl
@[simp] theorem State.startRun_job (s : State) : (s.startRun).job = s.job := rfl
@[simp] theorem State.startRun_mem (s : State) : (s.startRun).mem = s.mem := rfl
@[simp] theorem State.startRun_platform (s : State) : (s.startRun).platform = s.platform := rfl
@[simp] theorem State.startRun_inputs (s : State) : (s.startRun).inputs = s.inputs := rfl
@[simp] theorem State.startRun_rdata (s : State) : (s.startRun).rdata = s.rdata := rfl
@[simp] theorem State.startRun_dirty (s : State) : (s.startRun).dirty = s.dirty := rfl
@[simp] theorem State.startRun_free (s : State) : (s.startRun).free = s.free := rfl

/-! ### A block counted -/

@[simp] theorem State.countBlock_ie (s : State) (k : Nat) : (s.countBlock k).ie = s.ie := rfl
@[simp] theorem State.countBlock_busy (s : State) (k : Nat) : (s.countBlock k).busy = s.busy := rfl
@[simp] theorem State.countBlock_done (s : State) (k : Nat) : (s.countBlock k).done = s.done := rfl
@[simp] theorem State.countBlock_ovr (s : State) (k : Nat) : (s.countBlock k).ovr = s.ovr := rfl
@[simp] theorem State.countBlock_err (s : State) (k : Nat) : (s.countBlock k).err = s.err := rfl
@[simp] theorem State.countBlock_lastcmd (s : State) (k : Nat) : (s.countBlock k).lastcmd = s.lastcmd := rfl
@[simp] theorem State.countBlock_kptr (s : State) (k : Nat) : (s.countBlock k).kptr = s.kptr := rfl
@[simp] theorem State.countBlock_mptr (s : State) (k : Nat) : (s.countBlock k).mptr = s.mptr := rfl
@[simp] theorem State.countBlock_dptr (s : State) (k : Nat) : (s.countBlock k).dptr = s.dptr := rfl
@[simp] theorem State.countBlock_klen (s : State) (k : Nat) : (s.countBlock k).klen = s.klen := rfl
@[simp] theorem State.countBlock_mlen (s : State) (k : Nat) : (s.countBlock k).mlen = s.mlen := rfl
@[simp] theorem State.countBlock_bcnt (s : State) (k : Nat) : (s.countBlock k).bcnt = BitVec.ofNat 32 (k + 1) := rfl
@[simp] theorem State.countBlock_kb (s : State) (k : Nat) : (s.countBlock k).kb = s.kb := rfl
@[simp] theorem State.countBlock_mb (s : State) (k : Nat) : (s.countBlock k).mb = s.mb := rfl
@[simp] theorem State.countBlock_xb (s : State) (k : Nat) : (s.countBlock k).xb = s.xb := rfl
@[simp] theorem State.countBlock_zb (s : State) (k : Nat) : (s.countBlock k).zb = s.zb := rfl
@[simp] theorem State.countBlock_acc (s : State) (k : Nat) : (s.countBlock k).acc = s.acc := rfl
@[simp] theorem State.countBlock_job (s : State) (k : Nat) : (s.countBlock k).job = s.job := rfl
@[simp] theorem State.countBlock_mem (s : State) (k : Nat) : (s.countBlock k).mem = s.mem := rfl
@[simp] theorem State.countBlock_platform (s : State) (k : Nat) : (s.countBlock k).platform = s.platform := rfl
@[simp] theorem State.countBlock_inputs (s : State) (k : Nat) : (s.countBlock k).inputs = s.inputs := rfl
@[simp] theorem State.countBlock_rdata (s : State) (k : Nat) : (s.countBlock k).rdata = s.rdata := rfl
@[simp] theorem State.countBlock_dirty (s : State) (k : Nat) : (s.countBlock k).dirty = s.dirty := rfl
@[simp] theorem State.countBlock_free (s : State) (k : Nat) : (s.countBlock k).free = s.free := rfl

/-! ### A block folded -/

@[simp] theorem State.foldBlock_ie (s : State) : (s.foldBlock).ie = s.ie := rfl
@[simp] theorem State.foldBlock_busy (s : State) : (s.foldBlock).busy = s.busy := rfl
@[simp] theorem State.foldBlock_done (s : State) : (s.foldBlock).done = s.done := rfl
@[simp] theorem State.foldBlock_ovr (s : State) : (s.foldBlock).ovr = s.ovr := rfl
@[simp] theorem State.foldBlock_err (s : State) : (s.foldBlock).err = s.err := rfl
@[simp] theorem State.foldBlock_lastcmd (s : State) : (s.foldBlock).lastcmd = s.lastcmd := rfl
@[simp] theorem State.foldBlock_kptr (s : State) : (s.foldBlock).kptr = s.kptr := rfl
@[simp] theorem State.foldBlock_mptr (s : State) : (s.foldBlock).mptr = s.mptr := rfl
@[simp] theorem State.foldBlock_dptr (s : State) : (s.foldBlock).dptr = s.dptr := rfl
@[simp] theorem State.foldBlock_klen (s : State) : (s.foldBlock).klen = s.klen := rfl
@[simp] theorem State.foldBlock_mlen (s : State) : (s.foldBlock).mlen = s.mlen := rfl
@[simp] theorem State.foldBlock_bcnt (s : State) : (s.foldBlock).bcnt = s.bcnt := rfl
@[simp] theorem State.foldBlock_kb (s : State) : (s.foldBlock).kb = s.kb := rfl
@[simp] theorem State.foldBlock_mb (s : State) : (s.foldBlock).mb = s.mb := rfl
@[simp] theorem State.foldBlock_xb (s : State) : (s.foldBlock).xb = addBlocks s.kb s.mb := rfl
@[simp] theorem State.foldBlock_zb (s : State) : (s.foldBlock).zb = f128 (addBlocks s.kb s.mb) := rfl
@[simp] theorem State.foldBlock_acc (s : State) : (s.foldBlock).acc = accumulate s.acc (f128 (addBlocks s.kb s.mb)) := rfl
@[simp] theorem State.foldBlock_job (s : State) : (s.foldBlock).job = s.job := rfl
@[simp] theorem State.foldBlock_mem (s : State) : (s.foldBlock).mem = s.mem := rfl
@[simp] theorem State.foldBlock_platform (s : State) : (s.foldBlock).platform = s.platform := rfl
@[simp] theorem State.foldBlock_inputs (s : State) : (s.foldBlock).inputs = s.inputs := rfl
@[simp] theorem State.foldBlock_rdata (s : State) : (s.foldBlock).rdata = s.rdata := rfl
@[simp] theorem State.foldBlock_dirty (s : State) : (s.foldBlock).dirty = s.dirty := rfl
@[simp] theorem State.foldBlock_free (s : State) : (s.foldBlock).free = s.free := rfl

/-! ### The bytes of a block folded -/

@[simp] theorem State.foldBytes_ie (s : State) (key msg : List Byte) : (s.foldBytes key msg).ie = s.ie := by
  simp [State.foldBytes]
@[simp] theorem State.foldBytes_busy (s : State) (key msg : List Byte) : (s.foldBytes key msg).busy = s.busy := by
  simp [State.foldBytes]
@[simp] theorem State.foldBytes_done (s : State) (key msg : List Byte) : (s.foldBytes key msg).done = s.done := by
  simp [State.foldBytes]
@[simp] theorem State.foldBytes_ovr (s : State) (key msg : List Byte) : (s.foldBytes key msg).ovr = s.ovr := by
  simp [State.foldBytes]
@[simp] theorem State.foldBytes_err (s : State) (key msg : List Byte) : (s.foldBytes key msg).err = s.err := by
  simp [State.foldBytes]
@[simp] theorem State.foldBytes_lastcmd (s : State) (key msg : List Byte) : (s.foldBytes key msg).lastcmd = s.lastcmd := by
  simp [State.foldBytes]
@[simp] theorem State.foldBytes_kptr (s : State) (key msg : List Byte) : (s.foldBytes key msg).kptr = s.kptr := by
  simp [State.foldBytes]
@[simp] theorem State.foldBytes_mptr (s : State) (key msg : List Byte) : (s.foldBytes key msg).mptr = s.mptr := by
  simp [State.foldBytes]
@[simp] theorem State.foldBytes_dptr (s : State) (key msg : List Byte) : (s.foldBytes key msg).dptr = s.dptr := by
  simp [State.foldBytes]
@[simp] theorem State.foldBytes_klen (s : State) (key msg : List Byte) : (s.foldBytes key msg).klen = s.klen := by
  simp [State.foldBytes]
@[simp] theorem State.foldBytes_mlen (s : State) (key msg : List Byte) : (s.foldBytes key msg).mlen = s.mlen := by
  simp [State.foldBytes]
@[simp] theorem State.foldBytes_bcnt (s : State) (key msg : List Byte) : (s.foldBytes key msg).bcnt = s.bcnt := by
  simp [State.foldBytes]
@[simp] theorem State.foldBytes_kb (s : State) (key msg : List Byte) : (s.foldBytes key msg).kb = parseBlock key := by
  simp [State.foldBytes]
@[simp] theorem State.foldBytes_mb (s : State) (key msg : List Byte) : (s.foldBytes key msg).mb = parseBlock msg := by
  simp [State.foldBytes]
@[simp] theorem State.foldBytes_xb (s : State) (key msg : List Byte) : (s.foldBytes key msg).xb = addBlocks (parseBlock key) (parseBlock msg) := by
  simp [State.foldBytes]
@[simp] theorem State.foldBytes_zb (s : State) (key msg : List Byte) : (s.foldBytes key msg).zb = f128 (addBlocks (parseBlock key) (parseBlock msg)) := by
  simp [State.foldBytes]
@[simp] theorem State.foldBytes_acc (s : State) (key msg : List Byte) : (s.foldBytes key msg).acc = accumulate s.acc (f128 (addBlocks (parseBlock key) (parseBlock msg))) := by
  simp [State.foldBytes]
@[simp] theorem State.foldBytes_job (s : State) (key msg : List Byte) : (s.foldBytes key msg).job = s.job := by
  simp [State.foldBytes]
@[simp] theorem State.foldBytes_mem (s : State) (key msg : List Byte) : (s.foldBytes key msg).mem = s.mem := by
  simp [State.foldBytes]
@[simp] theorem State.foldBytes_platform (s : State) (key msg : List Byte) : (s.foldBytes key msg).platform = s.platform := by
  simp [State.foldBytes]
@[simp] theorem State.foldBytes_inputs (s : State) (key msg : List Byte) : (s.foldBytes key msg).inputs = s.inputs := by
  simp [State.foldBytes]
@[simp] theorem State.foldBytes_rdata (s : State) (key msg : List Byte) : (s.foldBytes key msg).rdata = s.rdata := by
  simp [State.foldBytes]
@[simp] theorem State.foldBytes_dirty (s : State) (key msg : List Byte) : (s.foldBytes key msg).dirty = s.dirty := by
  simp [State.foldBytes]
@[simp] theorem State.foldBytes_free (s : State) (key msg : List Byte) : (s.foldBytes key msg).free = s.free := by
  simp [State.foldBytes]

/-! ### A pass over a block -/

@[simp] theorem State.passBlock_ie (s : State) (kr mr : Region) : (s.passBlock kr mr).ie = s.ie := by
  simp [State.passBlock]
@[simp] theorem State.passBlock_busy (s : State) (kr mr : Region) : (s.passBlock kr mr).busy = s.busy := by
  simp [State.passBlock]
@[simp] theorem State.passBlock_done (s : State) (kr mr : Region) : (s.passBlock kr mr).done = s.done := by
  simp [State.passBlock]
@[simp] theorem State.passBlock_ovr (s : State) (kr mr : Region) : (s.passBlock kr mr).ovr = s.ovr := by
  simp [State.passBlock]
@[simp] theorem State.passBlock_err (s : State) (kr mr : Region) : (s.passBlock kr mr).err = s.err := by
  simp [State.passBlock]
@[simp] theorem State.passBlock_lastcmd (s : State) (kr mr : Region) : (s.passBlock kr mr).lastcmd = s.lastcmd := by
  simp [State.passBlock]
@[simp] theorem State.passBlock_kptr (s : State) (kr mr : Region) : (s.passBlock kr mr).kptr = s.kptr := by
  simp [State.passBlock]
@[simp] theorem State.passBlock_mptr (s : State) (kr mr : Region) : (s.passBlock kr mr).mptr = s.mptr := by
  simp [State.passBlock]
@[simp] theorem State.passBlock_dptr (s : State) (kr mr : Region) : (s.passBlock kr mr).dptr = s.dptr := by
  simp [State.passBlock]
@[simp] theorem State.passBlock_klen (s : State) (kr mr : Region) : (s.passBlock kr mr).klen = s.klen := by
  simp [State.passBlock]
@[simp] theorem State.passBlock_mlen (s : State) (kr mr : Region) : (s.passBlock kr mr).mlen = s.mlen := by
  simp [State.passBlock]
@[simp] theorem State.passBlock_bcnt (s : State) (kr mr : Region) : (s.passBlock kr mr).bcnt = s.bcnt := by
  simp [State.passBlock]
@[simp] theorem State.passBlock_kb (s : State) (kr mr : Region) : (s.passBlock kr mr).kb = parseBlock (s.fetch kr) := by
  simp [State.passBlock]
@[simp] theorem State.passBlock_mb (s : State) (kr mr : Region) : (s.passBlock kr mr).mb = parseBlock (s.fetch mr) := by
  simp [State.passBlock]
@[simp] theorem State.passBlock_xb (s : State) (kr mr : Region) : (s.passBlock kr mr).xb = addBlocks (parseBlock (s.fetch kr)) (parseBlock (s.fetch mr)) := by
  simp [State.passBlock]
@[simp] theorem State.passBlock_zb (s : State) (kr mr : Region) : (s.passBlock kr mr).zb = f128 (addBlocks (parseBlock (s.fetch kr)) (parseBlock (s.fetch mr))) := by
  simp [State.passBlock]
@[simp] theorem State.passBlock_acc (s : State) (kr mr : Region) : (s.passBlock kr mr).acc = accumulate s.acc (f128 (addBlocks (parseBlock (s.fetch kr)) (parseBlock (s.fetch mr)))) := by
  simp [State.passBlock]
@[simp] theorem State.passBlock_job (s : State) (kr mr : Region) : (s.passBlock kr mr).job = s.job := by
  simp [State.passBlock]
@[simp] theorem State.passBlock_mem (s : State) (kr mr : Region) : (s.passBlock kr mr).mem = s.mem := by
  simp [State.passBlock]
@[simp] theorem State.passBlock_platform (s : State) (kr mr : Region) : (s.passBlock kr mr).platform = s.platform := by
  simp [State.passBlock]
@[simp] theorem State.passBlock_inputs (s : State) (kr mr : Region) : (s.passBlock kr mr).inputs = s.inputs := by
  simp [State.passBlock]
@[simp] theorem State.passBlock_rdata (s : State) (kr mr : Region) : (s.passBlock kr mr).rdata = s.rdata := by
  simp [State.passBlock]
@[simp] theorem State.passBlock_dirty (s : State) (kr mr : Region) : (s.passBlock kr mr).dirty = s.dirty := by
  simp [State.passBlock]
@[simp] theorem State.passBlock_free (s : State) (kr mr : Region) : (s.passBlock kr mr).free = s.free := by
  simp [State.passBlock]

/-! ### The command in flight -/

@[simp] theorem State.setJob_ie (s : State) (j : Job) : (s.setJob j).ie = s.ie := rfl
@[simp] theorem State.setJob_busy (s : State) (j : Job) : (s.setJob j).busy = s.busy := rfl
@[simp] theorem State.setJob_done (s : State) (j : Job) : (s.setJob j).done = s.done := rfl
@[simp] theorem State.setJob_ovr (s : State) (j : Job) : (s.setJob j).ovr = s.ovr := rfl
@[simp] theorem State.setJob_err (s : State) (j : Job) : (s.setJob j).err = s.err := rfl
@[simp] theorem State.setJob_lastcmd (s : State) (j : Job) : (s.setJob j).lastcmd = s.lastcmd := rfl
@[simp] theorem State.setJob_kptr (s : State) (j : Job) : (s.setJob j).kptr = s.kptr := rfl
@[simp] theorem State.setJob_mptr (s : State) (j : Job) : (s.setJob j).mptr = s.mptr := rfl
@[simp] theorem State.setJob_dptr (s : State) (j : Job) : (s.setJob j).dptr = s.dptr := rfl
@[simp] theorem State.setJob_klen (s : State) (j : Job) : (s.setJob j).klen = s.klen := rfl
@[simp] theorem State.setJob_mlen (s : State) (j : Job) : (s.setJob j).mlen = s.mlen := rfl
@[simp] theorem State.setJob_bcnt (s : State) (j : Job) : (s.setJob j).bcnt = s.bcnt := rfl
@[simp] theorem State.setJob_kb (s : State) (j : Job) : (s.setJob j).kb = s.kb := rfl
@[simp] theorem State.setJob_mb (s : State) (j : Job) : (s.setJob j).mb = s.mb := rfl
@[simp] theorem State.setJob_xb (s : State) (j : Job) : (s.setJob j).xb = s.xb := rfl
@[simp] theorem State.setJob_zb (s : State) (j : Job) : (s.setJob j).zb = s.zb := rfl
@[simp] theorem State.setJob_acc (s : State) (j : Job) : (s.setJob j).acc = s.acc := rfl
@[simp] theorem State.setJob_job (s : State) (j : Job) : (s.setJob j).job = some j := rfl
@[simp] theorem State.setJob_mem (s : State) (j : Job) : (s.setJob j).mem = s.mem := rfl
@[simp] theorem State.setJob_platform (s : State) (j : Job) : (s.setJob j).platform = s.platform := rfl
@[simp] theorem State.setJob_inputs (s : State) (j : Job) : (s.setJob j).inputs = s.inputs := rfl
@[simp] theorem State.setJob_rdata (s : State) (j : Job) : (s.setJob j).rdata = s.rdata := rfl
@[simp] theorem State.setJob_dirty (s : State) (j : Job) : (s.setJob j).dirty = s.dirty := rfl
@[simp] theorem State.setJob_free (s : State) (j : Job) : (s.setJob j).free = s.free := rfl

/-! ### A digest byte written -/

@[simp] theorem State.putByte_ie (s : State) (o : Nat) : (s.putByte o).ie = s.ie := rfl
@[simp] theorem State.putByte_busy (s : State) (o : Nat) : (s.putByte o).busy = s.busy := rfl
@[simp] theorem State.putByte_done (s : State) (o : Nat) : (s.putByte o).done = s.done := rfl
@[simp] theorem State.putByte_ovr (s : State) (o : Nat) : (s.putByte o).ovr = s.ovr := rfl
@[simp] theorem State.putByte_err (s : State) (o : Nat) : (s.putByte o).err = s.err := rfl
@[simp] theorem State.putByte_lastcmd (s : State) (o : Nat) : (s.putByte o).lastcmd = s.lastcmd := rfl
@[simp] theorem State.putByte_kptr (s : State) (o : Nat) : (s.putByte o).kptr = s.kptr := rfl
@[simp] theorem State.putByte_mptr (s : State) (o : Nat) : (s.putByte o).mptr = s.mptr := rfl
@[simp] theorem State.putByte_dptr (s : State) (o : Nat) : (s.putByte o).dptr = s.dptr := rfl
@[simp] theorem State.putByte_klen (s : State) (o : Nat) : (s.putByte o).klen = s.klen := rfl
@[simp] theorem State.putByte_mlen (s : State) (o : Nat) : (s.putByte o).mlen = s.mlen := rfl
@[simp] theorem State.putByte_bcnt (s : State) (o : Nat) : (s.putByte o).bcnt = s.bcnt := rfl
@[simp] theorem State.putByte_kb (s : State) (o : Nat) : (s.putByte o).kb = s.kb := rfl
@[simp] theorem State.putByte_mb (s : State) (o : Nat) : (s.putByte o).mb = s.mb := rfl
@[simp] theorem State.putByte_xb (s : State) (o : Nat) : (s.putByte o).xb = s.xb := rfl
@[simp] theorem State.putByte_zb (s : State) (o : Nat) : (s.putByte o).zb = s.zb := rfl
@[simp] theorem State.putByte_acc (s : State) (o : Nat) : (s.putByte o).acc = s.acc := rfl
@[simp] theorem State.putByte_job (s : State) (o : Nat) : (s.putByte o).job = s.job := rfl
@[simp] theorem State.putByte_mem (s : State) (o : Nat) : (s.putByte o).mem = Memory.write s.mem (s.dptr.toNat + o) ((serializeWords s.acc).getD o 0) := rfl
@[simp] theorem State.putByte_platform (s : State) (o : Nat) : (s.putByte o).platform = s.platform := rfl
@[simp] theorem State.putByte_inputs (s : State) (o : Nat) : (s.putByte o).inputs = s.inputs := rfl
@[simp] theorem State.putByte_rdata (s : State) (o : Nat) : (s.putByte o).rdata = s.rdata := rfl
@[simp] theorem State.putByte_dirty (s : State) (o : Nat) : (s.putByte o).dirty = s.dirty := rfl
@[simp] theorem State.putByte_free (s : State) (o : Nat) : (s.putByte o).free = s.free := rfl

/-! ### A write lost -/

@[simp] theorem State.lost_ie (s : State) : (s.lost).ie = s.ie := rfl
@[simp] theorem State.lost_busy (s : State) : (s.lost).busy = s.busy := rfl
@[simp] theorem State.lost_done (s : State) : (s.lost).done = s.done := rfl
@[simp] theorem State.lost_ovr (s : State) : (s.lost).ovr = true := rfl
@[simp] theorem State.lost_err (s : State) : (s.lost).err = s.err := rfl
@[simp] theorem State.lost_lastcmd (s : State) : (s.lost).lastcmd = s.lastcmd := rfl
@[simp] theorem State.lost_kptr (s : State) : (s.lost).kptr = s.kptr := rfl
@[simp] theorem State.lost_mptr (s : State) : (s.lost).mptr = s.mptr := rfl
@[simp] theorem State.lost_dptr (s : State) : (s.lost).dptr = s.dptr := rfl
@[simp] theorem State.lost_klen (s : State) : (s.lost).klen = s.klen := rfl
@[simp] theorem State.lost_mlen (s : State) : (s.lost).mlen = s.mlen := rfl
@[simp] theorem State.lost_bcnt (s : State) : (s.lost).bcnt = s.bcnt := rfl
@[simp] theorem State.lost_kb (s : State) : (s.lost).kb = s.kb := rfl
@[simp] theorem State.lost_mb (s : State) : (s.lost).mb = s.mb := rfl
@[simp] theorem State.lost_xb (s : State) : (s.lost).xb = s.xb := rfl
@[simp] theorem State.lost_zb (s : State) : (s.lost).zb = s.zb := rfl
@[simp] theorem State.lost_acc (s : State) : (s.lost).acc = s.acc := rfl
@[simp] theorem State.lost_job (s : State) : (s.lost).job = s.job := rfl
@[simp] theorem State.lost_mem (s : State) : (s.lost).mem = s.mem := rfl
@[simp] theorem State.lost_platform (s : State) : (s.lost).platform = s.platform := rfl
@[simp] theorem State.lost_inputs (s : State) : (s.lost).inputs = s.inputs := rfl
@[simp] theorem State.lost_rdata (s : State) : (s.lost).rdata = s.rdata := rfl
@[simp] theorem State.lost_dirty (s : State) : (s.lost).dirty = s.dirty := rfl
@[simp] theorem State.lost_free (s : State) : (s.lost).free = s.free := rfl

/-! ### The core cleared by a reset (R281) -/

@[simp] theorem State.cleared_ie (s : State) : (s.cleared).ie = false := rfl
@[simp] theorem State.cleared_busy (s : State) : (s.cleared).busy = false := rfl
@[simp] theorem State.cleared_done (s : State) : (s.cleared).done = false := rfl
@[simp] theorem State.cleared_ovr (s : State) : (s.cleared).ovr = false := rfl
@[simp] theorem State.cleared_err (s : State) : (s.cleared).err = 0 := rfl
@[simp] theorem State.cleared_lastcmd (s : State) : (s.cleared).lastcmd = 0 := rfl
@[simp] theorem State.cleared_kptr (s : State) : (s.cleared).kptr = 0 := rfl
@[simp] theorem State.cleared_mptr (s : State) : (s.cleared).mptr = 0 := rfl
@[simp] theorem State.cleared_dptr (s : State) : (s.cleared).dptr = 0 := rfl
@[simp] theorem State.cleared_klen (s : State) : (s.cleared).klen = 0 := rfl
@[simp] theorem State.cleared_mlen (s : State) : (s.cleared).mlen = 0 := rfl
@[simp] theorem State.cleared_bcnt (s : State) : (s.cleared).bcnt = 0 := rfl
@[simp] theorem State.cleared_kb (s : State) : (s.cleared).kb = Lanes.fill 0 := rfl
@[simp] theorem State.cleared_mb (s : State) : (s.cleared).mb = Lanes.fill 0 := rfl
@[simp] theorem State.cleared_xb (s : State) : (s.cleared).xb = Lanes.fill 0 := rfl
@[simp] theorem State.cleared_zb (s : State) : (s.cleared).zb = Lanes.fill 0 := rfl
@[simp] theorem State.cleared_acc (s : State) : (s.cleared).acc = Lanes.fill 0 := rfl
@[simp] theorem State.cleared_job (s : State) : (s.cleared).job = none := rfl
@[simp] theorem State.cleared_mem (s : State) : (s.cleared).mem = s.mem := rfl
@[simp] theorem State.cleared_platform (s : State) : (s.cleared).platform = s.platform := rfl
@[simp] theorem State.cleared_inputs (s : State) : (s.cleared).inputs = s.inputs := rfl
@[simp] theorem State.cleared_rdata (s : State) : (s.cleared).rdata = s.rdata := rfl
@[simp] theorem State.cleared_dirty (s : State) : (s.cleared).dirty = [] := rfl
@[simp] theorem State.cleared_free (s : State) : (s.cleared).free = s.free := rfl

/-! ### A digest write cut short -/

@[simp] theorem State.tearDigest_ie (s : State) (b : List Byte) : (s.tearDigest b).ie = s.ie := rfl
@[simp] theorem State.tearDigest_busy (s : State) (b : List Byte) : (s.tearDigest b).busy = s.busy := rfl
@[simp] theorem State.tearDigest_done (s : State) (b : List Byte) : (s.tearDigest b).done = s.done := rfl
@[simp] theorem State.tearDigest_ovr (s : State) (b : List Byte) : (s.tearDigest b).ovr = s.ovr := rfl
@[simp] theorem State.tearDigest_err (s : State) (b : List Byte) : (s.tearDigest b).err = s.err := rfl
@[simp] theorem State.tearDigest_lastcmd (s : State) (b : List Byte) : (s.tearDigest b).lastcmd = s.lastcmd := rfl
@[simp] theorem State.tearDigest_kptr (s : State) (b : List Byte) : (s.tearDigest b).kptr = s.kptr := rfl
@[simp] theorem State.tearDigest_mptr (s : State) (b : List Byte) : (s.tearDigest b).mptr = s.mptr := rfl
@[simp] theorem State.tearDigest_dptr (s : State) (b : List Byte) : (s.tearDigest b).dptr = s.dptr := rfl
@[simp] theorem State.tearDigest_klen (s : State) (b : List Byte) : (s.tearDigest b).klen = s.klen := rfl
@[simp] theorem State.tearDigest_mlen (s : State) (b : List Byte) : (s.tearDigest b).mlen = s.mlen := rfl
@[simp] theorem State.tearDigest_bcnt (s : State) (b : List Byte) : (s.tearDigest b).bcnt = s.bcnt := rfl
@[simp] theorem State.tearDigest_kb (s : State) (b : List Byte) : (s.tearDigest b).kb = s.kb := rfl
@[simp] theorem State.tearDigest_mb (s : State) (b : List Byte) : (s.tearDigest b).mb = s.mb := rfl
@[simp] theorem State.tearDigest_xb (s : State) (b : List Byte) : (s.tearDigest b).xb = s.xb := rfl
@[simp] theorem State.tearDigest_zb (s : State) (b : List Byte) : (s.tearDigest b).zb = s.zb := rfl
@[simp] theorem State.tearDigest_acc (s : State) (b : List Byte) : (s.tearDigest b).acc = s.acc := rfl
@[simp] theorem State.tearDigest_job (s : State) (b : List Byte) : (s.tearDigest b).job = s.job := rfl
@[simp] theorem State.tearDigest_mem (s : State) (b : List Byte) : (s.tearDigest b).mem = Memory.writeBytes s.mem s.dptr.toNat (tornBytes s.mem s.free s.dptr.toNat b) := rfl
@[simp] theorem State.tearDigest_platform (s : State) (b : List Byte) : (s.tearDigest b).platform = s.platform := rfl
@[simp] theorem State.tearDigest_inputs (s : State) (b : List Byte) : (s.tearDigest b).inputs = s.inputs := rfl
@[simp] theorem State.tearDigest_rdata (s : State) (b : List Byte) : (s.tearDigest b).rdata = s.rdata := rfl
@[simp] theorem State.tearDigest_dirty (s : State) (b : List Byte) : (s.tearDigest b).dirty = s.dirty := rfl
@[simp] theorem State.tearDigest_free (s : State) (b : List Byte) : (s.tearDigest b).free = s.free + b.length := rfl

/-! ### KPTR incremented (R115) -/

@[simp] theorem State.bumpKey_ie (s : State) (inc : Bool) : (s.bumpKey inc).ie = s.ie := by
  unfold State.bumpKey; split <;> rfl
@[simp] theorem State.bumpKey_busy (s : State) (inc : Bool) : (s.bumpKey inc).busy = s.busy := by
  unfold State.bumpKey; split <;> rfl
@[simp] theorem State.bumpKey_done (s : State) (inc : Bool) : (s.bumpKey inc).done = s.done := by
  unfold State.bumpKey; split <;> rfl
@[simp] theorem State.bumpKey_ovr (s : State) (inc : Bool) : (s.bumpKey inc).ovr = s.ovr := by
  unfold State.bumpKey; split <;> rfl
@[simp] theorem State.bumpKey_err (s : State) (inc : Bool) : (s.bumpKey inc).err = s.err := by
  unfold State.bumpKey; split <;> rfl
@[simp] theorem State.bumpKey_lastcmd (s : State) (inc : Bool) : (s.bumpKey inc).lastcmd = s.lastcmd := by
  unfold State.bumpKey; split <;> rfl
@[simp] theorem State.bumpKey_kptr (s : State) (inc : Bool) : (s.bumpKey inc).kptr = if inc then s.kptr + 32 else s.kptr := by
  unfold State.bumpKey; split <;> rfl
@[simp] theorem State.bumpKey_mptr (s : State) (inc : Bool) : (s.bumpKey inc).mptr = s.mptr := by
  unfold State.bumpKey; split <;> rfl
@[simp] theorem State.bumpKey_dptr (s : State) (inc : Bool) : (s.bumpKey inc).dptr = s.dptr := by
  unfold State.bumpKey; split <;> rfl
@[simp] theorem State.bumpKey_klen (s : State) (inc : Bool) : (s.bumpKey inc).klen = s.klen := by
  unfold State.bumpKey; split <;> rfl
@[simp] theorem State.bumpKey_mlen (s : State) (inc : Bool) : (s.bumpKey inc).mlen = s.mlen := by
  unfold State.bumpKey; split <;> rfl
@[simp] theorem State.bumpKey_bcnt (s : State) (inc : Bool) : (s.bumpKey inc).bcnt = s.bcnt := by
  unfold State.bumpKey; split <;> rfl
@[simp] theorem State.bumpKey_kb (s : State) (inc : Bool) : (s.bumpKey inc).kb = s.kb := by
  unfold State.bumpKey; split <;> rfl
@[simp] theorem State.bumpKey_mb (s : State) (inc : Bool) : (s.bumpKey inc).mb = s.mb := by
  unfold State.bumpKey; split <;> rfl
@[simp] theorem State.bumpKey_xb (s : State) (inc : Bool) : (s.bumpKey inc).xb = s.xb := by
  unfold State.bumpKey; split <;> rfl
@[simp] theorem State.bumpKey_zb (s : State) (inc : Bool) : (s.bumpKey inc).zb = s.zb := by
  unfold State.bumpKey; split <;> rfl
@[simp] theorem State.bumpKey_acc (s : State) (inc : Bool) : (s.bumpKey inc).acc = s.acc := by
  unfold State.bumpKey; split <;> rfl
@[simp] theorem State.bumpKey_job (s : State) (inc : Bool) : (s.bumpKey inc).job = s.job := by
  unfold State.bumpKey; split <;> rfl
@[simp] theorem State.bumpKey_mem (s : State) (inc : Bool) : (s.bumpKey inc).mem = s.mem := by
  unfold State.bumpKey; split <;> rfl
@[simp] theorem State.bumpKey_platform (s : State) (inc : Bool) : (s.bumpKey inc).platform = s.platform := by
  unfold State.bumpKey; split <;> rfl
@[simp] theorem State.bumpKey_inputs (s : State) (inc : Bool) : (s.bumpKey inc).inputs = s.inputs := by
  unfold State.bumpKey; split <;> rfl
@[simp] theorem State.bumpKey_rdata (s : State) (inc : Bool) : (s.bumpKey inc).rdata = s.rdata := by
  unfold State.bumpKey; split <;> rfl
@[simp] theorem State.bumpKey_dirty (s : State) (inc : Bool) : (s.bumpKey inc).dirty = s.dirty := by
  unfold State.bumpKey; split <;> rfl
@[simp] theorem State.bumpKey_free (s : State) (inc : Bool) : (s.bumpKey inc).free = s.free := by
  unfold State.bumpKey; split <;> rfl

/-! ### MPTR incremented (R115) -/

@[simp] theorem State.bumpMsg_ie (s : State) (inc : Bool) : (s.bumpMsg inc).ie = s.ie := by
  unfold State.bumpMsg; split <;> rfl
@[simp] theorem State.bumpMsg_busy (s : State) (inc : Bool) : (s.bumpMsg inc).busy = s.busy := by
  unfold State.bumpMsg; split <;> rfl
@[simp] theorem State.bumpMsg_done (s : State) (inc : Bool) : (s.bumpMsg inc).done = s.done := by
  unfold State.bumpMsg; split <;> rfl
@[simp] theorem State.bumpMsg_ovr (s : State) (inc : Bool) : (s.bumpMsg inc).ovr = s.ovr := by
  unfold State.bumpMsg; split <;> rfl
@[simp] theorem State.bumpMsg_err (s : State) (inc : Bool) : (s.bumpMsg inc).err = s.err := by
  unfold State.bumpMsg; split <;> rfl
@[simp] theorem State.bumpMsg_lastcmd (s : State) (inc : Bool) : (s.bumpMsg inc).lastcmd = s.lastcmd := by
  unfold State.bumpMsg; split <;> rfl
@[simp] theorem State.bumpMsg_kptr (s : State) (inc : Bool) : (s.bumpMsg inc).kptr = s.kptr := by
  unfold State.bumpMsg; split <;> rfl
@[simp] theorem State.bumpMsg_mptr (s : State) (inc : Bool) : (s.bumpMsg inc).mptr = if inc then s.mptr + 32 else s.mptr := by
  unfold State.bumpMsg; split <;> rfl
@[simp] theorem State.bumpMsg_dptr (s : State) (inc : Bool) : (s.bumpMsg inc).dptr = s.dptr := by
  unfold State.bumpMsg; split <;> rfl
@[simp] theorem State.bumpMsg_klen (s : State) (inc : Bool) : (s.bumpMsg inc).klen = s.klen := by
  unfold State.bumpMsg; split <;> rfl
@[simp] theorem State.bumpMsg_mlen (s : State) (inc : Bool) : (s.bumpMsg inc).mlen = s.mlen := by
  unfold State.bumpMsg; split <;> rfl
@[simp] theorem State.bumpMsg_bcnt (s : State) (inc : Bool) : (s.bumpMsg inc).bcnt = s.bcnt := by
  unfold State.bumpMsg; split <;> rfl
@[simp] theorem State.bumpMsg_kb (s : State) (inc : Bool) : (s.bumpMsg inc).kb = s.kb := by
  unfold State.bumpMsg; split <;> rfl
@[simp] theorem State.bumpMsg_mb (s : State) (inc : Bool) : (s.bumpMsg inc).mb = s.mb := by
  unfold State.bumpMsg; split <;> rfl
@[simp] theorem State.bumpMsg_xb (s : State) (inc : Bool) : (s.bumpMsg inc).xb = s.xb := by
  unfold State.bumpMsg; split <;> rfl
@[simp] theorem State.bumpMsg_zb (s : State) (inc : Bool) : (s.bumpMsg inc).zb = s.zb := by
  unfold State.bumpMsg; split <;> rfl
@[simp] theorem State.bumpMsg_acc (s : State) (inc : Bool) : (s.bumpMsg inc).acc = s.acc := by
  unfold State.bumpMsg; split <;> rfl
@[simp] theorem State.bumpMsg_job (s : State) (inc : Bool) : (s.bumpMsg inc).job = s.job := by
  unfold State.bumpMsg; split <;> rfl
@[simp] theorem State.bumpMsg_mem (s : State) (inc : Bool) : (s.bumpMsg inc).mem = s.mem := by
  unfold State.bumpMsg; split <;> rfl
@[simp] theorem State.bumpMsg_platform (s : State) (inc : Bool) : (s.bumpMsg inc).platform = s.platform := by
  unfold State.bumpMsg; split <;> rfl
@[simp] theorem State.bumpMsg_inputs (s : State) (inc : Bool) : (s.bumpMsg inc).inputs = s.inputs := by
  unfold State.bumpMsg; split <;> rfl
@[simp] theorem State.bumpMsg_rdata (s : State) (inc : Bool) : (s.bumpMsg inc).rdata = s.rdata := by
  unfold State.bumpMsg; split <;> rfl
@[simp] theorem State.bumpMsg_dirty (s : State) (inc : Bool) : (s.bumpMsg inc).dirty = s.dirty := by
  unfold State.bumpMsg; split <;> rfl
@[simp] theorem State.bumpMsg_free (s : State) (inc : Bool) : (s.bumpMsg inc).free = s.free := by
  unfold State.bumpMsg; split <;> rfl

/-! ### DPTR incremented (R115) -/

@[simp] theorem State.bumpDigest_ie (s : State) (inc : Bool) : (s.bumpDigest inc).ie = s.ie := by
  unfold State.bumpDigest; split <;> rfl
@[simp] theorem State.bumpDigest_busy (s : State) (inc : Bool) : (s.bumpDigest inc).busy = s.busy := by
  unfold State.bumpDigest; split <;> rfl
@[simp] theorem State.bumpDigest_done (s : State) (inc : Bool) : (s.bumpDigest inc).done = s.done := by
  unfold State.bumpDigest; split <;> rfl
@[simp] theorem State.bumpDigest_ovr (s : State) (inc : Bool) : (s.bumpDigest inc).ovr = s.ovr := by
  unfold State.bumpDigest; split <;> rfl
@[simp] theorem State.bumpDigest_err (s : State) (inc : Bool) : (s.bumpDigest inc).err = s.err := by
  unfold State.bumpDigest; split <;> rfl
@[simp] theorem State.bumpDigest_lastcmd (s : State) (inc : Bool) : (s.bumpDigest inc).lastcmd = s.lastcmd := by
  unfold State.bumpDigest; split <;> rfl
@[simp] theorem State.bumpDigest_kptr (s : State) (inc : Bool) : (s.bumpDigest inc).kptr = s.kptr := by
  unfold State.bumpDigest; split <;> rfl
@[simp] theorem State.bumpDigest_mptr (s : State) (inc : Bool) : (s.bumpDigest inc).mptr = s.mptr := by
  unfold State.bumpDigest; split <;> rfl
@[simp] theorem State.bumpDigest_dptr (s : State) (inc : Bool) : (s.bumpDigest inc).dptr = if inc then s.dptr + 64 else s.dptr := by
  unfold State.bumpDigest; split <;> rfl
@[simp] theorem State.bumpDigest_klen (s : State) (inc : Bool) : (s.bumpDigest inc).klen = s.klen := by
  unfold State.bumpDigest; split <;> rfl
@[simp] theorem State.bumpDigest_mlen (s : State) (inc : Bool) : (s.bumpDigest inc).mlen = s.mlen := by
  unfold State.bumpDigest; split <;> rfl
@[simp] theorem State.bumpDigest_bcnt (s : State) (inc : Bool) : (s.bumpDigest inc).bcnt = s.bcnt := by
  unfold State.bumpDigest; split <;> rfl
@[simp] theorem State.bumpDigest_kb (s : State) (inc : Bool) : (s.bumpDigest inc).kb = s.kb := by
  unfold State.bumpDigest; split <;> rfl
@[simp] theorem State.bumpDigest_mb (s : State) (inc : Bool) : (s.bumpDigest inc).mb = s.mb := by
  unfold State.bumpDigest; split <;> rfl
@[simp] theorem State.bumpDigest_xb (s : State) (inc : Bool) : (s.bumpDigest inc).xb = s.xb := by
  unfold State.bumpDigest; split <;> rfl
@[simp] theorem State.bumpDigest_zb (s : State) (inc : Bool) : (s.bumpDigest inc).zb = s.zb := by
  unfold State.bumpDigest; split <;> rfl
@[simp] theorem State.bumpDigest_acc (s : State) (inc : Bool) : (s.bumpDigest inc).acc = s.acc := by
  unfold State.bumpDigest; split <;> rfl
@[simp] theorem State.bumpDigest_job (s : State) (inc : Bool) : (s.bumpDigest inc).job = s.job := by
  unfold State.bumpDigest; split <;> rfl
@[simp] theorem State.bumpDigest_mem (s : State) (inc : Bool) : (s.bumpDigest inc).mem = s.mem := by
  unfold State.bumpDigest; split <;> rfl
@[simp] theorem State.bumpDigest_platform (s : State) (inc : Bool) : (s.bumpDigest inc).platform = s.platform := by
  unfold State.bumpDigest; split <;> rfl
@[simp] theorem State.bumpDigest_inputs (s : State) (inc : Bool) : (s.bumpDigest inc).inputs = s.inputs := by
  unfold State.bumpDigest; split <;> rfl
@[simp] theorem State.bumpDigest_rdata (s : State) (inc : Bool) : (s.bumpDigest inc).rdata = s.rdata := by
  unfold State.bumpDigest; split <;> rfl
@[simp] theorem State.bumpDigest_dirty (s : State) (inc : Bool) : (s.bumpDigest inc).dirty = s.dirty := by
  unfold State.bumpDigest; split <;> rfl
@[simp] theorem State.bumpDigest_free (s : State) (inc : Bool) : (s.bumpDigest inc).free = s.free := by
  unfold State.bumpDigest; split <;> rfl

/-! ### KB settled (R91) -/

@[simp] theorem State.settleKey_ie (s : State) (r : Region) : (s.settleKey r).ie = s.ie := by
  unfold State.settleKey; split <;> rfl
@[simp] theorem State.settleKey_busy (s : State) (r : Region) : (s.settleKey r).busy = s.busy := by
  unfold State.settleKey; split <;> rfl
@[simp] theorem State.settleKey_done (s : State) (r : Region) : (s.settleKey r).done = s.done := by
  unfold State.settleKey; split <;> rfl
@[simp] theorem State.settleKey_ovr (s : State) (r : Region) : (s.settleKey r).ovr = s.ovr := by
  unfold State.settleKey; split <;> rfl
@[simp] theorem State.settleKey_err (s : State) (r : Region) : (s.settleKey r).err = s.err := by
  unfold State.settleKey; split <;> rfl
@[simp] theorem State.settleKey_lastcmd (s : State) (r : Region) : (s.settleKey r).lastcmd = s.lastcmd := by
  unfold State.settleKey; split <;> rfl
@[simp] theorem State.settleKey_kptr (s : State) (r : Region) : (s.settleKey r).kptr = s.kptr := by
  unfold State.settleKey; split <;> rfl
@[simp] theorem State.settleKey_mptr (s : State) (r : Region) : (s.settleKey r).mptr = s.mptr := by
  unfold State.settleKey; split <;> rfl
@[simp] theorem State.settleKey_dptr (s : State) (r : Region) : (s.settleKey r).dptr = s.dptr := by
  unfold State.settleKey; split <;> rfl
@[simp] theorem State.settleKey_klen (s : State) (r : Region) : (s.settleKey r).klen = s.klen := by
  unfold State.settleKey; split <;> rfl
@[simp] theorem State.settleKey_mlen (s : State) (r : Region) : (s.settleKey r).mlen = s.mlen := by
  unfold State.settleKey; split <;> rfl
@[simp] theorem State.settleKey_bcnt (s : State) (r : Region) : (s.settleKey r).bcnt = s.bcnt := by
  unfold State.settleKey; split <;> rfl
@[simp] theorem State.settleKey_kb (s : State) (r : Region) : (s.settleKey r).kb = if s.raced r then drawWords s.free else s.kb := by
  unfold State.settleKey; split <;> rfl
@[simp] theorem State.settleKey_mb (s : State) (r : Region) : (s.settleKey r).mb = s.mb := by
  unfold State.settleKey; split <;> rfl
@[simp] theorem State.settleKey_xb (s : State) (r : Region) : (s.settleKey r).xb = s.xb := by
  unfold State.settleKey; split <;> rfl
@[simp] theorem State.settleKey_zb (s : State) (r : Region) : (s.settleKey r).zb = s.zb := by
  unfold State.settleKey; split <;> rfl
@[simp] theorem State.settleKey_acc (s : State) (r : Region) : (s.settleKey r).acc = s.acc := by
  unfold State.settleKey; split <;> rfl
@[simp] theorem State.settleKey_job (s : State) (r : Region) : (s.settleKey r).job = s.job := by
  unfold State.settleKey; split <;> rfl
@[simp] theorem State.settleKey_mem (s : State) (r : Region) : (s.settleKey r).mem = s.mem := by
  unfold State.settleKey; split <;> rfl
@[simp] theorem State.settleKey_platform (s : State) (r : Region) : (s.settleKey r).platform = s.platform := by
  unfold State.settleKey; split <;> rfl
@[simp] theorem State.settleKey_inputs (s : State) (r : Region) : (s.settleKey r).inputs = s.inputs := by
  unfold State.settleKey; split <;> rfl
@[simp] theorem State.settleKey_rdata (s : State) (r : Region) : (s.settleKey r).rdata = s.rdata := by
  unfold State.settleKey; split <;> rfl
@[simp] theorem State.settleKey_dirty (s : State) (r : Region) : (s.settleKey r).dirty = s.dirty := by
  unfold State.settleKey; split <;> rfl
@[simp] theorem State.settleKey_free (s : State) (r : Region) : (s.settleKey r).free = if s.raced r then s.free + 8 else s.free := by
  unfold State.settleKey; split <;> rfl

/-! ### MB settled (R91) -/

@[simp] theorem State.settleMsg_ie (s : State) (r : Region) : (s.settleMsg r).ie = s.ie := by
  unfold State.settleMsg; split <;> rfl
@[simp] theorem State.settleMsg_busy (s : State) (r : Region) : (s.settleMsg r).busy = s.busy := by
  unfold State.settleMsg; split <;> rfl
@[simp] theorem State.settleMsg_done (s : State) (r : Region) : (s.settleMsg r).done = s.done := by
  unfold State.settleMsg; split <;> rfl
@[simp] theorem State.settleMsg_ovr (s : State) (r : Region) : (s.settleMsg r).ovr = s.ovr := by
  unfold State.settleMsg; split <;> rfl
@[simp] theorem State.settleMsg_err (s : State) (r : Region) : (s.settleMsg r).err = s.err := by
  unfold State.settleMsg; split <;> rfl
@[simp] theorem State.settleMsg_lastcmd (s : State) (r : Region) : (s.settleMsg r).lastcmd = s.lastcmd := by
  unfold State.settleMsg; split <;> rfl
@[simp] theorem State.settleMsg_kptr (s : State) (r : Region) : (s.settleMsg r).kptr = s.kptr := by
  unfold State.settleMsg; split <;> rfl
@[simp] theorem State.settleMsg_mptr (s : State) (r : Region) : (s.settleMsg r).mptr = s.mptr := by
  unfold State.settleMsg; split <;> rfl
@[simp] theorem State.settleMsg_dptr (s : State) (r : Region) : (s.settleMsg r).dptr = s.dptr := by
  unfold State.settleMsg; split <;> rfl
@[simp] theorem State.settleMsg_klen (s : State) (r : Region) : (s.settleMsg r).klen = s.klen := by
  unfold State.settleMsg; split <;> rfl
@[simp] theorem State.settleMsg_mlen (s : State) (r : Region) : (s.settleMsg r).mlen = s.mlen := by
  unfold State.settleMsg; split <;> rfl
@[simp] theorem State.settleMsg_bcnt (s : State) (r : Region) : (s.settleMsg r).bcnt = s.bcnt := by
  unfold State.settleMsg; split <;> rfl
@[simp] theorem State.settleMsg_kb (s : State) (r : Region) : (s.settleMsg r).kb = s.kb := by
  unfold State.settleMsg; split <;> rfl
@[simp] theorem State.settleMsg_mb (s : State) (r : Region) : (s.settleMsg r).mb = if s.raced r then drawWords s.free else s.mb := by
  unfold State.settleMsg; split <;> rfl
@[simp] theorem State.settleMsg_xb (s : State) (r : Region) : (s.settleMsg r).xb = s.xb := by
  unfold State.settleMsg; split <;> rfl
@[simp] theorem State.settleMsg_zb (s : State) (r : Region) : (s.settleMsg r).zb = s.zb := by
  unfold State.settleMsg; split <;> rfl
@[simp] theorem State.settleMsg_acc (s : State) (r : Region) : (s.settleMsg r).acc = s.acc := by
  unfold State.settleMsg; split <;> rfl
@[simp] theorem State.settleMsg_job (s : State) (r : Region) : (s.settleMsg r).job = s.job := by
  unfold State.settleMsg; split <;> rfl
@[simp] theorem State.settleMsg_mem (s : State) (r : Region) : (s.settleMsg r).mem = s.mem := by
  unfold State.settleMsg; split <;> rfl
@[simp] theorem State.settleMsg_platform (s : State) (r : Region) : (s.settleMsg r).platform = s.platform := by
  unfold State.settleMsg; split <;> rfl
@[simp] theorem State.settleMsg_inputs (s : State) (r : Region) : (s.settleMsg r).inputs = s.inputs := by
  unfold State.settleMsg; split <;> rfl
@[simp] theorem State.settleMsg_rdata (s : State) (r : Region) : (s.settleMsg r).rdata = s.rdata := by
  unfold State.settleMsg; split <;> rfl
@[simp] theorem State.settleMsg_dirty (s : State) (r : Region) : (s.settleMsg r).dirty = s.dirty := by
  unfold State.settleMsg; split <;> rfl
@[simp] theorem State.settleMsg_free (s : State) (r : Region) : (s.settleMsg r).free = if s.raced r then s.free + 8 else s.free := by
  unfold State.settleMsg; split <;> rfl

/-! ### XB, ZB and ACC settled (R91) -/

@[simp] theorem State.settleSums_ie (s : State) (kr mr : Region) : (s.settleSums kr mr).ie = s.ie := by
  unfold State.settleSums; split <;> rfl
@[simp] theorem State.settleSums_busy (s : State) (kr mr : Region) : (s.settleSums kr mr).busy = s.busy := by
  unfold State.settleSums; split <;> rfl
@[simp] theorem State.settleSums_done (s : State) (kr mr : Region) : (s.settleSums kr mr).done = s.done := by
  unfold State.settleSums; split <;> rfl
@[simp] theorem State.settleSums_ovr (s : State) (kr mr : Region) : (s.settleSums kr mr).ovr = s.ovr := by
  unfold State.settleSums; split <;> rfl
@[simp] theorem State.settleSums_err (s : State) (kr mr : Region) : (s.settleSums kr mr).err = s.err := by
  unfold State.settleSums; split <;> rfl
@[simp] theorem State.settleSums_lastcmd (s : State) (kr mr : Region) : (s.settleSums kr mr).lastcmd = s.lastcmd := by
  unfold State.settleSums; split <;> rfl
@[simp] theorem State.settleSums_kptr (s : State) (kr mr : Region) : (s.settleSums kr mr).kptr = s.kptr := by
  unfold State.settleSums; split <;> rfl
@[simp] theorem State.settleSums_mptr (s : State) (kr mr : Region) : (s.settleSums kr mr).mptr = s.mptr := by
  unfold State.settleSums; split <;> rfl
@[simp] theorem State.settleSums_dptr (s : State) (kr mr : Region) : (s.settleSums kr mr).dptr = s.dptr := by
  unfold State.settleSums; split <;> rfl
@[simp] theorem State.settleSums_klen (s : State) (kr mr : Region) : (s.settleSums kr mr).klen = s.klen := by
  unfold State.settleSums; split <;> rfl
@[simp] theorem State.settleSums_mlen (s : State) (kr mr : Region) : (s.settleSums kr mr).mlen = s.mlen := by
  unfold State.settleSums; split <;> rfl
@[simp] theorem State.settleSums_bcnt (s : State) (kr mr : Region) : (s.settleSums kr mr).bcnt = s.bcnt := by
  unfold State.settleSums; split <;> rfl
@[simp] theorem State.settleSums_kb (s : State) (kr mr : Region) : (s.settleSums kr mr).kb = s.kb := by
  unfold State.settleSums; split <;> rfl
@[simp] theorem State.settleSums_mb (s : State) (kr mr : Region) : (s.settleSums kr mr).mb = s.mb := by
  unfold State.settleSums; split <;> rfl
@[simp] theorem State.settleSums_xb (s : State) (kr mr : Region) : (s.settleSums kr mr).xb = if s.raced kr || s.raced mr then drawWords s.free else s.xb := by
  unfold State.settleSums; split <;> rfl
@[simp] theorem State.settleSums_zb (s : State) (kr mr : Region) : (s.settleSums kr mr).zb = if s.raced kr || s.raced mr then drawDWords (s.free + 8) else s.zb := by
  unfold State.settleSums; split <;> rfl
@[simp] theorem State.settleSums_acc (s : State) (kr mr : Region) : (s.settleSums kr mr).acc = if s.raced kr || s.raced mr then drawDWords (s.free + 8 + 8) else s.acc := by
  unfold State.settleSums; split <;> rfl
@[simp] theorem State.settleSums_job (s : State) (kr mr : Region) : (s.settleSums kr mr).job = s.job := by
  unfold State.settleSums; split <;> rfl
@[simp] theorem State.settleSums_mem (s : State) (kr mr : Region) : (s.settleSums kr mr).mem = s.mem := by
  unfold State.settleSums; split <;> rfl
@[simp] theorem State.settleSums_platform (s : State) (kr mr : Region) : (s.settleSums kr mr).platform = s.platform := by
  unfold State.settleSums; split <;> rfl
@[simp] theorem State.settleSums_inputs (s : State) (kr mr : Region) : (s.settleSums kr mr).inputs = s.inputs := by
  unfold State.settleSums; split <;> rfl
@[simp] theorem State.settleSums_rdata (s : State) (kr mr : Region) : (s.settleSums kr mr).rdata = s.rdata := by
  unfold State.settleSums; split <;> rfl
@[simp] theorem State.settleSums_dirty (s : State) (kr mr : Region) : (s.settleSums kr mr).dirty = s.dirty := by
  unfold State.settleSums; split <;> rfl
@[simp] theorem State.settleSums_free (s : State) (kr mr : Region) : (s.settleSums kr mr).free = if s.raced kr || s.raced mr then s.free + 8 + 8 + 8 else s.free := by
  unfold State.settleSums; split <;> rfl

/-! ### The digest written -/

@[simp] theorem State.landDigest_ie (s : State) (b : List Byte) : (s.landDigest b).ie = s.ie := rfl
@[simp] theorem State.landDigest_busy (s : State) (b : List Byte) : (s.landDigest b).busy = s.busy := rfl
@[simp] theorem State.landDigest_done (s : State) (b : List Byte) : (s.landDigest b).done = s.done := rfl
@[simp] theorem State.landDigest_ovr (s : State) (b : List Byte) : (s.landDigest b).ovr = s.ovr := rfl
@[simp] theorem State.landDigest_err (s : State) (b : List Byte) : (s.landDigest b).err = s.err := rfl
@[simp] theorem State.landDigest_lastcmd (s : State) (b : List Byte) : (s.landDigest b).lastcmd = s.lastcmd := rfl
@[simp] theorem State.landDigest_kptr (s : State) (b : List Byte) : (s.landDigest b).kptr = s.kptr := rfl
@[simp] theorem State.landDigest_mptr (s : State) (b : List Byte) : (s.landDigest b).mptr = s.mptr := rfl
@[simp] theorem State.landDigest_dptr (s : State) (b : List Byte) : (s.landDigest b).dptr = s.dptr := rfl
@[simp] theorem State.landDigest_klen (s : State) (b : List Byte) : (s.landDigest b).klen = s.klen := rfl
@[simp] theorem State.landDigest_mlen (s : State) (b : List Byte) : (s.landDigest b).mlen = s.mlen := rfl
@[simp] theorem State.landDigest_bcnt (s : State) (b : List Byte) : (s.landDigest b).bcnt = s.bcnt := rfl
@[simp] theorem State.landDigest_kb (s : State) (b : List Byte) : (s.landDigest b).kb = s.kb := rfl
@[simp] theorem State.landDigest_mb (s : State) (b : List Byte) : (s.landDigest b).mb = s.mb := rfl
@[simp] theorem State.landDigest_xb (s : State) (b : List Byte) : (s.landDigest b).xb = s.xb := rfl
@[simp] theorem State.landDigest_zb (s : State) (b : List Byte) : (s.landDigest b).zb = s.zb := rfl
@[simp] theorem State.landDigest_acc (s : State) (b : List Byte) : (s.landDigest b).acc = s.acc := rfl
@[simp] theorem State.landDigest_job (s : State) (b : List Byte) : (s.landDigest b).job = s.job := rfl
@[simp] theorem State.landDigest_mem (s : State) (b : List Byte) : (s.landDigest b).mem = Memory.writeBytes s.mem s.dptr.toNat b := rfl
@[simp] theorem State.landDigest_platform (s : State) (b : List Byte) : (s.landDigest b).platform = s.platform := rfl
@[simp] theorem State.landDigest_inputs (s : State) (b : List Byte) : (s.landDigest b).inputs = s.inputs := rfl
@[simp] theorem State.landDigest_rdata (s : State) (b : List Byte) : (s.landDigest b).rdata = s.rdata := rfl
@[simp] theorem State.landDigest_dirty (s : State) (b : List Byte) : (s.landDigest b).dirty = s.dirty := rfl
@[simp] theorem State.landDigest_free (s : State) (b : List Byte) : (s.landDigest b).free = s.free := rfl

/-! ### Raced digest bytes settled (R91) -/

@[simp] theorem State.settleDigest_ie (s : State) : (s.settleDigest).ie = s.ie := by
  unfold State.settleDigest; split <;> rfl
@[simp] theorem State.settleDigest_busy (s : State) : (s.settleDigest).busy = s.busy := by
  unfold State.settleDigest; split <;> rfl
@[simp] theorem State.settleDigest_done (s : State) : (s.settleDigest).done = s.done := by
  unfold State.settleDigest; split <;> rfl
@[simp] theorem State.settleDigest_ovr (s : State) : (s.settleDigest).ovr = s.ovr := by
  unfold State.settleDigest; split <;> rfl
@[simp] theorem State.settleDigest_err (s : State) : (s.settleDigest).err = s.err := by
  unfold State.settleDigest; split <;> rfl
@[simp] theorem State.settleDigest_lastcmd (s : State) : (s.settleDigest).lastcmd = s.lastcmd := by
  unfold State.settleDigest; split <;> rfl
@[simp] theorem State.settleDigest_kptr (s : State) : (s.settleDigest).kptr = s.kptr := by
  unfold State.settleDigest; split <;> rfl
@[simp] theorem State.settleDigest_mptr (s : State) : (s.settleDigest).mptr = s.mptr := by
  unfold State.settleDigest; split <;> rfl
@[simp] theorem State.settleDigest_dptr (s : State) : (s.settleDigest).dptr = s.dptr := by
  unfold State.settleDigest; split <;> rfl
@[simp] theorem State.settleDigest_klen (s : State) : (s.settleDigest).klen = s.klen := by
  unfold State.settleDigest; split <;> rfl
@[simp] theorem State.settleDigest_mlen (s : State) : (s.settleDigest).mlen = s.mlen := by
  unfold State.settleDigest; split <;> rfl
@[simp] theorem State.settleDigest_bcnt (s : State) : (s.settleDigest).bcnt = s.bcnt := by
  unfold State.settleDigest; split <;> rfl
@[simp] theorem State.settleDigest_kb (s : State) : (s.settleDigest).kb = s.kb := by
  unfold State.settleDigest; split <;> rfl
@[simp] theorem State.settleDigest_mb (s : State) : (s.settleDigest).mb = s.mb := by
  unfold State.settleDigest; split <;> rfl
@[simp] theorem State.settleDigest_xb (s : State) : (s.settleDigest).xb = s.xb := by
  unfold State.settleDigest; split <;> rfl
@[simp] theorem State.settleDigest_zb (s : State) : (s.settleDigest).zb = s.zb := by
  unfold State.settleDigest; split <;> rfl
@[simp] theorem State.settleDigest_acc (s : State) : (s.settleDigest).acc = s.acc := by
  unfold State.settleDigest; split <;> rfl
@[simp] theorem State.settleDigest_job (s : State) : (s.settleDigest).job = s.job := by
  unfold State.settleDigest; split <;> rfl
@[simp] theorem State.settleDigest_mem (s : State) : (s.settleDigest).mem = if s.raced s.digestRange then freeRaced s.dirty s.free s.dptr.toNat 64 s.mem else s.mem := by
  unfold State.settleDigest; split <;> rfl
@[simp] theorem State.settleDigest_platform (s : State) : (s.settleDigest).platform = s.platform := by
  unfold State.settleDigest; split <;> rfl
@[simp] theorem State.settleDigest_inputs (s : State) : (s.settleDigest).inputs = s.inputs := by
  unfold State.settleDigest; split <;> rfl
@[simp] theorem State.settleDigest_rdata (s : State) : (s.settleDigest).rdata = s.rdata := by
  unfold State.settleDigest; split <;> rfl
@[simp] theorem State.settleDigest_dirty (s : State) : (s.settleDigest).dirty = s.dirty := by
  unfold State.settleDigest; split <;> rfl
@[simp] theorem State.settleDigest_free (s : State) : (s.settleDigest).free = if s.raced s.digestRange then s.free + 64 else s.free := by
  unfold State.settleDigest; split <;> rfl

end Machine

end Sys2Proof
end

