-- ==== Sys2Proof/Laws/Memory.lean ====
section
/-!
SUPPORT. The laws of system memory: reading after writing, and that every memory operation keeps the canonical form.
-/

namespace Sys2Proof.Machine

/-! ### One byte -/

theorem Memory.above_iff (a : Nat) (m : Memory) : Memory.above a m = true ↔ ∀ c ∈ m, a < c.1 := by
  simp [Memory.above]

theorem Memory.above_mono {a b : Nat} {m : Memory} (h : a ≤ b) (hm : Memory.above b m = true) :
    Memory.above a m = true := by
  rw [Memory.above_iff] at *
  exact fun c hc => lt_of_le_of_lt h (hm c hc)

theorem Memory.wf_cons_iff (c : Host.Cell) (m : Memory) :
    Memory.wf (c :: m) = true ↔
      Memory.above c.1 m = true ∧ c.1 < Config.memoryBytes ∧ c.2 ≠ unlistedByte ∧ Memory.wf m = true := by
  simp [Memory.wf, and_assoc]

theorem Memory.read_above {a : Nat} {m : Memory} (h : Memory.above a m = true) : Memory.read m a = unlistedByte := by
  induction m with
  | nil => rfl
  | cons c m ih =>
    have hc : a < c.1 := (Memory.above_iff a _).1 h c (by simp)
    have hm : Memory.above a m = true := (Memory.above_iff a _).2 fun d hd => (Memory.above_iff a _).1 h d (by simp [hd])
    simp [Memory.read, ih hm, Nat.ne_of_gt hc]

theorem Memory.above_put {x a : Nat} {b : Byte} {m : Memory} (hx : x < a) (hm : Memory.above x m = true) :
    Memory.above x (Memory.cons a b m) = true := by
  unfold Memory.cons
  split
  · exact hm
  · simp only [Memory.above_iff] at *
    rintro c (_ | ⟨_, hc⟩)
    · exact hx
    · exact hm c hc

theorem Memory.above_write {x a : Nat} {b : Byte} {m : Memory} (hx : x < a) (hm : Memory.above x m = true) :
    Memory.above x (Memory.write m a b) = true := by
  induction m with
  | nil => exact Memory.above_put hx (by rfl)
  | cons c m ih =>
    have hc : x < c.1 := (Memory.above_iff x _).1 hm c (by simp)
    have htl : Memory.above x m = true :=
      (Memory.above_iff x _).2 fun d hd => (Memory.above_iff x _).1 hm d (by simp [hd])
    unfold Memory.write
    split
    · exact Memory.above_put hx hm
    · split
      · exact Memory.above_put hx htl
      · have := ih htl
        simp only [Memory.above_iff] at this ⊢
        rintro d (_ | ⟨_, hd⟩)
        · exact hc
        · exact this d hd

theorem Memory.wf_put {a : Nat} {b : Byte} {m : Memory} (ha : a < Config.memoryBytes)
    (habove : Memory.above a m = true) (hm : Memory.wf m = true) : Memory.wf (Memory.cons a b m) = true := by
  unfold Memory.cons
  split
  · exact hm
  · exact (Memory.wf_cons_iff _ _).2 ⟨habove, ha, by assumption, hm⟩

/-- Writing a byte below 2^32 keeps the canonical form. -/
theorem Memory.wf_write {a : Nat} {m : Memory} (b : Byte) (ha : a < Config.memoryBytes) (hm : Memory.wf m = true) :
    Memory.wf (Memory.write m a b) = true := by
  induction m with
  | nil => exact Memory.wf_put ha (by rfl) (by rfl)
  | cons c m ih =>
    obtain ⟨habove, hlt, hne, htl⟩ := (Memory.wf_cons_iff _ _).1 hm
    unfold Memory.write
    split
    · refine Memory.wf_put ha ?_ hm
      rw [Memory.above_iff]
      rintro d (_ | ⟨_, hd⟩)
      · assumption
      · exact lt_trans ‹a < c.1› ((Memory.above_iff _ _).1 habove d hd)
    · split
      · subst a
        exact Memory.wf_put ha habove htl
      · exact (Memory.wf_cons_iff _ _).2 ⟨Memory.above_write (by omega) habove, hlt, hne, ih htl⟩

theorem Memory.read_put_same {a : Nat} {b : Byte} {m : Memory} (h : Memory.above a m = true) :
    Memory.read (Memory.cons a b m) a = b := by
  unfold Memory.cons
  split
  · rw [Memory.read_above h]; exact (by assumption : b = unlistedByte).symm
  · simp [Memory.read]

theorem Memory.read_put_other {a x : Nat} {b : Byte} {m : Memory} (h : x ≠ a) :
    Memory.read (Memory.cons a b m) x = Memory.read m x := by
  unfold Memory.cons
  split
  · rfl
  · simp [Memory.read, Ne.symm h]

/-- A read after a write to the same address gives the byte written. -/
theorem Memory.read_write_same {a : Nat} {m : Memory} (b : Byte) (hm : Memory.wf m = true) :
    Memory.read (Memory.write m a b) a = b := by
  induction m with
  | nil => exact Memory.read_put_same (by rfl)
  | cons c m ih =>
    obtain ⟨habove, _, _, htl⟩ := (Memory.wf_cons_iff _ _).1 hm
    unfold Memory.write
    split
    · refine Memory.read_put_same ?_
      rw [Memory.above_iff]
      rintro d (_ | ⟨_, hd⟩)
      · assumption
      · exact lt_trans ‹a < c.1› ((Memory.above_iff _ _).1 habove d hd)
    · split
      · subst a; exact Memory.read_put_same habove
      · simp [Memory.read, ih htl, Ne.symm ‹¬a = c.1›]

/-- A write leaves every other address alone. -/
theorem Memory.read_write_other {a x : Nat} (m : Memory) (b : Byte) (h : x ≠ a) :
    Memory.read (Memory.write m a b) x = Memory.read m x := by
  induction m with
  | nil => exact Memory.read_put_other h
  | cons c m ih =>
    unfold Memory.write
    split
    · exact Memory.read_put_other h
    · split
      · subst a; rw [Memory.read_put_other h]; simp [Memory.read, Ne.symm h]
      · simp [Memory.read, ih]

/-! ### Byte sequences -/

@[simp] theorem Memory.readBytes_length (m : Memory) (a n : Nat) : (Memory.readBytes m a n).length = n := by
  induction n generalizing a with
  | zero => rfl
  | succ n ih => simp [Memory.readBytes, ih]

theorem Memory.readBytes_getD (m : Memory) (a n i : Nat) (h : i < n) :
    (Memory.readBytes m a n).getD i 0 = Memory.read m (a + i) := by
  induction n generalizing a i with
  | zero => omega
  | succ n ih =>
    cases i with
    | zero => rfl
    | succ i =>
      have := ih (a + 1) i (by omega)
      simp only [Memory.readBytes, List.getD_cons_succ, this]
      congr 1; omega

/-- A byte sequence depends only on the bytes of its range. -/
theorem Memory.readBytes_congr {m m' : Memory} {a a' n : Nat}
    (h : ∀ i < n, Memory.read m (a + i) = Memory.read m' (a' + i)) :
    Memory.readBytes m a n = Memory.readBytes m' a' n := by
  induction n generalizing a a' with
  | zero => rfl
  | succ n ih =>
    simp only [Memory.readBytes]
    congr 1
    · exact h 0 (by omega)
    · refine ih fun i hi => ?_
      have := h (i + 1) (by omega)
      rwa [show a + (i + 1) = a + 1 + i by omega, show a' + (i + 1) = a' + 1 + i by omega] at this

theorem Memory.wf_writeBytes {a : Nat} {m : Memory} (bytes : List Byte)
    (ha : a + bytes.length ≤ Config.memoryBytes) (hm : Memory.wf m = true) :
    Memory.wf (Memory.writeBytes m a bytes) = true := by
  induction bytes generalizing a m with
  | nil => exact hm
  | cons b rest ih =>
    simp only [List.length_cons] at ha
    exact ih (by omega) (Memory.wf_write b (by omega) hm)

/-- A sequence written leaves every address outside it alone. -/
theorem Memory.read_writeBytes_outside {a x : Nat} (m : Memory) (bytes : List Byte)
    (h : x < a ∨ a + bytes.length ≤ x) : Memory.read (Memory.writeBytes m a bytes) x = Memory.read m x := by
  induction bytes generalizing a m with
  | nil => rfl
  | cons b rest ih =>
    simp only [List.length_cons] at h
    rw [Memory.writeBytes, ih _ (by omega), Memory.read_write_other _ _ (by omega)]

/-- Byte `i` of a sequence written is read back at its address. -/
theorem Memory.read_writeBytes_inside {a i : Nat} {m : Memory} (bytes : List Byte) (hm : Memory.wf m = true)
    (ha : a + bytes.length ≤ Config.memoryBytes) (hi : i < bytes.length) :
    Memory.read (Memory.writeBytes m a bytes) (a + i) = bytes.getD i 0 := by
  induction bytes generalizing a i m with
  | nil => simp at hi
  | cons b rest ih =>
    simp only [List.length_cons] at ha hi
    cases i with
    | zero =>
      rw [Memory.writeBytes, Memory.read_writeBytes_outside _ _ (by omega), Nat.add_zero,
        Memory.read_write_same b hm]
      rfl
    | succ i =>
      have hwf : Memory.wf (Memory.write m a b) = true := Memory.wf_write b (by omega) hm
      have := ih (a := a + 1) (i := i) hwf (by omega) (by omega)
      rw [Memory.writeBytes, show a + (i + 1) = a + 1 + i by omega, this]
      rfl

/-! ### Equal memories are equal data -/

/-- Memories in canonical form that read alike everywhere are the same list. -/
theorem Memory.ext {m m' : Memory} (h : Memory.wf m = true) (h' : Memory.wf m' = true)
    (hr : ∀ a, Memory.read m a = Memory.read m' a) : m = m' := by
  have first : ∀ (c : Host.Cell) (m : Memory), Memory.read (c :: m) c.1 = c.2 := fun c m => by simp [Memory.read]
  induction m generalizing m' with
  | nil =>
    cases m' with
    | nil => rfl
    | cons d m' => exact absurd ((first d m').symm.trans (hr d.1).symm) ((Memory.wf_cons_iff _ _).1 h').2.2.1
  | cons c m ih =>
    obtain ⟨habove, _, hne, htl⟩ := (Memory.wf_cons_iff _ _).1 h
    cases m' with
    | nil => exact absurd ((first c m).symm.trans (hr c.1)) hne
    | cons d m' =>
      obtain ⟨habove', _, hne', htl'⟩ := (Memory.wf_cons_iff _ _).1 h'
      have hcd : c.1 = d.1 := by
        rcases Nat.lt_trichotomy c.1 d.1 with hlt | heq | hlt
        · have := hr c.1
          rw [first, Memory.read, if_neg (by omega), Memory.read_above (Memory.above_mono hlt.le habove')] at this
          exact absurd this hne
        · exact heq
        · have := hr d.1
          rw [first, Memory.read, if_neg (by omega), Memory.read_above (Memory.above_mono hlt.le habove)] at this
          exact absurd this.symm hne'
      have hb : c.2 = d.2 := by have := hr c.1; rw [first, hcd, first] at this; exact this
      have htail : m = m' := by
        refine ih htl htl' fun a => ?_
        by_cases ha : a = c.1
        · rw [ha, Memory.read_above habove, hcd, Memory.read_above habove']
        · have := hr a
          rwa [Memory.read, if_neg (Ne.symm ha), Memory.read, if_neg (by omega)] at this
      rw [htail, Prod.ext hcd hb]

/-- Writing a sequence over memories that agree outside its range gives one and the same memory. -/
theorem Memory.writeBytes_congr {m m' : Memory} {a : Nat} {bytes : List Byte} (h : Memory.wf m = true)
    (h' : Memory.wf m' = true) (ha : a + bytes.length ≤ Config.memoryBytes)
    (hr : ∀ x, x < a ∨ a + bytes.length ≤ x → Memory.read m x = Memory.read m' x) :
    Memory.writeBytes m a bytes = Memory.writeBytes m' a bytes := by
  refine Memory.ext (Memory.wf_writeBytes _ ha h) (Memory.wf_writeBytes _ ha h') fun x => ?_
  by_cases hx : x < a ∨ a + bytes.length ≤ x
  · rw [Memory.read_writeBytes_outside _ _ hx, Memory.read_writeBytes_outside _ _ hx, hr x hx]
  · obtain ⟨i, rfl⟩ : ∃ i, x = a + i := ⟨x - a, by omega⟩
    rw [Memory.read_writeBytes_inside _ h ha (by omega), Memory.read_writeBytes_inside _ h' ha (by omega)]

/-! ### The digest write -/

@[simp] theorem tornBytes_length (m : Memory) (n a : Nat) (bytes : List Byte) :
    (tornBytes m n a bytes).length = bytes.length := by
  induction bytes generalizing n a with
  | nil => rfl
  | cons b rest ih => simp [tornBytes, ih]

/-- A byte of a write cut short is old or new. -/
theorem tornBytes_getD (m : Memory) (n a i : Nat) (bytes : List Byte) (hi : i < bytes.length) :
    (tornBytes m n a bytes).getD i 0 = Memory.read m (a + i)
      ∨ (tornBytes m n a bytes).getD i 0 = bytes.getD i 0 := by
  induction bytes generalizing n a i with
  | nil => simp at hi
  | cons b rest ih =>
    cases i with
    | zero =>
      rw [tornBytes, List.getD_cons_zero, List.getD_cons_zero]
      cases Config.anyBit n <;> simp
    | succ i =>
      rw [tornBytes, List.getD_cons_succ, List.getD_cons_succ, show a + (i + 1) = a + 1 + i by omega]
      exact ih _ _ _ (by simpa using hi)

theorem State.landDigest_mem_wf (s : State) (bytes : List Byte)
    (hr : s.dptr.toNat + bytes.length ≤ Config.memoryBytes) (h : Memory.wf s.mem = true) :
    Memory.wf (s.landDigest bytes).mem = true := by
  rw [State.landDigest_mem]
  exact Memory.wf_writeBytes _ hr h

theorem State.tearDigest_mem_wf (s : State) (bytes : List Byte)
    (hr : s.dptr.toNat + bytes.length ≤ Config.memoryBytes) (h : Memory.wf s.mem = true) :
    Memory.wf (s.tearDigest bytes).mem = true := by
  rw [State.tearDigest_mem]
  exact Memory.wf_writeBytes _ (by simpa using hr) h

/-- A digest write leaves every byte outside its range alone. -/
theorem State.landDigest_read_outside (s : State) (bytes : List Byte) (x : Nat)
    (h : x < s.dptr.toNat ∨ s.dptr.toNat + bytes.length ≤ x) :
    Memory.read (s.landDigest bytes).mem x = Memory.read s.mem x := by
  rw [State.landDigest_mem]
  exact Memory.read_writeBytes_outside _ _ (by simpa using h)

theorem State.tearDigest_read_outside (s : State) (bytes : List Byte) (x : Nat)
    (h : x < s.dptr.toNat ∨ s.dptr.toNat + bytes.length ≤ x) :
    Memory.read (s.tearDigest bytes).mem x = Memory.read s.mem x := by
  rw [State.tearDigest_mem]
  exact Memory.read_writeBytes_outside _ _ (by simpa using h)

/-! ### Raced digest bytes -/

theorem Memory.wf_freeRaced (d : List Nat) (n a k : Nat) {m : Memory} (h : Memory.wf m = true) :
    Memory.wf (freeRaced d n a k m) = true := by
  induction k generalizing n a m with
  | zero => exact h
  | succ k ih =>
    rw [freeRaced]
    split
    · rename_i hc
      exact ih _ _ (Memory.wf_write _ (by simp at hc; exact hc.2) h)
    · exact ih _ _ h

/-- Only bytes of the range that another agent wrote change. -/
theorem read_freeRaced {d : List Nat} {x : Nat} (n a k : Nat) (m : Memory)
    (h : ¬((a ≤ x ∧ x < a + k) ∧ x ∈ d)) : Memory.read (freeRaced d n a k m) x = Memory.read m x := by
  induction k generalizing n a m with
  | zero => rfl
  | succ k ih =>
    rw [freeRaced, ih _ _ _ (by intro hx; exact h ⟨by omega, hx.2⟩)]
    split
    · rename_i hc
      refine Memory.read_write_other _ _ fun hxa => h ⟨by omega, ?_⟩
      subst hxa; simp at hc; exact hc.1
    · rfl

theorem State.settleDigest_mem_wf (s : State) (h : Memory.wf s.mem = true) : Memory.wf s.settleDigest.mem = true := by
  rw [State.settleDigest_mem]
  split
  · exact Memory.wf_freeRaced _ _ _ _ h
  · exact h

/-- A settled digest range differs only where another agent wrote. -/
theorem State.settleDigest_read (s : State) (x : Nat)
    (h : ¬((s.dptr.toNat ≤ x ∧ x < s.dptr.toNat + 64) ∧ x ∈ s.dirty)) :
    Memory.read s.settleDigest.mem x = Memory.read s.mem x := by
  rw [State.settleDigest_mem]
  split
  · exact read_freeRaced _ _ _ _ h
  · rfl

end Sys2Proof.Machine
end

