-- ==== Sys2Proof/Laws/Ops.lean ====
section
/-!
SUPPORT. What the shared operations can do, said once: admission, races, the loop of RUN, and the cases of each meaning
that reaches memory. Later proofs cite these and unfold no operation.
-/

namespace Sys2Proof.Machine

/-! ### Admission -/

theorem Region.pastTop_iff (r : Region) : r.pastTop = true ↔ Config.memoryBytes < r.base + r.len := by
  simp [Region.pastTop]

theorem Region.covers_iff (r : Region) (a : Nat) : r.covers a = true ↔ r.base ≤ a ∧ a < r.base + r.len := by
  simp [Region.covers]

/-- Two ranges meet exactly when an address lies in both. -/
theorem Region.meets_iff (r q : Region) : r.meets q = true ↔ ∃ a, r.covers a = true ∧ q.covers a = true := by
  simp only [Region.meets, Bool.and_eq_true, decide_eq_true_eq, Region.covers_iff]
  constructor
  · rintro ⟨⟨⟨h1, h2⟩, h3⟩, h4⟩
    exact ⟨max r.base q.base, by omega⟩
  · rintro ⟨a, h1, h2⟩
    omega

theorem State.admit_eq_clear_iff (s : State) (rs : List Region) :
    s.vet rs = .clear ↔
      (∀ r ∈ rs, r.base + r.len ≤ Config.memoryBytes) ∧ ∀ r ∈ rs, s.onDevice r = false := by
  unfold State.vet
  split
  · rename_i h
    obtain ⟨r, hr, hp⟩ := List.any_eq_true.1 h
    have := (Region.pastTop_iff r).1 hp
    simp only [reduceCtorEq, false_iff, not_and]
    exact fun hall => absurd (hall r hr) (by omega)
  · rename_i h
    have hclear : ∀ r ∈ rs, r.base + r.len ≤ Config.memoryBytes := by
      intro r hr
      by_contra hlt
      exact h (List.any_eq_true.2 ⟨r, hr, (Region.pastTop_iff r).2 (by omega)⟩)
    split
    · rename_i hd
      obtain ⟨r, hr, hon⟩ := List.any_eq_true.1 hd
      simp only [reduceCtorEq, false_iff, not_and]
      exact fun _ hall => by simp [hall r hr] at hon
    · rename_i hd
      simp only [true_iff]
      refine ⟨hclear, fun r hr => ?_⟩
      by_contra hon
      exact hd (List.any_eq_true.2 ⟨r, hr, by simpa using hon⟩)

theorem State.admit_eq_pastTop_iff (s : State) (rs : List Region) :
    s.vet rs = .pastTop ↔ ∃ r ∈ rs, Config.memoryBytes < r.base + r.len := by
  unfold State.vet
  split
  · rename_i h
    obtain ⟨r, hr, hp⟩ := List.any_eq_true.1 h
    simp only [true_iff]
    exact ⟨r, hr, (Region.pastTop_iff r).1 hp⟩
  · rename_i h
    have : ¬∃ r ∈ rs, Config.memoryBytes < r.base + r.len := by
      rintro ⟨r, hr, hlt⟩
      exact h (List.any_eq_true.2 ⟨r, hr, (Region.pastTop_iff r).2 hlt⟩)
    split <;> simp [this]

theorem State.admit_eq_device_iff (s : State) (rs : List Region) :
    s.vet rs = .device ↔
      (∀ r ∈ rs, r.base + r.len ≤ Config.memoryBytes) ∧ ∃ r ∈ rs, s.onDevice r = true := by
  cases h : s.vet rs with
  | clear =>
    have := (s.admit_eq_clear_iff rs).1 h
    simp only [reduceCtorEq, false_iff, not_and, not_exists]
    intro _ r hr
    simp [this.2 r hr]
  | pastTop =>
    obtain ⟨r, hr, hlt⟩ := (s.admit_eq_pastTop_iff rs).1 h
    simp only [reduceCtorEq, false_iff, not_and]
    exact fun hall => absurd (hall r hr) (by omega)
  | device =>
    simp only [true_iff]
    refine ⟨fun r hr => ?_, ?_⟩
    · by_contra hlt
      have := (s.admit_eq_pastTop_iff rs).2 ⟨r, hr, by omega⟩
      simp [this] at h
    · by_contra hnone
      have : s.vet rs = .clear := by
        refine (s.admit_eq_clear_iff rs).2 ⟨fun r hr => ?_, fun r hr => ?_⟩
        · by_contra hlt
          have := (s.admit_eq_pastTop_iff rs).2 ⟨r, hr, by omega⟩
          simp [this] at h
        · by_contra hon
          exact hnone ⟨r, hr, by simpa using hon⟩
      simp [this] at h

/-- Admission depends on the platform alone. -/
theorem State.admit_congr {s s' : State} (h : s'.platform = s.platform) (rs : List Region) :
    s'.vet rs = s.vet rs := by
  simp [State.vet, State.onDevice, h]

theorem State.readFails_congr {s s' : State} (h : s'.platform = s.platform) (r : Region) :
    s'.readFails r = s.readFails r := by
  simp [State.readFails, h]

theorem State.writeFails_congr {s s' : State} (h : s'.platform = s.platform) (r : Region) :
    s'.writeFails r = s.writeFails r := by
  simp [State.writeFails, h]

/-- A platform whose memory port reports no error never fails an access (60_exceptions.md R247). -/
theorem State.readFails_of_no_error {s : State} (h : s.platform.busCanErr = false) (r : Region) :
    s.readFails r = false := by
  simp [State.readFails, h]

theorem State.writeFails_of_no_error {s : State} (h : s.platform.busCanErr = false) (r : Region) :
    s.writeFails r = false := by
  simp [State.writeFails, h]

/-- A read of a range meets an error exactly when one of its bytes does. -/
theorem State.readFails_bytes (s : State) (b n : Nat) :
    s.readFails ⟨b, n⟩ = true ↔ ∃ o < n, s.readFails ⟨b + o, 1⟩ = true := by
  have iff : ∀ r : Region, s.readFails r = true ↔
      s.platform.busCanErr = true ∧ ∃ d ∈ s.platform.readErr, ∃ a, d.covers a = true ∧ r.covers a = true := by
    intro r
    unfold State.readFails
    simp only [Bool.and_eq_true, List.any_eq_true, Region.meets_iff]
    exact and_comm
  simp only [iff, Region.covers_iff]
  exact ⟨fun ⟨hb, d, hd, a, h1, h2, h3⟩ => ⟨a - b, by omega, hb, d, hd, a, h1, by omega, by omega⟩,
    fun ⟨o, ho, hb, d, hd, a, h1, h2, h3⟩ => ⟨hb, d, hd, a, h1, by omega, by omega⟩⟩

/-- The same of writes. -/
theorem State.writeFails_bytes (s : State) (b n : Nat) :
    s.writeFails ⟨b, n⟩ = true ↔ ∃ o < n, s.writeFails ⟨b + o, 1⟩ = true := by
  have iff : ∀ r : Region, s.writeFails r = true ↔
      s.platform.busCanErr = true ∧ ∃ d ∈ s.platform.writeErr, ∃ a, d.covers a = true ∧ r.covers a = true := by
    intro r
    unfold State.writeFails
    simp only [Bool.and_eq_true, List.any_eq_true, Region.meets_iff]
    exact and_comm
  simp only [iff, Region.covers_iff]
  exact ⟨fun ⟨hb, d, hd, a, h1, h2, h3⟩ => ⟨a - b, by omega, hb, d, hd, a, h1, by omega, by omega⟩,
    fun ⟨o, ho, hb, d, hd, a, h1, h2, h3⟩ => ⟨hb, d, hd, a, h1, by omega, by omega⟩⟩

theorem State.keyRange_congr {s s' : State} (h : s'.kptr = s.kptr) (n : Nat) : s'.keyRange n = s.keyRange n := by
  simp [State.keyRange, h]

theorem State.msgRange_congr {s s' : State} (h : s'.mptr = s.mptr) (n : Nat) : s'.msgRange n = s.msgRange n := by
  simp [State.msgRange, h]

theorem State.digestRange_congr {s s' : State} (h : s'.dptr = s.dptr) : s'.digestRange = s.digestRange := by
  simp [State.digestRange, h]

theorem State.keyBlock_congr {s s' : State} (h : s'.kptr = s.kptr) (k : Nat) : s'.keyBlock k = s.keyBlock k := by
  simp [State.keyBlock, h]

theorem State.msgBlock_congr {s s' : State} (h : s'.mptr = s.mptr) (k : Nat) : s'.msgBlock k = s.msgBlock k := by
  simp [State.msgBlock, h]

theorem State.fetch_congr {s s' : State} (h : s'.mem = s.mem) (r : Region) : s'.fetch r = s.fetch r := by
  simp [State.fetch, h]

/-! ### Races -/

theorem State.raced_congr {s s' : State} (h : s'.dirty = s.dirty) (r : Region) : s'.raced r = s.raced r := by
  simp [State.raced, h]

@[simp] theorem State.raced_of_clean {s : State} (h : s.dirty = []) (r : Region) : s.raced r = false := by
  simp [State.raced, h]

theorem State.settleKey_of_unraced {s : State} {r : Region} (h : s.raced r = false) : s.settleKey r = s := by
  simp [State.settleKey, h]

theorem State.settleMsg_of_unraced {s : State} {r : Region} (h : s.raced r = false) : s.settleMsg r = s := by
  simp [State.settleMsg, h]

theorem State.settleSums_of_unraced {s : State} {kr mr : Region} (hk : s.raced kr = false)
    (hm : s.raced mr = false) : s.settleSums kr mr = s := by
  simp [State.settleSums, hk, hm]

theorem State.settleBlock_of_unraced {s : State} {kr mr : Region} (hk : s.raced kr = false)
    (hm : s.raced mr = false) : s.settleBlock kr mr = s := by
  unfold State.settleBlock
  rw [State.settleKey_of_unraced hk, State.settleMsg_of_unraced hm, State.settleSums_of_unraced hk hm]

/-- An address in a range that was not raced was not written by another agent. -/
theorem State.not_dirty_of_unraced {s : State} {r : Region} (h : s.raced r = false) {a : Nat}
    (ha : r.covers a = true) : s.dirty.contains a = false := by
  cases hc : s.dirty.contains a with
  | false => rfl
  | true =>
    have hmem : a ∈ s.dirty := by simpa using hc
    have : s.raced r = true := List.any_eq_true.2 ⟨a, hmem, ha⟩
    simp [this] at h

theorem State.settleDigest_of_unraced {s : State} (h : s.raced s.digestRange = false) : s.settleDigest = s := by
  simp [State.settleDigest, h]

/-! ### The frames of the updates that draw free values -/

theorem State.tearDigest_frame (s : State) (bytes : List Byte) :
    s.tearDigest bytes = { s with mem := (s.tearDigest bytes).mem, free := (s.tearDigest bytes).free } := rfl

theorem State.landDigest_frame (s : State) (bytes : List Byte) :
    s.landDigest bytes = { s with mem := (s.landDigest bytes).mem } := rfl

theorem State.settleDigest_frame (s : State) :
    s.settleDigest = { s with mem := s.settleDigest.mem, free := s.settleDigest.free } := by
  unfold State.settleDigest
  split <;> rfl

theorem State.putDigest_frame (s : State) :
    s.putDigest = { s with mem := s.putDigest.mem, free := s.putDigest.free } := by
  unfold State.putDigest State.settleDigest
  generalize serializeWords s.acc = b
  split <;> rfl

theorem State.cutDigest_frame (s : State) :
    s.cutDigest = { s with mem := s.cutDigest.mem, free := s.cutDigest.free } := by
  unfold State.cutDigest State.settleDigest
  generalize serializeWords s.acc = b
  split <;> rfl

theorem State.putDigest_of_unraced {s : State} (h : s.raced s.digestRange = false) :
    s.putDigest = { s with mem := Memory.writeBytes s.mem s.dptr.toNat (serializeWords s.acc) } := by
  unfold State.putDigest
  rw [State.settleDigest_of_unraced (by
    rw [State.raced_congr (s := s) (by simp), State.digestRange_congr (s := s) (by simp)]; exact h), State.landDigest]

theorem State.settleKey_frame (s : State) (r : Region) :
    s.settleKey r = { s with kb := (s.settleKey r).kb, free := (s.settleKey r).free } := by
  unfold State.settleKey
  split <;> rfl

theorem State.settleMsg_frame (s : State) (r : Region) :
    s.settleMsg r = { s with mb := (s.settleMsg r).mb, free := (s.settleMsg r).free } := by
  unfold State.settleMsg
  split <;> rfl

theorem State.settleSums_frame (s : State) (kr mr : Region) :
    s.settleSums kr mr =
      { s with
        xb := (s.settleSums kr mr).xb, zb := (s.settleSums kr mr).zb, acc := (s.settleSums kr mr).acc
        free := (s.settleSums kr mr).free } := by
  unfold State.settleSums
  split <;> rfl

/-- Races over a block reach the five register files and the draws alone. -/
theorem State.settleBlock_frame (s : State) (kr mr : Region) :
    s.settleBlock kr mr =
      { s with
        kb := (s.settleBlock kr mr).kb, mb := (s.settleBlock kr mr).mb, xb := (s.settleBlock kr mr).xb
        zb := (s.settleBlock kr mr).zb, acc := (s.settleBlock kr mr).acc, free := (s.settleBlock kr mr).free } := by
  unfold State.settleBlock
  rw [State.settleSums_frame, State.settleMsg_frame, State.settleKey_frame]

/-- A bus error on a read of RUN reaches the register files, BCNT and the draws alone. -/
theorem State.anyRun_frame (s : State) :
    s.anyRun =
      { s with
        kb := s.anyRun.kb, mb := s.anyRun.mb, xb := s.anyRun.xb, zb := s.anyRun.zb, acc := s.anyRun.acc
        bcnt := s.anyRun.bcnt, free := s.anyRun.free } := rfl

@[simp] theorem State.anyRun_ie (s : State) : s.anyRun.ie = s.ie := by simp [State.anyRun]
@[simp] theorem State.anyRun_busy (s : State) : s.anyRun.busy = s.busy := by simp [State.anyRun]
@[simp] theorem State.anyRun_done (s : State) : s.anyRun.done = s.done := by simp [State.anyRun]
@[simp] theorem State.anyRun_ovr (s : State) : s.anyRun.ovr = s.ovr := by simp [State.anyRun]
@[simp] theorem State.anyRun_err (s : State) : s.anyRun.err = s.err := by simp [State.anyRun]
@[simp] theorem State.anyRun_lastcmd (s : State) : s.anyRun.lastcmd = s.lastcmd := by simp [State.anyRun]
@[simp] theorem State.anyRun_kptr (s : State) : s.anyRun.kptr = s.kptr := by simp [State.anyRun]
@[simp] theorem State.anyRun_mptr (s : State) : s.anyRun.mptr = s.mptr := by simp [State.anyRun]
@[simp] theorem State.anyRun_dptr (s : State) : s.anyRun.dptr = s.dptr := by simp [State.anyRun]
@[simp] theorem State.anyRun_klen (s : State) : s.anyRun.klen = s.klen := by simp [State.anyRun]
@[simp] theorem State.anyRun_mlen (s : State) : s.anyRun.mlen = s.mlen := by simp [State.anyRun]
@[simp] theorem State.anyRun_job (s : State) : s.anyRun.job = s.job := by simp [State.anyRun]
@[simp] theorem State.anyRun_mem (s : State) : s.anyRun.mem = s.mem := by simp [State.anyRun]
@[simp] theorem State.anyRun_platform (s : State) : s.anyRun.platform = s.platform := by simp [State.anyRun]
@[simp] theorem State.anyRun_inputs (s : State) : s.anyRun.inputs = s.inputs := by simp [State.anyRun]
@[simp] theorem State.anyRun_rdata (s : State) : s.anyRun.rdata = s.rdata := by simp [State.anyRun]
@[simp] theorem State.anyRun_dirty (s : State) : s.anyRun.dirty = s.dirty := by simp [State.anyRun]

/-! ### What races leave in the other fields -/

theorem State.settleRun_frame (s : State) :
    s.settleRun =
      { s with
        kb := s.settleRun.kb, mb := s.settleRun.mb, xb := s.settleRun.xb
        zb := s.settleRun.zb, acc := s.settleRun.acc, free := s.settleRun.free } :=
  State.settleBlock_frame _ _ _

@[simp] theorem State.settleBlock_ie (s : State) (kr mr : Region) : (s.settleBlock kr mr).ie = s.ie := by
  rw [State.settleBlock_frame]
@[simp] theorem State.settleBlock_busy (s : State) (kr mr : Region) : (s.settleBlock kr mr).busy = s.busy := by
  rw [State.settleBlock_frame]
@[simp] theorem State.settleBlock_done (s : State) (kr mr : Region) : (s.settleBlock kr mr).done = s.done := by
  rw [State.settleBlock_frame]
@[simp] theorem State.settleBlock_ovr (s : State) (kr mr : Region) : (s.settleBlock kr mr).ovr = s.ovr := by
  rw [State.settleBlock_frame]
@[simp] theorem State.settleBlock_err (s : State) (kr mr : Region) : (s.settleBlock kr mr).err = s.err := by
  rw [State.settleBlock_frame]
@[simp] theorem State.settleBlock_lastcmd (s : State) (kr mr : Region) : (s.settleBlock kr mr).lastcmd = s.lastcmd := by
  rw [State.settleBlock_frame]
@[simp] theorem State.settleBlock_kptr (s : State) (kr mr : Region) : (s.settleBlock kr mr).kptr = s.kptr := by
  rw [State.settleBlock_frame]
@[simp] theorem State.settleBlock_mptr (s : State) (kr mr : Region) : (s.settleBlock kr mr).mptr = s.mptr := by
  rw [State.settleBlock_frame]
@[simp] theorem State.settleBlock_dptr (s : State) (kr mr : Region) : (s.settleBlock kr mr).dptr = s.dptr := by
  rw [State.settleBlock_frame]
@[simp] theorem State.settleBlock_klen (s : State) (kr mr : Region) : (s.settleBlock kr mr).klen = s.klen := by
  rw [State.settleBlock_frame]
@[simp] theorem State.settleBlock_mlen (s : State) (kr mr : Region) : (s.settleBlock kr mr).mlen = s.mlen := by
  rw [State.settleBlock_frame]
@[simp] theorem State.settleBlock_bcnt (s : State) (kr mr : Region) : (s.settleBlock kr mr).bcnt = s.bcnt := by
  rw [State.settleBlock_frame]
@[simp] theorem State.settleBlock_job (s : State) (kr mr : Region) : (s.settleBlock kr mr).job = s.job := by
  rw [State.settleBlock_frame]
@[simp] theorem State.settleBlock_mem (s : State) (kr mr : Region) : (s.settleBlock kr mr).mem = s.mem := by
  rw [State.settleBlock_frame]
@[simp] theorem State.settleBlock_platform (s : State) (kr mr : Region) : (s.settleBlock kr mr).platform = s.platform := by
  rw [State.settleBlock_frame]
@[simp] theorem State.settleBlock_inputs (s : State) (kr mr : Region) : (s.settleBlock kr mr).inputs = s.inputs := by
  rw [State.settleBlock_frame]
@[simp] theorem State.settleBlock_rdata (s : State) (kr mr : Region) : (s.settleBlock kr mr).rdata = s.rdata := by
  rw [State.settleBlock_frame]
@[simp] theorem State.settleBlock_dirty (s : State) (kr mr : Region) : (s.settleBlock kr mr).dirty = s.dirty := by
  rw [State.settleBlock_frame]
@[simp] theorem State.settleRun_ie (s : State) : s.settleRun.ie = s.ie := by
  rw [State.settleRun_frame]
@[simp] theorem State.settleRun_busy (s : State) : s.settleRun.busy = s.busy := by
  rw [State.settleRun_frame]
@[simp] theorem State.settleRun_done (s : State) : s.settleRun.done = s.done := by
  rw [State.settleRun_frame]
@[simp] theorem State.settleRun_ovr (s : State) : s.settleRun.ovr = s.ovr := by
  rw [State.settleRun_frame]
@[simp] theorem State.settleRun_err (s : State) : s.settleRun.err = s.err := by
  rw [State.settleRun_frame]
@[simp] theorem State.settleRun_lastcmd (s : State) : s.settleRun.lastcmd = s.lastcmd := by
  rw [State.settleRun_frame]
@[simp] theorem State.settleRun_kptr (s : State) : s.settleRun.kptr = s.kptr := by
  rw [State.settleRun_frame]
@[simp] theorem State.settleRun_mptr (s : State) : s.settleRun.mptr = s.mptr := by
  rw [State.settleRun_frame]
@[simp] theorem State.settleRun_dptr (s : State) : s.settleRun.dptr = s.dptr := by
  rw [State.settleRun_frame]
@[simp] theorem State.settleRun_klen (s : State) : s.settleRun.klen = s.klen := by
  rw [State.settleRun_frame]
@[simp] theorem State.settleRun_mlen (s : State) : s.settleRun.mlen = s.mlen := by
  rw [State.settleRun_frame]
@[simp] theorem State.settleRun_bcnt (s : State) : s.settleRun.bcnt = s.bcnt := by
  rw [State.settleRun_frame]
@[simp] theorem State.settleRun_job (s : State) : s.settleRun.job = s.job := by
  rw [State.settleRun_frame]
@[simp] theorem State.settleRun_mem (s : State) : s.settleRun.mem = s.mem := by
  rw [State.settleRun_frame]
@[simp] theorem State.settleRun_platform (s : State) : s.settleRun.platform = s.platform := by
  rw [State.settleRun_frame]
@[simp] theorem State.settleRun_inputs (s : State) : s.settleRun.inputs = s.inputs := by
  rw [State.settleRun_frame]
@[simp] theorem State.settleRun_rdata (s : State) : s.settleRun.rdata = s.rdata := by
  rw [State.settleRun_frame]
@[simp] theorem State.settleRun_dirty (s : State) : s.settleRun.dirty = s.dirty := by
  rw [State.settleRun_frame]

/-! ### The cases of the meanings that reach memory -/

/-- LDK and LDK+ (40_codec.md R143). -/
theorem loadKey_cases (inc : Bool) (s : State) :
    (s.vet [s.keyRange 32] = .pastTop ∧ loadKey inc s = raise .range s) ∨
    (s.vet [s.keyRange 32] = .device ∧ loadKey inc s = .refused .sideEffectBuffer) ∨
    (s.vet [s.keyRange 32] = .clear ∧ s.readFails (s.keyRange 32) = true ∧
      loadKey inc s = raise .bus s.anyKB) ∨
    (s.vet [s.keyRange 32] = .clear ∧ s.readFails (s.keyRange 32) = false ∧
      loadKey inc s = endLoadKey inc (s.parseKey (s.fetch (s.keyRange 32)))) := by
  unfold loadKey
  cases h : s.vet [s.keyRange 32] <;> cases hf : s.readFails (s.keyRange 32) <;> simp

/-- LDM and LDM+ (40_codec.md R144). -/
theorem loadMsg_cases (inc : Bool) (s : State) :
    (s.vet [s.msgRange 32] = .pastTop ∧ loadMsg inc s = raise .range s) ∨
    (s.vet [s.msgRange 32] = .device ∧ loadMsg inc s = .refused .sideEffectBuffer) ∨
    (s.vet [s.msgRange 32] = .clear ∧ s.readFails (s.msgRange 32) = true ∧
      loadMsg inc s = raise .bus s.anyMB) ∨
    (s.vet [s.msgRange 32] = .clear ∧ s.readFails (s.msgRange 32) = false ∧
      loadMsg inc s = endLoadMsg inc (s.parseMsg (s.fetch (s.msgRange 32)))) := by
  unfold loadMsg
  cases h : s.vet [s.msgRange 32] <;> cases hf : s.readFails (s.msgRange 32) <;> simp

/-- STD and STD+ (40_codec.md R145). -/
theorem storeDigest_cases (inc : Bool) (s : State) :
    (s.vet [s.digestRange] = .pastTop ∧ storeDigest inc s = raise .range s.settleDigest) ∨
    (s.vet [s.digestRange] = .device ∧ storeDigest inc s = .refused .sideEffectBuffer) ∨
    (s.vet [s.digestRange] = .clear ∧ s.writeFails s.digestRange = true ∧
      storeDigest inc s = failStore s) ∨
    (s.vet [s.digestRange] = .clear ∧ s.writeFails s.digestRange = false ∧
      storeDigest inc s = endStore inc s) := by
  unfold storeDigest
  cases h : s.vet [s.digestRange] <;> cases hf : s.writeFails s.digestRange <;> simp

/-- BLK and BLK+ (43_driver.md R207). -/
theorem oneBlock_cases (inc : Bool) (s : State) :
    (s.vet [s.keyRange 32, s.msgRange 32] = .pastTop ∧ oneBlock inc s = raise .range s) ∨
    (s.vet [s.keyRange 32, s.msgRange 32] = .device ∧ oneBlock inc s = .refused .sideEffectBuffer) ∨
    (s.vet [s.keyRange 32, s.msgRange 32] = .clear ∧
      (s.readFails (s.keyRange 32) || s.readFails (s.msgRange 32)) = true ∧
      oneBlock inc s = raise .bus s.anyKB.anyMB) ∨
    (s.vet [s.keyRange 32, s.msgRange 32] = .clear ∧
      (s.readFails (s.keyRange 32) || s.readFails (s.msgRange 32)) = false ∧
      oneBlock inc s = endBlock inc (s.passBlock (s.keyRange 32) (s.msgRange 32))) := by
  unfold oneBlock
  cases h : s.vet [s.keyRange 32, s.msgRange 32] <;>
    cases hf : (s.readFails (s.keyRange 32) || s.readFails (s.msgRange 32)) <;> simp

/-- RUN (43_driver.md R202). -/
theorem execRun_cases (s : State) :
    (∃ e, s.checkLengths = some e ∧ execRun s = raise e s.settleDigest) ∨
    (s.checkLengths = none ∧ s.vet s.runRanges = .pastTop ∧ execRun s = raise .range s.settleDigest) ∨
    (s.checkLengths = none ∧ s.vet s.runRanges = .device ∧ execRun s = .refused .sideEffectBuffer) ∨
    (s.checkLengths = none ∧ s.vet s.runRanges = .clear ∧
      (s.readFails (s.keyRange s.mlen.toNat) || s.readFails (s.msgRange s.mlen.toNat)) = true ∧
      execRun s = raise .bus s.anyRun.settleDigest) ∨
    (s.checkLengths = none ∧ s.vet s.runRanges = .clear ∧
      (s.readFails (s.keyRange s.mlen.toNat) || s.readFails (s.msgRange s.mlen.toNat)) = false ∧
      execRun s = storeRun (s.startRun.runBlocks s.blockCount 0).settleRun) := by
  unfold execRun
  cases hc : s.checkLengths with
  | some e => exact .inl ⟨e, rfl, rfl⟩
  | none =>
    refine .inr ?_
    cases h : s.vet s.runRanges <;>
      cases hf : (s.readFails (s.keyRange s.mlen.toNat) || s.readFails (s.msgRange s.mlen.toNat)) <;> simp

/-- The length checks of RUN pass exactly when MLEN is a positive multiple of 32 and KLEN equals it (R201). -/
theorem State.checkLengths_eq_none_iff (s : State) :
    s.checkLengths = none ↔ s.mlen ≠ 0 ∧ s.klen = s.mlen ∧ s.mlen.toNat % 32 = 0 := by
  unfold State.checkLengths
  split
  · simp [*]
  · split
    · simp_all
    · split <;> simp_all

/-! ### The loop of RUN -/

/-- A pass over a block changes KB, MB, XB, ZB and ACC alone. -/
theorem State.passBlock_eq (s : State) (kr mr : Region) :
    s.passBlock kr mr =
      { s with
        kb := parseBlock (s.fetch kr), mb := parseBlock (s.fetch mr)
        xb := addBlocks (parseBlock (s.fetch kr)) (parseBlock (s.fetch mr))
        zb := f128 (addBlocks (parseBlock (s.fetch kr)) (parseBlock (s.fetch mr)))
        acc := accumulate s.acc (f128 (addBlocks (parseBlock (s.fetch kr)) (parseBlock (s.fetch mr)))) } := rfl

/-- One more block at the end of the loop. -/
theorem State.runBlocks_succ (n k : Nat) (s : State) :
    s.runBlocks (n + 1) k =
      ((s.runBlocks n k).passBlock ((s.runBlocks n k).keyBlock (k + n))
        ((s.runBlocks n k).msgBlock (k + n))).countBlock (k + n) := by
  induction n generalizing s k with
  | zero => simp only [State.runBlocks, Nat.add_zero]
  | succ n ih =>
    rw [State.runBlocks, ih, State.runBlocks]
    simp only [show k + 1 + n = k + (n + 1) by omega]

/-- The loop changes KB, MB, XB, ZB, ACC and BCNT alone. -/
theorem State.runBlocks_frame (n k : Nat) (s : State) :
    s.runBlocks n k =
      { s with
        kb := (s.runBlocks n k).kb, mb := (s.runBlocks n k).mb, xb := (s.runBlocks n k).xb
        zb := (s.runBlocks n k).zb, acc := (s.runBlocks n k).acc, bcnt := (s.runBlocks n k).bcnt } := by
  induction n generalizing s k with
  | zero => rfl
  | succ n ih =>
    rw [State.runBlocks]
    refine (ih _ _).trans ?_
    simp [State.passBlock]

@[simp] theorem State.runBlocks_ie (n k : Nat) (s : State) : (s.runBlocks n k).ie = s.ie := by
  rw [State.runBlocks_frame]
@[simp] theorem State.runBlocks_busy (n k : Nat) (s : State) : (s.runBlocks n k).busy = s.busy := by
  rw [State.runBlocks_frame]
@[simp] theorem State.runBlocks_done (n k : Nat) (s : State) : (s.runBlocks n k).done = s.done := by
  rw [State.runBlocks_frame]
@[simp] theorem State.runBlocks_ovr (n k : Nat) (s : State) : (s.runBlocks n k).ovr = s.ovr := by
  rw [State.runBlocks_frame]
@[simp] theorem State.runBlocks_err (n k : Nat) (s : State) : (s.runBlocks n k).err = s.err := by
  rw [State.runBlocks_frame]
@[simp] theorem State.runBlocks_lastcmd (n k : Nat) (s : State) : (s.runBlocks n k).lastcmd = s.lastcmd := by
  rw [State.runBlocks_frame]
@[simp] theorem State.runBlocks_kptr (n k : Nat) (s : State) : (s.runBlocks n k).kptr = s.kptr := by
  rw [State.runBlocks_frame]
@[simp] theorem State.runBlocks_mptr (n k : Nat) (s : State) : (s.runBlocks n k).mptr = s.mptr := by
  rw [State.runBlocks_frame]
@[simp] theorem State.runBlocks_dptr (n k : Nat) (s : State) : (s.runBlocks n k).dptr = s.dptr := by
  rw [State.runBlocks_frame]
@[simp] theorem State.runBlocks_klen (n k : Nat) (s : State) : (s.runBlocks n k).klen = s.klen := by
  rw [State.runBlocks_frame]
@[simp] theorem State.runBlocks_mlen (n k : Nat) (s : State) : (s.runBlocks n k).mlen = s.mlen := by
  rw [State.runBlocks_frame]
@[simp] theorem State.runBlocks_job (n k : Nat) (s : State) : (s.runBlocks n k).job = s.job := by
  rw [State.runBlocks_frame]
@[simp] theorem State.runBlocks_mem (n k : Nat) (s : State) : (s.runBlocks n k).mem = s.mem := by
  rw [State.runBlocks_frame]
@[simp] theorem State.runBlocks_platform (n k : Nat) (s : State) : (s.runBlocks n k).platform = s.platform := by
  rw [State.runBlocks_frame]
@[simp] theorem State.runBlocks_inputs (n k : Nat) (s : State) : (s.runBlocks n k).inputs = s.inputs := by
  rw [State.runBlocks_frame]
@[simp] theorem State.runBlocks_rdata (n k : Nat) (s : State) : (s.runBlocks n k).rdata = s.rdata := by
  rw [State.runBlocks_frame]
@[simp] theorem State.runBlocks_dirty (n k : Nat) (s : State) : (s.runBlocks n k).dirty = s.dirty := by
  rw [State.runBlocks_frame]
@[simp] theorem State.runBlocks_free (n k : Nat) (s : State) : (s.runBlocks n k).free = s.free := by
  rw [State.runBlocks_frame]

/-- The loop of RUN from its start changes the five register files and BCNT alone. -/
theorem State.runBlocks_startRun_frame (s : State) (n : Nat) :
    s.startRun.runBlocks n 0 =
      { s with
        kb := (s.startRun.runBlocks n 0).kb, mb := (s.startRun.runBlocks n 0).mb
        xb := (s.startRun.runBlocks n 0).xb, zb := (s.startRun.runBlocks n 0).zb
        acc := (s.startRun.runBlocks n 0).acc, bcnt := (s.startRun.runBlocks n 0).bcnt } := by
  have h := State.runBlocks_frame n 0 s.startRun
  generalize s.startRun.runBlocks n 0 = u at *
  rw [h]; rfl

end Sys2Proof.Machine
end

