-- ==== Sys2Proof/Laws/Codec.lean ====
section
/-!
SUPPORT. The laws of the codec, the mixer and the adders (spec/40_codec.md R140 to R142, 41_mixer.md, 42_adders.md).
-/

namespace Sys2Proof

@[simp] theorem Lanes.get_set_same {α : Type} (l : Lanes α) (i : Fin 8) (v : α) : (l.set i v).get i = v := by
  fin_cases i <;> rfl

theorem Lanes.get_set_other {α : Type} (l : Lanes α) (i j : Fin 8) (v : α) (h : j ≠ i) :
    (l.set i v).get j = l.get j := by
  fin_cases i <;> fin_cases j <;> first | rfl | exact absurd rfl h

@[simp] theorem Lanes.get_fill {α : Type} (v : α) (i : Fin 8) : (Lanes.fill v).get i = v := by
  fin_cases i <;> rfl

@[simp] theorem Lanes.get_zipWith {α β γ : Type} (f : α → β → γ) (a : Lanes α) (b : Lanes β) (i : Fin 8) :
    (Lanes.zipWith f a b).get i = f (a.get i) (b.get i) := by
  fin_cases i <;> rfl

/-- Two register files with equal words are equal. -/
theorem Lanes.ext_get {α : Type} {a b : Lanes α} (h : ∀ i : Fin 8, a.get i = b.get i) : a = b := by
  have h0 := h 0
  have h1 := h 1
  have h2 := h 2
  have h3 := h 3
  have h4 := h 4
  have h5 := h 5
  have h6 := h 6
  have h7 := h 7
  exact Lanes.ext h0 h1 h2 h3 h4 h5 h6 h7

/-- The number two bit fields one above the other make. -/
theorem append_toNat {m n : Nat} (a : BitVec m) (b : BitVec n) : (a ++ b).toNat = a.toNat * 2 ^ n + b.toNat := by
  rw [BitVec.toNat_append, ← Nat.shiftLeft_add_eq_or_of_lt b.isLt, Nat.shiftLeft_eq]

theorem lowHalf_toNat (v : DWord) : (lowHalf v).toNat = v.toNat % 2 ^ 32 := by
  simp [lowHalf, BitVec.extractLsb'_toNat]

theorem highHalf_toNat (v : DWord) : (highHalf v).toNat = v.toNat / 2 ^ 32 := by
  have := v.isLt
  simp only [highHalf, BitVec.extractLsb'_toNat, Nat.shiftRight_eq_div_pow]
  omega

/-- The low half of a 64-bit word made of two halves. -/
theorem lowHalf_append (h l : Word) : lowHalf (h ++ l) = l := by
  have hl := l.isLt
  refine BitVec.eq_of_toNat_eq ?_
  rw [lowHalf_toNat]
  refine (congrArg (· % 2 ^ 32) (append_toNat h l)).trans ?_
  omega

/-- The high half of a 64-bit word made of two halves. -/
theorem highHalf_append (h l : Word) : highHalf (h ++ l) = h := by
  have hl := l.isLt
  refine BitVec.eq_of_toNat_eq ?_
  rw [highHalf_toNat]
  refine (congrArg (· / 2 ^ 32) (append_toNat h l)).trans ?_
  omega

/-- A 64-bit word is its two halves. -/
theorem append_halves (v : DWord) : highHalf v ++ lowHalf v = v := by
  refine BitVec.eq_of_toNat_eq ?_
  refine (append_toNat _ _).trans ?_
  rw [lowHalf_toNat, highHalf_toNat]
  omega

@[simp] theorem lowHalf_setLow (v : DWord) (x : Word) : lowHalf (setLow v x) = x := lowHalf_append _ _

@[simp] theorem highHalf_setLow (v : DWord) (x : Word) : highHalf (setLow v x) = highHalf v := highHalf_append _ _

@[simp] theorem highHalf_setHigh (v : DWord) (x : Word) : highHalf (setHigh v x) = x := highHalf_append _ _

@[simp] theorem lowHalf_setHigh (v : DWord) (x : Word) : lowHalf (setHigh v x) = lowHalf v := lowHalf_append _ _

namespace Machine

@[simp] theorem bytesOf_length (v : DWord) : (bytesOf v).length = 8 := rfl

@[simp] theorem serializeWords_length (w : Lanes DWord) : (serializeWords w).length = 64 := rfl

/-- Byte 8i + j of the digest is byte j of word i (R141). -/
theorem serializeWords_getD (w : Lanes DWord) (i j : Fin 8) :
    (serializeWords w).getD (8 * i.val + j.val) 0 = byteOf (w.get i) j.val := by
  fin_cases i <;> fin_cases j <;> rfl

/-- Word i of a parsed block (R140). -/
theorem parseBlock_get (b : List Byte) (i : Fin 8) : (parseBlock b).get i = wordAt b i.val := by
  fin_cases i <;> rfl

/-- The bytes of a word, from its least significant (R140). -/
theorem word32_toNat (b0 b1 b2 b3 : Byte) :
    (word32 b0 b1 b2 b3).toNat = b0.toNat + 256 * b1.toNat + 65536 * b2.toNat + 16777216 * b3.toNat := by
  unfold word32
  rw [append_toNat, append_toNat, append_toNat]
  omega

/-- The widening product is exact (00_scope.md R11, 41_mixer.md R161). -/
theorem mulWide_toNat (a b : Word) : (mulWide a b).toNat = a.toNat * b.toNat := by
  have ha := a.isLt
  have hb := b.isLt
  have hp : a.toNat * b.toNat < 2 ^ 64 := by
    calc a.toNat * b.toNat ≤ (2 ^ 32 - 1) * (2 ^ 32 - 1) := Nat.mul_le_mul (by omega) (by omega)
      _ < 2 ^ 64 := by decide
  unfold mulWide
  rw [BitVec.toNat_mul, BitVec.toNat_setWidth, BitVec.toNat_setWidth, Nat.mod_eq_of_lt (a := a.toNat) (by omega),
    Nat.mod_eq_of_lt (a := b.toNat) (by omega), Nat.mod_eq_of_lt hp]

theorem addBlocks_get (a b : Lanes Word) (i : Fin 8) : (addBlocks a b).get i = a.get i + b.get i := by
  simp [addBlocks]

theorem accumulate_get (s d : Lanes DWord) (i : Fin 8) : (accumulate s d).get i = s.get i + d.get i := by
  simp [accumulate]

end Machine

end Sys2Proof
end

