-- ==== Sys2Proof/Laws/Claims.lean ====
section
/-!
SUPPORT. The words of the statements against the model's own operations: admission, bus errors, races, blocks, and the
step on a host access of the window. Proofs of the statements pass from one to the other here and nowhere else.
-/

namespace Sys2Proof.Claims

open Sys2Proof.Machine

theorem apart_iff (rs : List Region) (r : Region) : apart rs r ↔ (rs.any fun d => d.meets r) = false := by
  constructor
  · intro h
    by_contra hc
    obtain ⟨d, hd, hm⟩ := List.any_eq_true.1 (by simpa using hc)
    obtain ⟨a, h1, h2⟩ := (Region.meets_iff _ _).1 hm
    exact h d hd a ⟨(Region.covers_iff _ _).1 h1, (Region.covers_iff _ _).1 h2⟩
  · intro h d hd a ⟨h1, h2⟩
    have : (rs.any fun d => d.meets r) = true := List.any_eq_true.2 ⟨d, hd, (Region.meets_iff _ _).2
      ⟨a, (Region.covers_iff _ _).2 h1, (Region.covers_iff _ _).2 h2⟩⟩
    simp [this] at h

theorem ordinary_iff (s : State) (r : Region) :
    ordinary s r ↔ r.base + r.len ≤ Config.memoryBytes ∧ s.onDevice r = false := by
  unfold ordinary; rw [apart_iff]; rfl

theorem admit_clear_iff (s : State) (rs : List Region) : s.vet rs = .clear ↔ ∀ r ∈ rs, ordinary s r := by
  rw [State.admit_eq_clear_iff]
  simp only [ordinary_iff]
  exact ⟨fun h r hr => ⟨h.1 r hr, h.2 r hr⟩, fun h => ⟨fun r hr => (h r hr).1, fun r hr => (h r hr).2⟩⟩

theorem readsWell_iff (s : State) (r : Region) : readsWell s r ↔ s.readFails r = false := by
  unfold readsWell State.readFails; rw [apart_iff]
  cases s.platform.busCanErr <;> simp

theorem not_readsWell_iff (s : State) (r : Region) : ¬readsWell s r ↔ s.readFails r = true := by
  rw [readsWell_iff]; simp

theorem writesWell_iff (s : State) (r : Region) : writesWell s r ↔ s.writeFails r = false := by
  unfold writesWell State.writeFails; rw [apart_iff]
  cases s.platform.busCanErr <;> simp

theorem not_writesWell_iff (s : State) (r : Region) : ¬writesWell s r ↔ s.writeFails r = true := by
  rw [writesWell_iff]; simp

theorem quiet_iff (s : State) (r : Region) : quiet s r ↔ s.raced r = false := by
  unfold quiet State.raced
  constructor
  · intro h
    by_contra hc
    obtain ⟨d, hd, hm⟩ := List.any_eq_true.1 (by simpa using hc)
    exact h d hd ((Region.covers_iff _ _).1 hm)
  · intro h a ha hi
    have : (s.dirty.any fun a => r.covers a) = true := List.any_eq_true.2 ⟨a, ha, (Region.covers_iff _ _).2 hi⟩
    simp [this] at h

theorem lengthsOk_iff (s : State) : s.checkLengths = none ↔ lengthsOk s := State.checkLengths_eq_none_iff s

/-- The parsed bytes at an address are the block there. -/
theorem isBlock_parse (m : List Host.Cell) (a : Nat) : isBlock (parseBlock (Memory.readBytes m a 32)) m a := by
  intro i
  rw [parseBlock_get, wordAt, word32_toNat, leWord]
  have := i.isLt
  rw [Memory.readBytes_getD _ _ _ _ (by omega), Memory.readBytes_getD _ _ _ _ (by omega),
    Memory.readBytes_getD _ _ _ _ (by omega), Memory.readBytes_getD _ _ _ _ (by omega)]
  simp only [Nat.add_assoc]

theorem byteOf_toNat (v : DWord) (j : Fin 8) : (byteOf v j.val).toNat = v.toNat / 256 ^ j.val % 256 := by
  rw [byteOf, BitVec.extractLsb'_toNat, Nat.shiftRight_eq_div_pow, Nat.pow_mul]

theorem not_inside_digest_iff {s : State} {a : Nat} :
    ¬inside s.digestRange a ↔ a < s.dptr.toNat ∨ s.dptr.toNat + 64 ≤ a := by
  simp only [inside, State.digestRange, Config.digestBytes_eq]; omega

/-- A 32-bit host write in the window is the effect of its offset. -/
theorem step_hostWrites {s : State} {off : Nat} {v : Word} {rest : List Event} (h : hostWrites s off v rest)
    (ho : off < 0x200) (ha : off % 4 = 0) : step s = .next (writeOffset off v (taken s rest)) := by
  unfold hostWrites at h
  simp [step, stepEvent, h, handle, hostWrite, State.inWindow, State.windowOffset, portAccess, ho, ha, taken]

/-- A 32-bit host read in the window is the answer of its offset. -/
theorem step_hostReads {s : State} {off : Nat} {rest : List Event} (h : hostReads s off rest)
    (ho : off < 0x200) (ha : off % 4 = 0) : step s = .next (readOffset off (taken s rest)) := by
  unfold hostReads at h
  simp [step, stepEvent, h, handle, hostRead, State.inWindow, State.windowOffset, portAccess, ho, ha, taken]

end Sys2Proof.Claims
end

