-- ==== Sys2Proof/Laws/Exec.lean ====
section
/-!
SUPPORT. What each meaning that reaches memory can do, said once: if it answers a next state, that state is a completion
of the state before with only these registers changed; and when it is refused. Proofs over all commands cite these.
-/

namespace Sys2Proof.Claims

open Sys2Proof.Machine

/-! ### The digest write -/

theorem raced_byte {s : State} {a : Nat} (h : ¬(inside s.digestRange a ∧ a ∈ s.dirty)) :
    ¬((s.dptr.toNat ≤ a ∧ a < s.dptr.toNat + 64) ∧ a ∈ s.dirty) := by
  simpa [inside, State.digestRange] using h

/-- Settling the digest range changes bytes of it that another agent wrote, and nothing else of memory. -/
theorem onlyRaced_settleDigest (s : State) : onlyRaced s s.settleDigest.mem := fun a ha =>
  State.settleDigest_read s a (raced_byte ha)

theorem onlyRaced_congr {s v : State} {m : List Host.Cell} (h1 : v.mem = s.mem) (h2 : v.dptr = s.dptr)
    (h3 : v.dirty = s.dirty) : onlyRaced v m ↔ onlyRaced s m := by
  unfold onlyRaced
  rw [h1, h3, State.digestRange_congr h2]

theorem settleDigest_of_quiet {s : State} (h : quiet s s.digestRange) : s.settleDigest = s :=
  State.settleDigest_of_unraced ((quiet_iff _ _).1 h)

theorem sameOutside_putDigest (s : State) : sameOutside s.mem s.putDigest.mem s.digestRange := by
  intro a ha
  unfold State.putDigest
  rw [State.settleDigest_read _ _ (by simp only [State.landDigest_dptr]; intro h; exact ha (by
    simpa [inside, State.digestRange] using h.1))]
  exact State.landDigest_read_outside _ _ _ (by rw [serializeWords_length]; exact not_inside_digest_iff.1 ha)

theorem sameOutside_cutDigest (s : State) : sameOutside s.mem s.cutDigest.mem s.digestRange := by
  intro a ha
  unfold State.cutDigest
  rw [State.settleDigest_read _ _ (by simp only [State.tearDigest_dptr]; intro h; exact ha (by
    simpa [inside, State.digestRange] using h.1))]
  exact State.tearDigest_read_outside _ _ _ (by rw [serializeWords_length]; exact not_inside_digest_iff.1 ha)

/-- A byte of a completed digest write that no other agent wrote is the command's. -/
theorem putDigest_byte {s : State} (hwf : Memory.wf s.mem = true) (hf : s.dptr.toNat + 64 ≤ 2 ^ 32) {j : Nat}
    (hj : j < 64) (hd : s.dptr.toNat + j ∉ s.dirty) :
    Memory.read s.putDigest.mem (s.dptr.toNat + j) = (serializeWords s.acc).getD j 0 := by
  unfold State.putDigest
  rw [State.settleDigest_read _ _ (by simp only [State.landDigest_dirty]; exact fun h => hd h.2), State.landDigest_mem,
    Memory.read_writeBytes_inside _ hwf (by simp; omega) (by simpa using hj)]

/-- A byte of a digest write cut short that no other agent wrote is old or new. -/
theorem cutDigest_byte {s : State} (hwf : Memory.wf s.mem = true) (hf : s.dptr.toNat + 64 ≤ 2 ^ 32) {j : Nat}
    (hj : j < 64) (hd : s.dptr.toNat + j ∉ s.dirty) :
    Memory.read s.cutDigest.mem (s.dptr.toNat + j) = Memory.read s.mem (s.dptr.toNat + j) ∨
      Memory.read s.cutDigest.mem (s.dptr.toNat + j) = (serializeWords s.acc).getD j 0 := by
  unfold State.cutDigest
  rw [State.settleDigest_read _ _ (by simp only [State.tearDigest_dirty]; exact fun h => hd h.2), State.tearDigest_mem,
    Memory.read_writeBytes_inside _ hwf (by simp; omega) (by simpa using hj)]
  exact tornBytes_getD _ _ _ _ _ (by simpa using hj)

theorem not_dirty_of_quiet {s : State} (hq : quiet s s.digestRange) {j : Nat} (hj : j < 64) :
    s.dptr.toNat + j ∉ s.dirty := by
  intro h
  exact hq _ h ⟨by simp [State.digestRange], by simp [State.digestRange]; omega⟩

theorem isDigest_of_bytes {m : List Host.Cell} {a : Nat} {w : Lanes DWord}
    (h : ∀ j < 64, Memory.read m (a + j) = (serializeWords w).getD j 0) : isDigest m a w := by
  intro i j
  have hi := i.isLt
  have hj := j.isLt
  rw [Nat.add_assoc, h _ (by omega), serializeWords_getD, byteOf_toNat]

/-! ### What a next state is -/

theorem loadKey_next {inc : Bool} {s t : State} (h : loadKey inc s = .next t) :
    ∃ e kb f k, t = State.complete { s with kb := kb, free := f, kptr := k } e ∧
      (inc = false → k = s.kptr) ∧ (e ≠ .ok → k = s.kptr) := by
  rcases loadKey_cases inc s with ⟨_, h'⟩ | ⟨_, h'⟩ | ⟨_, _, h'⟩ | ⟨_, _, h'⟩ <;> rw [h'] at h
  · injection h with h; exact ⟨.range, s.kb, s.free, s.kptr, h.symm, fun _ => rfl, fun _ => rfl⟩
  · cases h
  · injection h with h; exact ⟨.bus, _, _, s.kptr, h.symm, fun _ => rfl, fun _ => rfl⟩
  · injection h with h
    subst h
    rw [State.settleKey_frame]
    generalize ((s.parseKey (s.fetch (s.keyRange 32))).settleKey _).kb = kb
    generalize ((s.parseKey (s.fetch (s.keyRange 32))).settleKey _).free = f
    refine ⟨.ok, kb, f, if inc then s.kptr + 32 else s.kptr, ?_, by simp +contextual, by simp⟩
    cases inc <;> rfl

theorem loadMsg_next {inc : Bool} {s t : State} (h : loadMsg inc s = .next t) :
    ∃ e mb f k, t = State.complete { s with mb := mb, free := f, mptr := k } e ∧
      (inc = false → k = s.mptr) ∧ (e ≠ .ok → k = s.mptr) := by
  rcases loadMsg_cases inc s with ⟨_, h'⟩ | ⟨_, h'⟩ | ⟨_, _, h'⟩ | ⟨_, _, h'⟩ <;> rw [h'] at h
  · injection h with h; exact ⟨.range, s.mb, s.free, s.mptr, h.symm, fun _ => rfl, fun _ => rfl⟩
  · cases h
  · injection h with h; exact ⟨.bus, _, _, s.mptr, h.symm, fun _ => rfl, fun _ => rfl⟩
  · injection h with h
    subst h
    rw [State.settleMsg_frame]
    generalize ((s.parseMsg (s.fetch (s.msgRange 32))).settleMsg _).mb = mb
    generalize ((s.parseMsg (s.fetch (s.msgRange 32))).settleMsg _).free = f
    refine ⟨.ok, mb, f, if inc then s.mptr + 32 else s.mptr, ?_, by simp +contextual, by simp⟩
    cases inc <;> rfl

/-- A command rejected before any access of its own has changed what races reach alone. -/
theorem raise_settleDigest {e : ErrCode} {s t : State} (h : raise e s.settleDigest = .next t) :
    ∃ m f, t = State.complete { s with mem := m, free := f } e ∧ onlyRaced s m ∧
      (quiet s s.digestRange → m = s.mem) := by
  have ho := onlyRaced_settleDigest s
  have hq : quiet s s.digestRange → s.settleDigest.mem = s.mem := fun hq => by rw [settleDigest_of_quiet hq]
  injection h with h
  subst h
  have hfr := State.settleDigest_frame s
  generalize s.settleDigest = v at *
  exact ⟨v.mem, v.free, by rw [hfr], ho, hq⟩

theorem sameOutside_of_onlyRaced {s : State} {m : List Host.Cell} (h : onlyRaced s m) :
    sameOutside s.mem m s.digestRange := fun a ha => h a fun hi => ha hi.1

theorem endStore_next {inc : Bool} {s t : State} (h : endStore inc s = .next t) :
    ∃ m f k, t = State.complete { s with mem := m, free := f, dptr := k } .ok ∧ (inc = false → k = s.dptr) ∧
      sameOutside s.mem m s.digestRange := by
  injection h with h
  have hs := sameOutside_putDigest s
  have hfr := State.putDigest_frame s
  generalize s.putDigest = v at *
  refine ⟨v.mem, v.free, if inc then s.dptr + 64 else s.dptr, ?_, by simp +contextual, hs⟩
  subst h
  rw [hfr]
  cases inc <;> rfl

theorem failStore_next {s t : State} (h : failStore s = .next t) :
    ∃ m f, t = State.complete { s with mem := m, free := f } .bus ∧ sameOutside s.mem m s.digestRange := by
  injection h with h
  have hs := sameOutside_cutDigest s
  have hfr := State.cutDigest_frame s
  generalize s.cutDigest = v at *
  exact ⟨v.mem, v.free, by rw [← h, hfr], hs⟩

theorem storeDigest_next {inc : Bool} {s t : State} (h : storeDigest inc s = .next t) :
    ∃ e m f k, t = State.complete { s with mem := m, free := f, dptr := k } e ∧
      (inc = false → k = s.dptr) ∧ (e ≠ .ok → k = s.dptr) ∧
      (e ≠ .ok → e ≠ .bus → onlyRaced s m ∧ (quiet s s.digestRange → m = s.mem)) ∧
      sameOutside s.mem m s.digestRange := by
  rcases storeDigest_cases inc s with ⟨_, h'⟩ | ⟨_, h'⟩ | ⟨_, _, h'⟩ | ⟨_, _, h'⟩ <;> rw [h'] at h
  · obtain ⟨m, f, ht, ho, hq⟩ := raise_settleDigest h
    exact ⟨.range, m, f, s.dptr, ht, fun _ => rfl, fun _ => rfl, fun _ _ => ⟨ho, hq⟩, sameOutside_of_onlyRaced ho⟩
  · cases h
  · obtain ⟨m, f, ht, hs⟩ := failStore_next h
    exact ⟨.bus, m, f, s.dptr, ht, fun _ => rfl, fun _ => rfl, by simp, hs⟩
  · obtain ⟨m, f, k, ht, hk, hs⟩ := endStore_next h
    exact ⟨.ok, m, f, k, ht, hk, by simp, by simp, hs⟩

theorem oneBlock_next {inc : Bool} {s t : State} (h : oneBlock inc s = .next t) :
    ∃ e kb mb xb zb acc f k m,
      t = State.complete
        { s with kb := kb, mb := mb, xb := xb, zb := zb, acc := acc, free := f, kptr := k, mptr := m } e ∧
      (inc = false → k = s.kptr ∧ m = s.mptr) ∧ (e ≠ .ok → k = s.kptr ∧ m = s.mptr) := by
  rcases oneBlock_cases inc s with ⟨_, h'⟩ | ⟨_, h'⟩ | ⟨_, _, h'⟩ | ⟨_, _, h'⟩ <;> rw [h'] at h
  · injection h with h
    exact ⟨.range, s.kb, s.mb, s.xb, s.zb, s.acc, s.free, s.kptr, s.mptr, h.symm, fun _ => ⟨rfl, rfl⟩,
      fun _ => ⟨rfl, rfl⟩⟩
  · cases h
  · injection h with h
    exact ⟨.bus, _, _, _, _, _, _, s.kptr, s.mptr, h.symm, fun _ => ⟨rfl, rfl⟩, fun _ => ⟨rfl, rfl⟩⟩
  · injection h with h
    subst h
    rw [State.settleBlock_frame]
    generalize (State.settleBlock _ _ _).kb = kb
    generalize (State.settleBlock _ _ _).mb = mb
    generalize (State.settleBlock _ _ _).xb = xb
    generalize (State.settleBlock _ _ _).zb = zb
    generalize (State.settleBlock _ _ _).acc = acc
    generalize (State.settleBlock _ _ _).free = f
    rw [State.passBlock_eq]
    generalize parseBlock _ = kb'
    generalize parseBlock _ = mb'
    generalize addBlocks _ _ = xb'
    generalize f128 _ = zb'
    generalize accumulate _ _ = acc'
    refine ⟨.ok, kb, mb, xb, zb, acc, f, if inc then s.kptr + 32 else s.kptr, if inc then s.mptr + 32 else s.mptr,
      ?_, by simp +contextual, by simp⟩
    cases inc <;> rfl

/-- The digest write of RUN reaches memory and the draws alone. -/
theorem storeRun_next {u t : State} (h : storeRun u = .next t) :
    ∃ e m f, t = State.complete { u with mem := m, free := f } e ∧ (e = .ok ∨ e = .bus) ∧
      sameOutside u.mem m u.digestRange := by
  unfold storeRun endRun failRun at h
  split at h <;> injection h with h
  · exact ⟨.bus, u.cutDigest.mem, u.cutDigest.free, by rw [← h, ← State.cutDigest_frame], .inr rfl,
      sameOutside_cutDigest u⟩
  · exact ⟨.ok, u.putDigest.mem, u.putDigest.free, by rw [← h, ← State.putDigest_frame], .inl rfl,
      sameOutside_putDigest u⟩

theorem execRun_next {s t : State} (h : execRun s = .next t) :
    ∃ e kb mb xb zb acc m n f,
      t = State.complete
        { s with kb := kb, mb := mb, xb := xb, zb := zb, acc := acc, mem := m, bcnt := n, free := f } e ∧
      (e ≠ .ok → e ≠ .bus → onlyRaced s m ∧ (quiet s s.digestRange → m = s.mem)) ∧
      sameOutside s.mem m s.digestRange := by
  rcases execRun_cases s with ⟨e, he, h'⟩ | ⟨_, _, h'⟩ | ⟨_, _, h'⟩ | ⟨_, _, _, h'⟩ | ⟨_, _, _, h'⟩ <;> rw [h'] at h
  · obtain ⟨m, f, ht, ho, hq⟩ := raise_settleDigest h
    exact ⟨e, s.kb, s.mb, s.xb, s.zb, s.acc, m, s.bcnt, f, ht, fun _ _ => ⟨ho, hq⟩, sameOutside_of_onlyRaced ho⟩
  · obtain ⟨m, f, ht, ho, hq⟩ := raise_settleDigest h
    exact ⟨.range, s.kb, s.mb, s.xb, s.zb, s.acc, m, s.bcnt, f, ht, fun _ _ => ⟨ho, hq⟩, sameOutside_of_onlyRaced ho⟩
  · cases h
  · have hfr := State.anyRun_frame s
    generalize s.anyRun = v at *
    obtain ⟨m, f, ht, ho, -⟩ := raise_settleDigest h
    have ho' := (onlyRaced_congr (m := m) (v := v) (s := s) (by rw [hfr]) (by rw [hfr]) (by rw [hfr])).1 ho
    exact ⟨.bus, v.kb, v.mb, v.xb, v.zb, v.acc, m, v.bcnt, f, by rw [ht, hfr], by simp, sameOutside_of_onlyRaced ho'⟩
  · have hfr := State.runBlocks_startRun_frame s s.blockCount
    generalize s.startRun.runBlocks s.blockCount 0 = u at *
    have hsf := State.settleRun_frame u
    generalize u.settleRun = v at *
    obtain ⟨e, m, f, ht, he, hs⟩ := storeRun_next h
    refine ⟨e, v.kb, v.mb, v.xb, v.zb, v.acc, m, v.bcnt, f, ht.trans ?_, ?_, ?_⟩
    · rw [hsf, hfr]
    · rcases he with rfl | rfl <;> simp
    · have hm : v.mem = s.mem := by rw [hsf, hfr]
      have hd : v.digestRange = s.digestRange := State.digestRange_congr (by rw [hsf, hfr])
      rwa [hm, hd] at hs

/-! ### When a command is refused -/

theorem loadKey_refused {inc : Bool} {s : State} :
    loadKey inc s = .refused .sideEffectBuffer ↔ s.vet [s.keyRange 32] = .device := by
  rcases loadKey_cases inc s with ⟨h, h'⟩ | ⟨h, h'⟩ | ⟨h, _, h'⟩ | ⟨h, _, h'⟩ <;> rw [h, h'] <;>
    simp [raise, endLoadKey, finish]

theorem loadMsg_refused {inc : Bool} {s : State} :
    loadMsg inc s = .refused .sideEffectBuffer ↔ s.vet [s.msgRange 32] = .device := by
  rcases loadMsg_cases inc s with ⟨h, h'⟩ | ⟨h, h'⟩ | ⟨h, _, h'⟩ | ⟨h, _, h'⟩ <;> rw [h, h'] <;>
    simp [raise, endLoadMsg, finish]

theorem storeDigest_refused {inc : Bool} {s : State} :
    storeDigest inc s = .refused .sideEffectBuffer ↔ s.vet [s.digestRange] = .device := by
  rcases storeDigest_cases inc s with ⟨h, h'⟩ | ⟨h, h'⟩ | ⟨h, _, h'⟩ | ⟨h, _, h'⟩ <;> rw [h, h'] <;>
    simp [raise, finish, endStore, failStore]

theorem oneBlock_refused {inc : Bool} {s : State} :
    oneBlock inc s = .refused .sideEffectBuffer ↔ s.vet [s.keyRange 32, s.msgRange 32] = .device := by
  rcases oneBlock_cases inc s with ⟨h, h'⟩ | ⟨h, h'⟩ | ⟨h, _, h'⟩ | ⟨h, _, h'⟩ <;> rw [h, h'] <;>
    simp [raise, endBlock, finish]

theorem storeRun_ne_refused {s : State} {q : Refusal} : storeRun s ≠ .refused q := by
  unfold storeRun endRun failRun; split <;> simp [raise, finish]

theorem execRun_refused {s : State} :
    execRun s = .refused .sideEffectBuffer ↔ s.checkLengths = none ∧ s.vet s.runRanges = .device := by
  rcases execRun_cases s with ⟨e, h, h'⟩ | ⟨h0, h, h'⟩ | ⟨h0, h, h'⟩ | ⟨h0, h, _, h'⟩ | ⟨h0, h, _, h'⟩ <;> rw [h'] <;>
    simp [raise, *, storeRun_ne_refused]

/-- The meaning of each command, by the shared operation behind it. -/
theorem exec_eq (i : Instr) (s : State) :
    exec i s =
      match i with
      | .nop => finish s
      | .clracc => finish s.clearACC
      | .ldk => loadKey false s
      | .ldkInc => loadKey true s
      | .ldm => loadMsg false s
      | .ldmInc => loadMsg true s
      | .add32 => finish s.addKM
      | .mix => finish s.mixXB
      | .acc64 => finish s.addZB
      | .std => storeDigest false s
      | .stdInc => storeDigest true s
      | .blk => oneBlock false s
      | .blkInc => oneBlock true s
      | .run => execRun s := by cases i <;> rfl

/-! ### The loop of RUN -/

/-- The registers after a non-empty loop are those of its last block. -/
theorem runBlocks_last (s : State) (n : Nat) :
    (s.runBlocks (n + 1) 0).kb = parseBlock (Memory.readBytes s.mem (s.kptr.toNat + 32 * n) 32) ∧
    (s.runBlocks (n + 1) 0).mb = parseBlock (Memory.readBytes s.mem (s.mptr.toNat + 32 * n) 32) ∧
    (s.runBlocks (n + 1) 0).xb = addBlocks (s.runBlocks (n + 1) 0).kb (s.runBlocks (n + 1) 0).mb ∧
    (s.runBlocks (n + 1) 0).zb = f128 (s.runBlocks (n + 1) 0).xb ∧
    (s.runBlocks (n + 1) 0).zb = blockMix s n ∧
    (s.runBlocks (n + 1) 0).acc = accumulate (s.runBlocks n 0).acc (blockMix s n) ∧
    (s.runBlocks (n + 1) 0).bcnt = BitVec.ofNat 32 (n + 1) := by
  rw [State.runBlocks_succ]
  have hm : (s.runBlocks n 0).mem = s.mem := by simp
  simp [State.fetch, State.keyBlock, State.msgBlock, blockMix]

/-- The accumulator after the loop is the sum over the blocks it passed. -/
theorem runBlocks_acc (s : State) (n : Nat) (l : Fin 8) :
    ((s.runBlocks n 0).acc.get l).toNat =
      ((s.acc.get l).toNat + ∑ k ∈ Finset.range n, ((blockMix s k).get l).toNat) % 2 ^ 64 := by
  induction n with
  | zero =>
    have := (s.acc.get l).isLt
    simp only [State.runBlocks, Finset.range_zero, Finset.sum_empty, Nat.add_zero]; omega
  | succ n ih =>
    rw [(runBlocks_last s n).2.2.2.2.2.1, accumulate_get, BitVec.toNat_add, ih, Finset.sum_range_succ]
    omega

theorem blockMix_startRun (s : State) (k : Nat) : blockMix s.startRun k = blockMix s k := by simp [blockMix]

/-! ### Words of the statements that the units meet -/

theorem isSum32_addBlocks (a b : Lanes Word) : isSum32 a b (addBlocks a b) := fun i => by
  rw [addBlocks_get, BitVec.toNat_add]

theorem isSum64_accumulate (a b : Lanes DWord) : isSum64 a b (accumulate a b) := fun i => by
  rw [accumulate_get, BitVec.toNat_add]

/-- A RUN whose lengths pass has at least one block, and MLEN is that many. -/
theorem lengthsOk_blocks {s : State} (h : lengthsOk s) : ∃ n, s.mlen.toNat = 32 * (n + 1) ∧ s.blockCount = n + 1 := by
  obtain ⟨h0, _, h2⟩ := h
  have : s.mlen.toNat ≠ 0 := fun h => h0 (BitVec.eq_of_toNat_eq (by simpa using h))
  exact ⟨s.mlen.toNat / 32 - 1, by omega, by simp only [State.blockCount, Config.blockBytes_eq]; omega⟩

/-- KB after a pass is the key block, where no other agent wrote it. -/
theorem settleBlock_kb {s : State} {kr mr : Region} (h : s.raced kr = false) : (s.settleBlock kr mr).kb = s.kb := by
  unfold State.settleBlock
  rw [State.settleKey_of_unraced h, State.settleSums_frame, State.settleMsg_frame]

/-- MB after a pass is the message block, where no other agent wrote it. -/
theorem settleBlock_mb {s : State} {kr mr : Region} (h : s.raced mr = false) : (s.settleBlock kr mr).mb = s.mb := by
  unfold State.settleBlock
  rw [State.settleSums_frame]
  have h1 := State.settleKey_frame s kr
  generalize s.settleKey kr = u at *
  rw [State.settleMsg_of_unraced (by rw [State.raced_congr (s := s) (by rw [h1])]; exact h)]
  simp only []
  rw [h1]

/-- The loop of RUN and the races on its input: which registers change, and what they hold. -/
theorem settleRun_loop {s : State} (hl : lengthsOk s) :
    ∃ kb mb xb zb acc f, (s.startRun.runBlocks s.blockCount 0).settleRun =
        { s with
          kb := kb, mb := mb, xb := xb, zb := zb, acc := acc, free := f
          bcnt := BitVec.ofNat 32 (s.mlen.toNat / 32) } ∧
      (quiet s ⟨s.kptr.toNat, s.mlen.toNat⟩ → isBlock kb s.mem (s.kptr.toNat + (s.mlen.toNat - 32))) ∧
      (quiet s ⟨s.mptr.toNat, s.mlen.toNat⟩ → isBlock mb s.mem (s.mptr.toNat + (s.mlen.toNat - 32))) ∧
      (quiet s ⟨s.kptr.toNat, s.mlen.toNat⟩ → quiet s ⟨s.mptr.toNat, s.mlen.toNat⟩ →
        xb = addBlocks kb mb ∧ zb = f128 xb ∧ f = s.free ∧
          ∀ l : Fin 8, (acc.get l).toNat =
            (∑ k ∈ Finset.range (s.mlen.toNat / 32), ((blockMix s k).get l).toNat) % 2 ^ 64) := by
  obtain ⟨n, hn, hbc⟩ := lengthsOk_blocks hl
  have hdiv : s.mlen.toNat / 32 = n + 1 := by omega
  rw [hbc]
  obtain ⟨lk, lm, lx, lz, -, -, lb⟩ := runBlocks_last s.startRun n
  have lacc := runBlocks_acc s.startRun (n + 1)
  have hfr := State.runBlocks_startRun_frame s (n + 1)
  have hfree : (s.startRun.runBlocks (n + 1) 0).free = s.free := by simp
  generalize s.startRun.runBlocks (n + 1) 0 = u at *
  have hsf := State.settleRun_frame u
  have e1 : u.raced (u.keyRange u.mlen.toNat) = s.raced ⟨s.kptr.toNat, s.mlen.toNat⟩ := by
    rw [State.raced_congr (s := s) (by rw [hfr]), show u.keyRange u.mlen.toNat = s.keyRange s.mlen.toNat by rw [hfr]; rfl]
    rfl
  have e2 : u.raced (u.msgRange u.mlen.toNat) = s.raced ⟨s.mptr.toNat, s.mlen.toNat⟩ := by
    rw [State.raced_congr (s := s) (by rw [hfr]), show u.msgRange u.mlen.toNat = s.msgRange s.mlen.toNat by rw [hfr]; rfl]
    rfl
  have k1 : quiet s ⟨s.kptr.toNat, s.mlen.toNat⟩ → u.settleRun.kb = u.kb := fun hq =>
    settleBlock_kb (e1.trans ((quiet_iff _ _).1 hq))
  have k2 : quiet s ⟨s.mptr.toNat, s.mlen.toNat⟩ → u.settleRun.mb = u.mb := fun hq =>
    settleBlock_mb (e2.trans ((quiet_iff _ _).1 hq))
  have k3 : quiet s ⟨s.kptr.toNat, s.mlen.toNat⟩ → quiet s ⟨s.mptr.toNat, s.mlen.toNat⟩ → u.settleRun = u :=
    fun hq hq' => State.settleBlock_of_unraced (e1.trans ((quiet_iff _ _).1 hq)) (e2.trans ((quiet_iff _ _).1 hq'))
  generalize u.settleRun = v at *
  refine ⟨v.kb, v.mb, v.xb, v.zb, v.acc, v.free, by rw [hsf, hdiv, ← lb, hfr], fun hq => ?_, fun hq => ?_,
    fun hq hq' => ?_⟩
  · rw [k1 hq, lk, show s.kptr.toNat + (s.mlen.toNat - 32) = s.kptr.toNat + 32 * n by omega]
    simpa using isBlock_parse _ _
  · rw [k2 hq, lm, show s.mptr.toNat + (s.mlen.toNat - 32) = s.mptr.toNat + 32 * n by omega]
    simpa using isBlock_parse _ _
  · rw [k3 hq hq']
    exact ⟨lx, lz, hfree, fun l => by rw [lacc, hdiv]; simp [blockMix_startRun]⟩

end Sys2Proof.Claims
end

