-- ==== Sys2Proof/Laws/PerInstr.lean ====
section
/-!
SUPPORT. One lemma per constructor of Instr, for the family `WordFields`: the fields the encoding table of
spec/30_encoding.md R112 gives a command are well-formed (R111, R114), and its word carries exactly them.
-/

namespace Sys2Proof.Laws.WordFields

/-- The fields of the command's word are well-formed, and the word carries exactly them. -/
def Statement (i : Instr) : Prop := i.fields.wf = true ∧ fieldsOf (encode i) = i.fields

theorem nop : Statement .nop := by unfold Statement; decide
theorem clracc : Statement .clracc := by unfold Statement; decide
theorem ldk : Statement .ldk := by unfold Statement; decide
theorem ldkInc : Statement .ldkInc := by unfold Statement; decide
theorem ldm : Statement .ldm := by unfold Statement; decide
theorem ldmInc : Statement .ldmInc := by unfold Statement; decide
theorem add32 : Statement .add32 := by unfold Statement; decide
theorem mix : Statement .mix := by unfold Statement; decide
theorem acc64 : Statement .acc64 := by unfold Statement; decide
theorem std : Statement .std := by unfold Statement; decide
theorem stdInc : Statement .stdInc := by unfold Statement; decide
theorem blk : Statement .blk := by unfold Statement; decide
theorem blkInc : Statement .blkInc := by unfold Statement; decide
theorem run : Statement .run := by unfold Statement; decide

end Sys2Proof.Laws.WordFields
end

