-- ==== Sys2Proof/Laws/Sequencer.lean ====
section
/-!
SUPPORT. The sequencer's own steps: running several of them, vetting at the first step, what is read and what is missing,
and that no ending of a command depends on the hidden sequencer state it is reached from.
-/

namespace Sys2Proof.Machine

/-- The state with another command in flight. -/
def State.withJob (s : State) (x : Option Job) : State := { s with job := x }

theorem State.setJob_eq (s : State) (j : Job) : s.setJob j = s.withJob (some j) := rfl

@[simp] theorem State.withJob_withJob (s : State) (x y : Option Job) : (s.withJob x).withJob y = s.withJob y := rfl
@[simp] theorem State.withJob_job (s : State) (x : Option Job) : (s.withJob x).job = x := rfl
@[simp] theorem State.withJob_acc (s : State) (x : Option Job) : (s.withJob x).acc = s.acc := rfl
@[simp] theorem State.withJob_fetch (s : State) (x : Option Job) (r : Region) : (s.withJob x).fetch r = s.fetch r := rfl
@[simp] theorem State.withJob_readFails (s : State) (x : Option Job) (r : Region) :
    (s.withJob x).readFails r = s.readFails r := rfl
@[simp] theorem State.withJob_keyBlock (s : State) (x : Option Job) (k : Nat) :
    (s.withJob x).keyBlock k = s.keyBlock k := rfl
@[simp] theorem State.withJob_msgBlock (s : State) (x : Option Job) (k : Nat) :
    (s.withJob x).msgBlock k = s.msgBlock k := rfl

theorem State.withJob_complete (s : State) (x : Option Job) (e : ErrCode) :
    (s.withJob x).complete e = s.complete e := rfl
theorem State.withJob_parseKey (s : State) (x : Option Job) (b : List Byte) :
    (s.withJob x).parseKey b = (s.parseKey b).withJob x := rfl
theorem State.withJob_parseMsg (s : State) (x : Option Job) (b : List Byte) :
    (s.withJob x).parseMsg b = (s.parseMsg b).withJob x := rfl
theorem State.withJob_tearDigest (s : State) (x : Option Job) (b : List Byte) :
    (s.withJob x).tearDigest b = (s.tearDigest b).withJob x := rfl

theorem State.withJob_settleKey (s : State) (x : Option Job) (r : Region) :
    (s.withJob x).settleKey r = (s.settleKey r).withJob x := by
  unfold State.settleKey
  rw [show (s.withJob x).raced r = s.raced r from rfl]
  split <;> rfl

theorem State.withJob_settleMsg (s : State) (x : Option Job) (r : Region) :
    (s.withJob x).settleMsg r = (s.settleMsg r).withJob x := by
  unfold State.settleMsg
  rw [show (s.withJob x).raced r = s.raced r from rfl]
  split <;> rfl

theorem State.withJob_settleSums (s : State) (x : Option Job) (r q : Region) :
    (s.withJob x).settleSums r q = (s.settleSums r q).withJob x := by
  unfold State.settleSums
  rw [show (s.withJob x).raced r = s.raced r from rfl, show (s.withJob x).raced q = s.raced q from rfl]
  split <;> rfl

theorem State.withJob_settleBlock (s : State) (x : Option Job) (r q : Region) :
    (s.withJob x).settleBlock r q = (s.settleBlock r q).withJob x := by
  unfold State.settleBlock
  rw [State.withJob_settleKey, State.withJob_settleMsg, State.withJob_settleSums]

theorem State.withJob_settleRun (s : State) (x : Option Job) : (s.withJob x).settleRun = s.settleRun.withJob x :=
  State.withJob_settleBlock _ _ _ _

theorem State.withJob_landDigest (s : State) (x : Option Job) (b : List Byte) :
    (s.withJob x).landDigest b = (s.landDigest b).withJob x := rfl

theorem State.withJob_settleDigest (s : State) (x : Option Job) :
    (s.withJob x).settleDigest = s.settleDigest.withJob x := by
  unfold State.settleDigest
  rw [show (s.withJob x).raced (s.withJob x).digestRange = s.raced s.digestRange from rfl,
    show freeRaced (s.withJob x).dirty (s.withJob x).free (s.withJob x).dptr.toNat Config.digestBytes (s.withJob x).mem
      = freeRaced s.dirty s.free s.dptr.toNat Config.digestBytes s.mem from rfl]
  generalize freeRaced s.dirty s.free s.dptr.toNat Config.digestBytes s.mem = m
  split <;> rfl

theorem State.withJob_putDigest (s : State) (x : Option Job) : (s.withJob x).putDigest = s.putDigest.withJob x := by
  unfold State.putDigest
  rw [State.withJob_acc, State.withJob_landDigest, State.withJob_settleDigest]

theorem State.withJob_cutDigest (s : State) (x : Option Job) : (s.withJob x).cutDigest = s.cutDigest.withJob x := by
  unfold State.cutDigest
  rw [State.withJob_acc, State.withJob_tearDigest, State.withJob_settleDigest]

theorem State.withJob_foldBytes (s : State) (x : Option Job) (b c : List Byte) :
    (s.withJob x).foldBytes b c = (s.foldBytes b c).withJob x := rfl

theorem State.withJob_bumpKey (s : State) (x : Option Job) (inc : Bool) :
    (s.withJob x).bumpKey inc = (s.bumpKey inc).withJob x := by cases inc <;> rfl
theorem State.withJob_bumpMsg (s : State) (x : Option Job) (inc : Bool) :
    (s.withJob x).bumpMsg inc = (s.bumpMsg inc).withJob x := by cases inc <;> rfl
theorem State.withJob_bumpDigest (s : State) (x : Option Job) (inc : Bool) :
    (s.withJob x).bumpDigest inc = (s.bumpDigest inc).withJob x := by cases inc <;> rfl

/-! ### The ends of the commands do not depend on the hidden state -/

theorem endLoadKey_withJob (inc : Bool) (s : State) (x : Option Job) :
    endLoadKey inc (s.withJob x) = endLoadKey inc s := by
  unfold endLoadKey finish
  rw [show (s.withJob x).keyRange Config.blockBytes = s.keyRange Config.blockBytes from rfl, State.withJob_settleKey,
    State.withJob_bumpKey, State.withJob_complete]

theorem endLoadMsg_withJob (inc : Bool) (s : State) (x : Option Job) :
    endLoadMsg inc (s.withJob x) = endLoadMsg inc s := by
  unfold endLoadMsg finish
  rw [show (s.withJob x).msgRange Config.blockBytes = s.msgRange Config.blockBytes from rfl, State.withJob_settleMsg,
    State.withJob_bumpMsg, State.withJob_complete]

theorem endBlock_withJob (inc : Bool) (s : State) (x : Option Job) : endBlock inc (s.withJob x) = endBlock inc s := by
  unfold endBlock finish
  rw [show (s.withJob x).keyRange Config.blockBytes = s.keyRange Config.blockBytes from rfl,
    show (s.withJob x).msgRange Config.blockBytes = s.msgRange Config.blockBytes from rfl, State.withJob_settleBlock,
    State.withJob_bumpKey, State.withJob_bumpMsg, State.withJob_complete]

theorem endStore_withJob (inc : Bool) (s : State) (x : Option Job) : endStore inc (s.withJob x) = endStore inc s := by
  unfold endStore finish
  rw [State.withJob_putDigest, State.withJob_bumpDigest, State.withJob_complete]

theorem failStore_withJob (s : State) (x : Option Job) : failStore (s.withJob x) = failStore s := by
  unfold failStore raise
  rw [State.withJob_cutDigest, State.withJob_complete]

theorem endRun_withJob (s : State) (x : Option Job) : endRun (s.withJob x) = endRun s := by
  unfold endRun finish
  rw [State.withJob_putDigest, State.withJob_complete]

theorem failRun_withJob (s : State) (x : Option Job) : failRun (s.withJob x) = failRun s := by
  unfold failRun raise
  rw [State.withJob_cutDigest, State.withJob_complete]

/-- Races on RUN's input do not depend on the bytes of memory. -/
theorem State.settleRun_withMem (s : State) (m : List Host.Cell) :
    ({ s with mem := m } : State).settleRun = { s.settleRun with mem := m } := by
  have a1 : ∀ (u : State) r, ({ u with mem := m } : State).settleKey r = { u.settleKey r with mem := m } := by
    intro u r; unfold State.settleKey
    rw [show ({ u with mem := m } : State).raced r = u.raced r from rfl]; split <;> rfl
  have a2 : ∀ (u : State) r, ({ u with mem := m } : State).settleMsg r = { u.settleMsg r with mem := m } := by
    intro u r; unfold State.settleMsg
    rw [show ({ u with mem := m } : State).raced r = u.raced r from rfl]; split <;> rfl
  have a3 : ∀ (u : State) r q, ({ u with mem := m } : State).settleSums r q = { u.settleSums r q with mem := m } := by
    intro u r q; unfold State.settleSums
    rw [show ({ u with mem := m } : State).raced r = u.raced r from rfl,
      show ({ u with mem := m } : State).raced q = u.raced q from rfl]
    split <;> rfl
  unfold State.settleRun State.settleBlock
  rw [← a3, ← a2, ← a1]; rfl

/-- What a bus error leaves of RUN does not depend on how far the loop had come. -/
theorem anyRun_congr {u v : State}
    (h : v = { u with
      kb := v.kb, mb := v.mb, xb := v.xb, zb := v.zb, acc := v.acc, bcnt := v.bcnt, job := v.job }) :
    v.anyRun = u.anyRun.withJob v.job := by
  generalize v.kb = kb at h
  generalize v.mb = mb at h
  generalize v.xb = xb at h
  generalize v.zb = zb at h
  generalize v.acc = acc at h
  generalize v.bcnt = n at h
  generalize hj : v.job = j at h
  subst h; rfl

theorem raise_anyRun_congr {u v : State}
    (h : v = { u with
      kb := v.kb, mb := v.mb, xb := v.xb, zb := v.zb, acc := v.acc, bcnt := v.bcnt, job := v.job }) (e : ErrCode) :
    raise e v.anyRun.settleDigest = raise e u.anyRun.settleDigest := by
  unfold raise
  rw [anyRun_congr h, State.withJob_settleDigest, State.withJob_complete]

/-! ### Races while RUN writes its digest -/

/-- What settling RUN's results again can change: the register files and the draws. -/
theorem State.settleLate_frame (s : State) (i : Instr) (seen : Nat) :
    s.settleLate i seen =
      { s with
        kb := (s.settleLate i seen).kb, mb := (s.settleLate i seen).mb, xb := (s.settleLate i seen).xb
        zb := (s.settleLate i seen).zb, acc := (s.settleLate i seen).acc, free := (s.settleLate i seen).free } := by
  unfold State.settleLate
  cases i <;> try rfl
  dsimp only
  split
  · rfl
  · exact State.settleRun_frame s

@[simp] theorem State.settleLate_ie (s : State) (i : Instr) (seen : Nat) : (s.settleLate i seen).ie = s.ie := by
  rw [State.settleLate_frame]
@[simp] theorem State.settleLate_busy (s : State) (i : Instr) (seen : Nat) : (s.settleLate i seen).busy = s.busy := by
  rw [State.settleLate_frame]
@[simp] theorem State.settleLate_done (s : State) (i : Instr) (seen : Nat) : (s.settleLate i seen).done = s.done := by
  rw [State.settleLate_frame]
@[simp] theorem State.settleLate_ovr (s : State) (i : Instr) (seen : Nat) : (s.settleLate i seen).ovr = s.ovr := by
  rw [State.settleLate_frame]
@[simp] theorem State.settleLate_err (s : State) (i : Instr) (seen : Nat) : (s.settleLate i seen).err = s.err := by
  rw [State.settleLate_frame]
@[simp] theorem State.settleLate_lastcmd (s : State) (i : Instr) (seen : Nat) : (s.settleLate i seen).lastcmd = s.lastcmd := by
  rw [State.settleLate_frame]
@[simp] theorem State.settleLate_kptr (s : State) (i : Instr) (seen : Nat) : (s.settleLate i seen).kptr = s.kptr := by
  rw [State.settleLate_frame]
@[simp] theorem State.settleLate_mptr (s : State) (i : Instr) (seen : Nat) : (s.settleLate i seen).mptr = s.mptr := by
  rw [State.settleLate_frame]
@[simp] theorem State.settleLate_dptr (s : State) (i : Instr) (seen : Nat) : (s.settleLate i seen).dptr = s.dptr := by
  rw [State.settleLate_frame]
@[simp] theorem State.settleLate_klen (s : State) (i : Instr) (seen : Nat) : (s.settleLate i seen).klen = s.klen := by
  rw [State.settleLate_frame]
@[simp] theorem State.settleLate_mlen (s : State) (i : Instr) (seen : Nat) : (s.settleLate i seen).mlen = s.mlen := by
  rw [State.settleLate_frame]
@[simp] theorem State.settleLate_bcnt (s : State) (i : Instr) (seen : Nat) : (s.settleLate i seen).bcnt = s.bcnt := by
  rw [State.settleLate_frame]
@[simp] theorem State.settleLate_job (s : State) (i : Instr) (seen : Nat) : (s.settleLate i seen).job = s.job := by
  rw [State.settleLate_frame]
@[simp] theorem State.settleLate_mem (s : State) (i : Instr) (seen : Nat) : (s.settleLate i seen).mem = s.mem := by
  rw [State.settleLate_frame]
@[simp] theorem State.settleLate_platform (s : State) (i : Instr) (seen : Nat) : (s.settleLate i seen).platform = s.platform := by
  rw [State.settleLate_frame]
@[simp] theorem State.settleLate_inputs (s : State) (i : Instr) (seen : Nat) : (s.settleLate i seen).inputs = s.inputs := by
  rw [State.settleLate_frame]
@[simp] theorem State.settleLate_rdata (s : State) (i : Instr) (seen : Nat) : (s.settleLate i seen).rdata = s.rdata := by
  rw [State.settleLate_frame]
@[simp] theorem State.settleLate_dirty (s : State) (i : Instr) (seen : Nat) : (s.settleLate i seen).dirty = s.dirty := by
  rw [State.settleLate_frame]

/-- Where no other agent has written memory since, nothing is settled again. -/
theorem State.settleLate_self (s : State) (i : Instr) : s.settleLate i s.dirty.length = s := by
  unfold State.settleLate
  cases i <;> simp

theorem State.settleLate_run {s : State} {seen : Nat} (h : seen ≠ s.dirty.length) :
    s.settleLate .run seen = s.settleRun :=
  if_neg fun e => h e.symm

/-- Nor where RUN's input was left alone all through the busy period. -/
theorem State.settleLate_of_unraced {s : State} (i : Instr) (seen : Nat)
    (hk : s.raced (s.keyRange s.mlen.toNat) = false) (hm : s.raced (s.msgRange s.mlen.toNat) = false) :
    s.settleLate i seen = s := by
  have hr : s.settleRun = s := State.settleBlock_of_unraced hk hm
  unfold State.settleLate
  cases i <;> try rfl
  dsimp only
  split
  · rfl
  · exact hr

/-- After a race on RUN's input every word of ACC is a free draw. -/
theorem State.settleRun_acc_of_raced {s : State}
    (h : s.raced (s.keyRange s.mlen.toNat) = true ∨ s.raced (s.msgRange s.mlen.toNat) = true) (l : Fin 8) :
    ∃ n, s.settleRun.acc.get l = Config.anyDWord n := by
  unfold State.settleRun State.settleBlock
  generalize s.keyRange s.mlen.toNat = kr at *
  generalize s.msgRange s.mlen.toNat = mr at *
  have h1 := State.settleKey_frame s kr
  have h2 := State.settleMsg_frame (s.settleKey kr) mr
  generalize s.settleKey kr = u at *
  generalize u.settleMsg mr = v at *
  unfold State.settleSums
  have e := fun r => State.raced_congr (s := s) (s' := v) (by rw [h2, h1]) r
  rw [e, e, if_pos (by simpa using h)]
  show ∃ n, (drawDWords _).get l = _
  fin_cases l <;> exact ⟨_, rfl⟩

/-! ### What is read -/

theorem hasByte_iff (l : List (Nat × Byte)) (o : Nat) : hasByte l o = true ↔ ∃ b, (o, b) ∈ l := by
  simp only [hasByte, List.any_eq_true, beq_iff_eq]
  exact ⟨fun ⟨c, hc, h⟩ => ⟨c.2, by rw [← h]; exact hc⟩, fun ⟨b, hb⟩ => ⟨_, hb, rfl⟩⟩

/-- The byte of a place that was read is one that was read there. -/
theorem byteAt_mem {l : List (Nat × Byte)} {o : Nat} (h : hasByte l o = true) : (o, byteAt l o) ∈ l := by
  induction l with
  | nil => simp [hasByte] at h
  | cons c l ih =>
    unfold byteAt
    split
    · rename_i hc
      rw [← hc]; exact List.mem_cons_self
    · rename_i hc
      exact List.mem_cons_of_mem _ (ih (by simpa [hasByte, hc] using h))

theorem Job.mem_places (j : Job) (o : Nat) : o ∈ j.places ↔ 32 * j.k ≤ o ∧ o < 32 * j.k + 32 := by
  simp only [Job.places, List.mem_map, List.mem_range, Config.blockBytes_eq]
  exact ⟨fun ⟨d, hd, h⟩ => by omega, fun ⟨h1, h2⟩ => ⟨o - 32 * j.k, by omega, by omega⟩⟩

theorem Job.unparsed_iff (j : Job) (o : Nat) : j.unparsed o = true ↔ 32 * j.k ≤ o ∧ o < 32 * j.n := by
  simp [Job.unparsed]

/-- Bytes that agree with memory give the block that is there. -/
theorem Job.blockBytes_eq_readBytes {j : Job} {l : List (Nat × Byte)} {m : Memory} {a : Nat}
    (hall : j.places.all (fun o => hasByte l o) = true) (hm : ∀ o b, (o, b) ∈ l → b = Memory.read m (a + o)) :
    j.blockBytes l = Memory.readBytes m (a + 32 * j.k) 32 := by
  refine List.ext_getElem (by simp [Job.blockBytes, Job.places]) fun d hd hd' => ?_
  have hd32 : d < 32 := by simpa using hd'
  have ho : hasByte l (32 * j.k + d) = true :=
    List.all_eq_true.1 hall _ ((Job.mem_places j _).2 (by omega))
  have h1 := hm _ _ (byteAt_mem ho)
  have h2 := Memory.readBytes_getD m (a + 32 * j.k) 32 d hd32
  rw [List.getD_eq_getElem _ _ hd'] at h2
  rw [h2]
  simp only [Job.blockBytes, Job.places, List.map_map, List.getElem_map, List.getElem_range, Function.comp_apply,
    Config.blockBytes_eq]
  rw [h1, Nat.add_assoc]

/-! ### Steps of the sequencer -/

theorem enter_clear {rs : List Region} {s s' : State} (h : s.vet rs = .clear) : enter rs s s' = .next s' := by
  unfold enter; rw [h]

theorem enter_pastTop {rs : List Region} {s s' : State} (h : s.vet rs = .pastTop) :
    enter rs s s' = raise .range s := by
  unfold enter; rw [h]

theorem enter_device {rs : List Region} {s s' : State} (h : s.vet rs = .device) :
    enter rs s s' = .refused .sideEffectBuffer := by
  unfold enter; rw [h]

theorem enterStore_clear {rs : List Region} {s s' : State} (h : s.vet rs = .clear) : enterStore rs s s' = .next s' := by
  unfold enterStore; rw [h]

theorem enterStore_pastTop {rs : List Region} {s s' : State} (h : s.vet rs = .pastTop) :
    enterStore rs s s' = raise .range s.settleDigest := by
  unfold enterStore; rw [h]

theorem enterStore_device {rs : List Region} {s s' : State} (h : s.vet rs = .device) :
    enterStore rs s s' = .refused .sideEffectBuffer := by
  unfold enterStore; rw [h]

theorem tick_command {s : State} {j : Job} {i : Instr} (hj : s.job = some j) (hd : decode j.word = .command i) :
    tick s = tickCommand i j s := by
  simp [tick, hj, hd]

theorem answer_command {s : State} {j : Job} {i : Instr} (hj : s.job = some j) (hd : decode j.word = .command i)
    (a : Access) : answer a s = answerCommand i j a s := by
  simp [answer, hj, hd]

theorem runEvents_cons {e : Event} {es : List Event} {s s' : State} (h : handle e s = .next s') :
    runEvents (e :: es) s = runEvents es s' := by
  simp [runEvents, h]

theorem runEvents_append {a b : List Event} {x y : State} (h : runEvents a x = .next y) :
    runEvents (a ++ b) x = runEvents b y := by
  induction a generalizing x with
  | nil => simp [runEvents] at h; subst h; rfl
  | cons e a ih =>
    cases he : handle e x with
    | next x' => rw [runEvents_cons he] at h; rw [List.cons_append, runEvents_cons he]; exact ih h
    | fault f => simp [runEvents, he] at h
    | refused f => simp [runEvents, he] at h

end Sys2Proof.Machine
end

