-- ==== Sys2Proof/Laws/Safety.lean ====
section
/-!
SUPPORT. The invariant of Safety.lean taken apart and put together: what it says of a command in flight, that a completed
state has it, and that it depends on few fields of the state alone.
-/

namespace Sys2Proof.Machine

theorem State.inv_iff (s : State) :
    s.inv = true ↔ Memory.wf s.mem = true ∧ s.err.toNat ≤ 6 ∧ s.jobInv = true := by
  simp [State.inv, and_assoc]

theorem ErrCode.code_le (e : ErrCode) : e.code.toNat ≤ 6 := by cases e <;> decide

theorem State.complete_inv {u : State} (e : ErrCode) (h : Memory.wf u.mem = true) : (u.complete e).inv = true :=
  (State.inv_iff _).2 ⟨h, e.code_le, by simp [State.jobInv, State.complete]⟩

/-- What the invariant says of a command in flight. -/
theorem State.inv_job {s : State} {j : Job} (h : s.inv = true) (hj : s.job = some j) :
    Memory.wf s.mem = true ∧ s.busy = true ∧ s.done = false ∧ s.err = 0 ∧ j.word = s.lastcmd ∧
      (∀ i, decode j.word = .command i → j.phaseOk i s = true) ∧
      (∀ w, decode j.word = .illegal w → j.phase = .start) := by
  obtain ⟨h1, h2, h3⟩ := (State.inv_iff s).1 h
  simp [State.jobInv, hj, Job.ok] at h3
  obtain ⟨⟨⟨hb, hd⟩, he⟩, hw, hm⟩ := h3
  refine ⟨h1, hb, hd, he, hw, fun i hi => ?_, fun w hw => ?_⟩
  · rw [hi] at hm; exact hm
  · rw [hw] at hm; simpa using hm

/-- What it says of an idle core. -/
theorem State.inv_idle {s : State} (h : s.inv = true) (hb : s.busy = false) : s.job = none ∧ s.dirty = [] := by
  obtain ⟨-, -, h3⟩ := (State.inv_iff s).1 h
  unfold State.jobInv at h3
  cases hj : s.job with
  | none => rw [hj] at h3; simp at h3; exact ⟨rfl, h3.2⟩
  | some j => rw [hj] at h3; simp [hb] at h3

theorem State.inv_of_idle {u : State} (hm : Memory.wf u.mem = true) (he : u.err.toNat ≤ 6) (hb : u.busy = false)
    (hj : u.job = none) (hd : u.dirty = []) : u.inv = true :=
  (State.inv_iff u).2 ⟨hm, he, by simp [State.jobInv, hj, hb, hd]⟩

theorem State.fits_of_admit {s : State} {rs : List Region} (h : s.vet rs = .clear) {r : Region} (hr : r ∈ rs) :
    r.base + r.len ≤ 2 ^ 32 :=
  ((State.admit_eq_clear_iff _ _).1 h).1 r hr

theorem State.admit_congr_device {s u : State} (h : u.platform.device = s.platform.device) (rs : List Region) :
    u.vet rs = s.vet rs := by
  simp [State.vet, State.onDevice, h]

/-- A phase is legal or not by the pointers, the lengths, BCNT and the device regions alone. -/
theorem Job.phaseOk_congr {s u : State} (j : Job) (i : Instr) (h1 : u.kptr = s.kptr) (h2 : u.mptr = s.mptr)
    (h3 : u.dptr = s.dptr) (h4 : u.klen = s.klen) (h5 : u.mlen = s.mlen) (h6 : u.bcnt = s.bcnt)
    (h7 : u.platform.device = s.platform.device) : j.phaseOk i u = j.phaseOk i s := by
  have e := fun rs => State.admit_congr_device h7 rs
  have e1 : u.runRanges = s.runRanges := by
    simp only [State.runRanges, State.keyRange, State.msgRange, State.digestRange, h1, h2, h3, h5]
  have e2 : u.checkLengths = s.checkLengths := by simp only [State.checkLengths, h4, h5]
  have e3 : u.blockCount = s.blockCount := by simp only [State.blockCount, h5]
  have e4 : u.keyRange Config.blockBytes = s.keyRange Config.blockBytes := by simp only [State.keyRange, h1]
  have e5 : u.msgRange Config.blockBytes = s.msgRange Config.blockBytes := by simp only [State.msgRange, h2]
  have e6 : u.digestRange = s.digestRange := by simp only [State.digestRange, h3]
  cases i <;> simp only [Job.phaseOk, Job.runOk, State.admitted, e, e1, e2, e3, e4, e5, e6, h6]

/-- The invariant passes to a state that differs in fields it does not read. -/
theorem State.inv_congr {s u : State} (hi : s.inv = true) (h1 : u.kptr = s.kptr) (h2 : u.mptr = s.mptr)
    (h3 : u.dptr = s.dptr) (h4 : u.klen = s.klen) (h5 : u.mlen = s.mlen) (h6 : u.bcnt = s.bcnt)
    (h7 : u.platform.device = s.platform.device) (h8 : u.busy = s.busy) (h9 : s.done = false → u.done = false)
    (h10 : u.err = s.err) (h11 : u.lastcmd = s.lastcmd) (h12 : u.job = s.job) (h13 : Memory.wf u.mem = true)
    (h14 : s.dirty = [] → s.busy = false → u.dirty = []) : u.inv = true := by
  obtain ⟨a1, a2, a3⟩ := (State.inv_iff s).1 hi
  refine (State.inv_iff u).2 ⟨h13, by rw [h10]; exact a2, ?_⟩
  unfold State.jobInv at a3 ⊢
  rw [h12]
  cases hj : s.job with
  | none =>
    rw [hj] at a3; simp at a3 ⊢
    exact ⟨by rw [h8]; exact a3.1, h14 a3.2 a3.1⟩
  | some j =>
    rw [hj] at a3; simp at a3 ⊢
    refine ⟨⟨⟨by rw [h8]; exact a3.1.1.1, h9 a3.1.1.2⟩, by rw [h10]; exact a3.1.2⟩, ?_⟩
    have a4 := a3.2
    unfold Job.ok at a4 ⊢
    rw [h11]
    cases hd : decode j.word with
    | illegal w => rw [hd] at a4; exact a4
    | command i => rw [hd] at a4; simp only [Job.phaseOk_congr j i h1 h2 h3 h4 h5 h6 h7]; exact a4

/-- Settling races does not disturb the invariant. -/
theorem State.inv_settleLate {s : State} (i : Instr) (seen : Nat) (h : s.inv = true) : (s.settleLate i seen).inv = true :=
  State.inv_congr h (by simp) (by simp) (by simp) (by simp) (by simp) (by simp) (by simp) (by simp) (by simp) (by simp)
    (by simp) (by simp) (by simpa using ((State.inv_iff s).1 h).1) (by simp +contextual)

/-! ### The phases -/

theorem Job.readOk_iff (j : Job) (i : Instr) (key msg : List (Nat × Byte)) :
    j.readOk i key msg = true ↔
      j.k < j.n ∧ (readsKey i || key.isEmpty) = true ∧ (readsMsg i || msg.isEmpty) = true ∧
        j.placesOk key = true ∧ j.placesOk msg = true := by
  simp only [Job.readOk, Bool.and_eq_true, decide_eq_true_eq, and_assoc]

/-- One more byte read. -/
theorem Job.placesOk_cons {j : Job} {l : List (Nat × Byte)} {o : Nat} (b : Byte) (h : j.placesOk l = true)
    (hu : j.unparsed o = true) (hn : hasByte l o = false) : j.placesOk ((o, b) :: l) = true := by
  simp only [Job.placesOk, Bool.and_eq_true, List.all_cons, decide_eq_true_eq, List.map_cons, List.nodup_cons] at h ⊢
  refine ⟨⟨hu, h.1⟩, fun hm => ?_, h.2⟩
  obtain ⟨c, hc, rfl⟩ := List.mem_map.1 hm
  simp [(hasByte_iff l c.1).2 ⟨c.2, hc⟩] at hn

/-- The current block parsed. -/
theorem Job.placesOk_later {j : Job} {l : List (Nat × Byte)} (h : j.placesOk l = true) (p : Phase) :
    ({ j with k := j.k + 1, phase := p } : Job).placesOk (j.later l) = true := by
  simp only [Job.placesOk, Bool.and_eq_true, decide_eq_true_eq, List.all_eq_true] at h ⊢
  refine ⟨fun c hc => ?_, (List.filter_sublist.map _).nodup h.2⟩
  simp only [Job.later, List.mem_filter, decide_eq_true_eq] at hc
  exact (Job.unparsed_iff _ _).2 ⟨hc.2, ((Job.unparsed_iff _ _).1 (h.1 c hc.1)).2⟩

/-- One more write answered. -/
theorem leftOk_erase {l : List Nat} (o : Nat) (h : leftOk l = true) : leftOk (l.erase o) = true := by
  simp only [leftOk, Bool.and_eq_true, decide_eq_true_eq, List.all_eq_true] at h ⊢
  exact ⟨fun c hc => h.1 c (List.mem_of_mem_erase hc), h.2.erase _⟩

/-- Which commands read, and what holds while one does. -/
theorem Job.phaseOk_read {j : Job} {i : Instr} {s : State} {key msg : List (Nat × Byte)} (hp : j.phaseOk i s = true)
    (h : j.phase = .read key msg) :
    i ∈ [Instr.ldk, .ldkInc, .ldm, .ldmInc, .blk, .blkInc, .run] ∧ j.readOk i key msg = true := by
  cases i <;> simp only [Job.phaseOk, h] at hp <;> simp at hp ⊢ <;> simp [hp]

/-- Which commands write, and what holds while one does. -/
theorem Job.phaseOk_write {j : Job} {i : Instr} {s : State} {left : List Nat} {seen : Nat} (hp : j.phaseOk i s = true)
    (h : j.phase = .write left seen) :
    i ∈ [Instr.std, .stdInc, .run] ∧ leftOk left = true ∧ s.dptr.toNat + 64 ≤ 2 ^ 32 := by
  cases i <;>
    simp only [Job.phaseOk, h, Job.runOk, State.admitted, Bool.and_eq_true, beq_iff_eq, reduceCtorEq,
      Bool.false_eq_true] at hp
  case std => exact ⟨by simp, hp.2, State.fits_of_admit hp.1 (List.mem_singleton.2 rfl)⟩
  case stdInc => exact ⟨by simp, hp.2, State.fits_of_admit hp.1 (List.mem_singleton.2 rfl)⟩
  case run =>
    exact ⟨by simp, hp.2, State.fits_of_admit hp.1.1.1.1.2 (r := s.digestRange) (by simp [State.runRanges])⟩

/-- Other bytes read, the phase still legal. -/
theorem Job.phaseOk_setRead {j : Job} {i : Instr} {s : State} {key msg key' msg' : List (Nat × Byte)}
    (hp : j.phaseOk i s = true) (h : j.phase = .read key msg)
    (hr : ({ j with phase := .read key' msg' } : Job).readOk i key' msg' = true) :
    ({ j with phase := .read key' msg' } : Job).phaseOk i s = true := by
  obtain ⟨w, n, k, p⟩ := j
  subst h
  cases i <;> simp only [Job.phaseOk, Job.runOk, Bool.and_eq_true, Bool.false_eq_true, reduceCtorEq, beq_iff_eq] at hp ⊢ <;>
    exact ⟨hp.1, hr⟩

/-- Other writes open, the phase still legal. -/
theorem Job.phaseOk_setWrite {j : Job} {i : Instr} {s : State} {left left' : List Nat} {seen seen' : Nat} (hp : j.phaseOk i s = true)
    (h : j.phase = .write left seen) (hl : leftOk left' = true) :
    ({ j with phase := .write left' seen' } : Job).phaseOk i s = true := by
  obtain ⟨w, n, k, p⟩ := j
  subst h
  cases i <;> simp only [Job.phaseOk, Job.runOk, Bool.and_eq_true, Bool.false_eq_true, reduceCtorEq, beq_iff_eq] at hp ⊢ <;>
    exact ⟨hp.1, hl⟩

/-- The invariant holds of the next state of a command in flight if its phase is legal there. -/
theorem State.inv_setJob {s u : State} {j j' : Job} {i : Instr} (hi : s.inv = true) (hj : s.job = some j)
    (hw : j'.word = j.word) (hd : decode j.word = .command i) (hp : j'.phaseOk i u = true) (h8 : u.busy = s.busy)
    (h9 : u.done = s.done) (h10 : u.err = s.err) (h11 : u.lastcmd = s.lastcmd) (hm : Memory.wf u.mem = true) :
    (u.setJob j').inv = true := by
  obtain ⟨a1, a2, a3, a4, a5, a6, a7⟩ := State.inv_job hi hj
  refine (State.inv_iff _).2 ⟨hm, ?_, ?_⟩
  · show u.err.toNat ≤ 6; rw [h10, a4]; decide
  · simp only [State.jobInv, State.setJob, Job.ok, h8, h9, h10, h11, a2, a3, a4, hw, a5, beq_self_eq_true, Bool.not_false,
      Bool.and_self, Bool.true_and]
    rw [← a5, hd, ← hp]
    exact Job.phaseOk_congr j' i rfl rfl rfl rfl rfl rfl rfl

end Sys2Proof.Machine
end

