-- ==== Sys2Proof/Tests/Slice0.lean ====
section
/-!
SUPPORT. The model's own tests: expected results come from the encoding table and the vectors of spec/95_test_vectors.md
(V-…), or from the rule named. The witnesses at the end show, for every statement with hypotheses, a concrete state that
meets them, clause by clause, at the boundaries of the ranges.
-/

namespace Sys2Proof.Tests

open Sys2Proof.Machine Sys2Proof.Claims

/-- A view of the next state, none if the machine stopped. -/
def view {α : Type} (f : State → α) (o : Host.Outcome State Fault Refusal) : Option α :=
  match o with
  | .next s => some (f s)
  | .fault _ => none
  | .refused _ => none

/-- Whether the answer is the refusal of 20_memory.md R87. -/
def isRefusal (o : Host.Outcome State Fault Refusal) : Bool :=
  match o with
  | .refused q => q == .sideEffectBuffer
  | .next _ => false
  | .fault _ => false

theorem next_of_view {α : Type} {f : State → α} {o : Host.Outcome State Fault Refusal} {a : α}
    (h : view f o = some a) : ∃ t, o = .next t ∧ f t = a := by
  cases o with
  | next t => exact ⟨t, rfl, by simpa [view] using h⟩
  | fault r => simp [view] at h
  | refused r => simp [view] at h

theorem refused_of_isRefusal {o : Host.Outcome State Fault Refusal} (h : isRefusal o = true) :
    o = .refused .sideEffectBuffer := by
  unfold isRefusal at h
  split at h <;> simp_all

/-- The core right after it has accepted the command. -/
def issued (i : Instr) (s : State) : State := s.accept (encode i)

/-- A host write at a window offset comes next. -/
def writing (off : Nat) (v : Word) (s : State) : State :=
  { s with inputs := [.hostWrite (s.platform.mmioBase + off) 4 v] }

/-- A host read at a window offset comes next. -/
def reading (off : Nat) (s : State) : State := { s with inputs := [.hostRead (s.platform.mmioBase + off) 4] }

/-! ## Well-formedness: one ill-formed word per check (30_encoding.md R117) -/

theorem test_wf_refuses_reserved_bit :
    Fields.rsvClear ⟨0x04, false, 1⟩ = false ∧ Fields.wf ⟨0x04, false, 1⟩ = false := by decide

theorem test_wf_refuses_unknown_op :
    Fields.opKnown ⟨0x09, false, 0⟩ = false ∧ Fields.wf ⟨0x09, false, 0⟩ = false := by decide

theorem test_wf_refuses_increment :
    Fields.incAllowed ⟨0x05, true, 0⟩ = false ∧ Fields.wf ⟨0x05, true, 0⟩ = false := by decide

theorem test_wf_accepts_increment : Fields.wf ⟨0x08, true, 0⟩ = true := by decide

/-! ## Decoding: the bits of R111 and R112, RSV I OP -/

theorem test_decode_driver_words :
    decode 0b00000000000000000000000000000000 = .command .nop ∧
    decode 0b00000000000000000000000000001000 = .command .blk ∧
    decode 0b00000000000000000000000100001000 = .command .blkInc ∧
    decode 0b00000000000000000000000000010000 = .command .run := by decide

theorem test_decode_codec_words :
    decode 0b00000000000000000000000000000010 = .command .ldk ∧
    decode 0b00000000000000000000000100000010 = .command .ldkInc ∧
    decode 0b00000000000000000000000000000011 = .command .ldm ∧
    decode 0b00000000000000000000000100000011 = .command .ldmInc ∧
    decode 0b00000000000000000000000000000111 = .command .std ∧
    decode 0b00000000000000000000000100000111 = .command .stdInc := by decide

theorem test_decode_arithmetic_words :
    decode 0b00000000000000000000000000000001 = .command .clracc ∧
    decode 0b00000000000000000000000000000100 = .command .add32 ∧
    decode 0b00000000000000000000000000000101 = .command .mix ∧
    decode 0b00000000000000000000000000000110 = .command .acc64 := by decide

/-- Words of V-E6, with the reasons of R117. -/
theorem test_decode_illegal_words :
    decode 0x00000009 = .illegal .unknownOp ∧ decode 0x0000000F = .illegal .unknownOp ∧
    decode 0x00000011 = .illegal .unknownOp ∧ decode 0x000000FF = .illegal .unknownOp ∧
    decode 0x00000100 = .illegal .incNotAllowed ∧ decode 0x00000110 = .illegal .incNotAllowed ∧
    decode 0x00000200 = .illegal .reservedBits ∧ decode 0x80000010 = .illegal .reservedBits := by decide

theorem test_table_words :
    decodeTableWord 32 0x107 = some .stdInc ∧ decodeTableWord 32 0x010 = some .run ∧
    decodeTableWord 32 0x105 = none := by decide

/-- Syntax (R118). -/
theorem test_syntax :
    assemble "LDK+" = some .ldkInc ∧ assemble "RUN" = some .run ∧ assemble "MIX+" = none ∧
    disassemble 0x00000107 = "STD+" ∧ disassemble 0x00000105 = ".word 0x00000105" ∧
    disassemble 0xFFFFFFFF = ".word 0xFFFFFFFF" := by decide

/-- A word placed for the step is run by the very next step (V-F2). -/
theorem test_fetch_word :
    view (fun t => (t.zb, t.statusWord, t.lastcmd))
        (step (({ State.reset with xb := ⟨1, 2, 3, 4, 5, 6, 7, 8⟩ } : State).withFetchWord 32 0x5)) =
      some (⟨5, 12, 21, 32, 126, 180, 152, 126⟩, 0x00000002, 0x5) := by decide

/-! ## Results of the commands -/

theorem test_nop : view (fun t => t) (step (issued .nop State.reset)) = some { State.reset with done := true } := by
  decide

/-- V-A5. -/
theorem test_clracc :
    view (fun t => (t.acc, t.kb)) (step (issued .clracc
        { State.reset with acc := ⟨5, 6, 7, 8, 9, 10, 11, 12⟩, kb := Lanes.fill 3 })) =
      some (Lanes.fill 0, Lanes.fill 3) := by decide

/-- V-A1. -/
theorem test_add32_lanes_wrap :
    view (fun t => t.xb) (step (issued .add32
        { State.reset with
          kb := ⟨0xFFFFFFFF, 0x80000000, 0x7FFFFFFF, 0, 0x12345678, 0xFFFFFFFF, 1, 0xDEADBEEF⟩
          mb := ⟨0x00000001, 0x80000000, 0x00000001, 0, 0x87654321, 0xFFFFFFFF, 0xFFFFFFFF, 0x21524111⟩ })) =
      some ⟨0, 0, 0x80000000, 0, 0x99999999, 0xFFFFFFFE, 0, 0⟩ := by decide

/-- V-A3. -/
theorem test_acc64_lanes_wrap :
    view (fun t => t.acc) (step (issued .acc64
        { State.reset with
          acc := ⟨0xFFFFFFFFFFFFFFFF, 0x00000000FFFFFFFF, 0x8000000000000000, 0, 0x7FFFFFFFFFFFFFFF,
            0xFFFFFFFFFFFFFFFF, 0x0123456789ABCDEF, 5⟩
          zb := ⟨1, 1, 0x8000000000000000, 0, 1, 0xFFFFFFFFFFFFFFFF, 0xFEDCBA9876543210, 0⟩ })) =
      some ⟨0, 0x0000000100000000, 0, 0, 0x8000000000000000, 0xFFFFFFFFFFFFFFFE, 0xFFFFFFFFFFFFFFFF, 5⟩ := by
  decide

/-- V-F1 (the source's known value) and V-F8. -/
theorem test_mix_known_values :
    f128 (Lanes.fill 0xFF00FF00) =
      ⟨0xFE02FC02FE010000, 0xFE02FC02FE010000, 0xFE02FC02FE010000, 0xFE02FC02FE010000, 0xFA0EE81AEE090000,
        0xFA0EE81AEE090000, 0xFA0EE81AEE090000, 0xFA0EE81AEE090000⟩ ∧
    f128 ⟨0x01234567, 0x89ABCDEF, 0xDEADBEEF, 0xCAFEBABE, 0x0BADF00D, 0xFEEDFACE, 0x12345678, 0x9ABCDEF0⟩ =
      ⟨0x000D49E27376163B, 0x89187141579E1C52, 0x0FD5BDEE5621CA08, 0x7AB3002EA447D620, 0x46D2580CE8DC4A8E,
        0x25075ECFD396464C, 0x6E53243622A338DC, 0x09A84FA6B34CE47C⟩ := by decide

/-- V-F7: the index map, row by row. -/
theorem test_mix_index_map :
    f128 ⟨1, 0, 0, 0, 0x1, 0x100, 0x10000, 0x1000000⟩ = ⟨0x1, 0, 0, 0, 0x1010100, 0, 0x1000101, 0x10101⟩ ∧
    f128 ⟨0, 1, 0, 0, 0x1, 0x100, 0x10000, 0x1000000⟩ = ⟨0, 0x100, 0, 0, 0x1010100, 0x1010001, 0, 0x10101⟩ ∧
    f128 ⟨0, 0, 1, 0, 0x1, 0x100, 0x10000, 0x1000000⟩ = ⟨0, 0, 0x10000, 0, 0x1010100, 0x1010001, 0x1000101, 0⟩ ∧
    f128 ⟨0, 0, 0, 1, 0x1, 0x100, 0x10000, 0x1000000⟩ = ⟨0, 0, 0, 0x1000000, 0, 0x1010001, 0x1000101, 0x10101⟩ := by
  decide

/-- The bytes 00 01 … 1F at 0xFFFFFFE0, the last block of memory (V-C1, V-C5). -/
def countingBlock : Memory := Memory.writeBytes [] 0xFFFFFFE0 ((List.range 32).map (BitVec.ofNat 8))

/-- V-C1 and the legal corner of V-C5: the last block of memory, and KPTR wraps. -/
theorem test_ldkInc_last_block :
    view (fun t => (t.kb, t.kptr, t.statusWord)) (step (issued .ldkInc
        { State.reset with mem := countingBlock, kptr := 0xFFFFFFE0 })) =
      some (⟨0x03020100, 0x07060504, 0x0B0A0908, 0x0F0E0D0C, 0x13121110, 0x17161514, 0x1B1A1918, 0x1F1E1D1C⟩, 0,
        0x00000002) := by decide

/-- V-C5: one byte further is RANGE, with nothing changed. -/
theorem test_ldk_past_the_top :
    view (fun t => (t.kb, t.kptr, t.statusWord)) (step (issued .ldk
        { State.reset with mem := countingBlock, kptr := 0xFFFFFFE1 })) =
      some (Lanes.fill 0, 0xFFFFFFE1, 0x00000502) := by decide

/-- V-C3: little-endian, and plain LDM leaves MPTR. -/
theorem test_ldm_little_endian :
    view (fun t => (t.mb, t.mptr)) (step (issued .ldm
        { State.reset with mem := Memory.writeBytes [] 0x1001 [0xEF, 0xBE, 0xAD, 0xDE], mptr := 0x1001 })) =
      some (⟨0xDEADBEEF, 0, 0, 0, 0, 0, 0, 0⟩, 0x1001) := by decide

theorem test_ldmInc_moves_mptr :
    view (fun t => (t.mptr, t.kptr, t.kb)) (step (issued .ldmInc { State.reset with mptr := 0x2000 })) =
      some (0x2020, 0, Lanes.fill 0) := by decide

/-- V-C2. -/
theorem test_std_little_endian :
    view (fun t => (Memory.readBytes t.mem 0x3000 10, t.dptr)) (step (issued .std
        { State.reset with acc := ⟨0x0123456789ABCDEF, 0, 0, 0, 0, 0, 0, 0⟩, dptr := 0x3000 })) =
      some ([0xEF, 0xCD, 0xAB, 0x89, 0x67, 0x45, 0x23, 0x01, 0, 0], 0x3000) := by decide

/-- V-C5: the last 64 bytes of memory, and DPTR wraps; word 7 of V-C4 ends at 0xFFFFFFFF. -/
theorem test_stdInc_last_digest :
    view (fun t => (Memory.readBytes t.mem 0xFFFFFFF8 8, t.dptr, t.statusWord)) (step (issued .stdInc
        { State.reset with acc := ⟨0, 0, 0, 0, 0, 0, 0, 0x89119A22AB33BC40⟩, dptr := 0xFFFFFFC0 })) =
      some ([0x40, 0xBC, 0x33, 0xAB, 0x22, 0x9A, 0x11, 0x89], 0, 0x00000002) := by decide

/-- The memory of V-R2: key 01 00 … at 0x1000, message byte 16 = 02 at 0x2000. -/
def smallInput : Memory := [(0x1000, 0x01), (0x2010, 0x02)]

/-- The registers of V-R2. -/
def smallRun : State :=
  { State.reset with
    mem := smallInput, kptr := 0x1000, mptr := 0x2000, dptr := 0x3000, klen := 32, mlen := 32 }

/-- V-R2. -/
theorem test_run_one_block :
    view (fun t => (t.kb, t.mb, t.xb)) (step (issued .run smallRun)) =
      some (⟨1, 0, 0, 0, 0, 0, 0, 0⟩, ⟨0, 0, 0, 0, 2, 0, 0, 0⟩, ⟨1, 0, 0, 0, 2, 0, 0, 0⟩) ∧
    view (fun t => (t.zb, t.acc, t.bcnt)) (step (issued .run smallRun)) =
      some (⟨2, 0, 0, 0, 0, 0, 2, 2⟩, ⟨2, 0, 0, 0, 0, 0, 2, 2⟩, 1) ∧
    view State.mem (step (issued .run smallRun)) = some (smallInput ++ [(0x3000, 2), (0x3030, 2), (0x3038, 2)]) := by
  decide

/-- V-R3: two blocks. -/
theorem test_run_two_blocks :
    view (fun t => (t.acc, t.bcnt, t.kptr)) (step (issued .run
        { smallRun with
          mem := (List.range 64).map (fun i => (0x1000 + i, BitVec.ofNat 8 i)) ++
            (List.range 64).map (fun i => (0x2000 + i, BitVec.ofNat 8 (64 + i)))
          klen := 64, mlen := 64 })) =
      some (⟨0x73AB2F06635BE800, 0x83099C420FB93680, 0x936A0C81BF188600, 0xA4CC7FC57179D680, 0x73639F6C00D94500,
        0x168A895937924100, 0x605DA68027F35200, 0x4FDD77631B566400⟩, 2, 0x1000) := by decide +kernel

/-- V-R8: BLK adds to ACC as it stands. -/
theorem test_blk_adds_to_acc :
    view (fun t => (t.acc, t.kptr, t.mptr)) (step (issued .blk
        { smallRun with acc := ⟨2, 0, 0, 0, 0, 0, 2, 2⟩ })) =
      some (⟨4, 0, 0, 0, 0, 0, 4, 4⟩, 0x1000, 0x2000) := by decide

theorem test_blkInc_moves_both :
    view (fun t => (t.zb, t.kptr, t.mptr, t.bcnt)) (step (issued .blkInc smallRun)) =
      some (⟨2, 0, 0, 0, 0, 0, 2, 2⟩, 0x1020, 0x2020, 0) := by decide

/-! ## Errors and status -/

/-- The STATUS that RUN leaves on the lengths. -/
def runStatus (klen mlen kptr : Word) : Option Word :=
  view State.statusWord (step (issued .run { State.reset with klen := klen, mlen := mlen, kptr := kptr }))

/-- V-E1, V-E2, V-E3, V-E4. -/
theorem test_run_checks :
    runStatus 5 0 0 = some 0x102 ∧ runStatus 64 32 0 = some 0x202 ∧ runStatus 5 7 0 = some 0x202 ∧
    runStatus 0 32 0 = some 0x202 ∧ runStatus 31 31 0 = some 0x302 ∧ runStatus 33 33 0 = some 0x302 ∧
    runStatus 7 7 0xFFFFFFFF = some 0x302 := by decide

/-- V-E5. -/
theorem test_run_ranges :
    runStatus 64 64 0xFFFFFFC0 = some 0x002 ∧ runStatus 64 64 0xFFFFFFC1 = some 0x502 ∧
    view State.statusWord (step (issued .run { State.reset with klen := 64, mlen := 64, mptr := 0xFFFFFFE0 }))
      = some 0x502 ∧
    view State.statusWord (step (issued .run { State.reset with klen := 64, mlen := 64, dptr := 0xFFFFFFC1 }))
      = some 0x502 := by decide

/-- V-E6: MIX with I = 1. -/
theorem test_illegal_word :
    view (fun t => (t.statusWord, t.lastcmd, t.zb)) (step (State.reset.accept 0x00000105)) =
      some (0x402, 0x00000105, Lanes.fill 0) := by decide

/-- V-E8. -/
theorem test_status_write_one_to_clear :
    let s : State := { State.reset with err := 5, ovr := true, done := true }
    s.statusWord = 0x506 ∧
    view State.statusWord (step (writing 0x008 0x00000002 s)) = some 0x504 ∧
    view State.statusWord (step (writing 0x008 0xFFFFFFFF s)) = some 0x500 := by decide

/-- V-E9. -/
theorem test_interrupt :
    let s : State := { State.reset with done := true }
    s.irq = false ∧ view State.irq (step (writing 0x004 1 s)) = some true ∧
    view State.irq (step (writing 0x008 2 { s with ie := true })) = some false ∧
    view State.irq (step (writing 0x00C 0 { s with ie := true })) = some false := by decide

/-- V-S1. -/
theorem test_reset_reads :
    view State.rdata (step (reading 0x000 State.reset)) = some (some 0x4D4D0128) ∧
    view State.rdata (step (reading 0x008 State.reset)) = some (some 0) ∧
    view State.rdata (step (reading 0x13C State.reset)) = some (some 0) ∧
    view State.rdata (step (reading 0x1FC State.reset)) = some (some 0) := by decide

/-- V-S2. -/
theorem test_soft_reset_discards_ie :
    view (fun t => (t.ie, t.kptr, t.mem)) (step (writing 0x004 3 smallRun)) = some (false, 0, smallInput) := by decide

/-- P5: the write comes while the core is busy, or after the command. -/
theorem test_write_while_busy :
    view (fun t => (t.kptr, t.statusWord)) (step (writing 0x010 0x5000 (issued .run smallRun)))
      = some (0x1000, 0x005) ∧
    view (fun t => (t.kptr, t.statusWord)) (step (writing 0x010 0x5000 { smallRun with done := true }))
      = some (0x5000, 0x002) := by decide

/-- R54: the halves of a 64-bit register. -/
theorem test_wide_register_halves :
    view (fun t => t.acc) (step (writing 0x13C 0xAAAAAAAA { State.reset with acc := Lanes.fill 0x1122334455667788 })) =
      some { (Lanes.fill 0x1122334455667788 : Lanes DWord) with w7 := 0xAAAAAAAA55667788 } ∧
    view State.rdata (step (reading 0x0E8 { State.reset with zb := ⟨0, 0, 0, 0, 0, 0xB400000007, 0, 0⟩ })) =
      some (some 0x7) := by decide

/-- The host notation (R119): P2's first and last lines. -/
theorem test_host_notation :
    expandOp 0x40000000 (.wr .kptr 0x1000) = [.hostWrite 0x40000010 4 0x1000] ∧
    expandOp 0x40000000 (.doCmd .run 0) =
      [.hostWrite 0x4000000C 4 0x10, .core, .hostRead 0x40000008 4] ∧
    expandOp 0 (.wr64acc 7 0x1122334455667788) = [.hostWrite 0x138 4 0x55667788, .hostWrite 0x13C 4 0x11223344] := by
  decide

/-! ## Witnesses: states that meet the hypotheses of the statements

The ranges of `top` end exactly at 0xFFFFFFFF; those of `past` pass it by one byte. -/

/-- Every range ends exactly at the top of memory. -/
def top : State :=
  { State.reset with kptr := 0xFFFFFFE0, mptr := 0xFFFFFFE0, dptr := 0xFFFFFFC0, klen := 32, mlen := 32 }

/-- Every range passes the top of memory by one byte. -/
def past : State := { top with kptr := 0xFFFFFFE1, mptr := 0xFFFFFFE1, dptr := 0xFFFFFFC1 }

/-- The last byte of memory answers with an error. -/
def broken : State :=
  { top with platform := { Platform.initial with readErr := [⟨0xFFFFFFFF, 1⟩], writeErr := [⟨0xFFFFFFFF, 1⟩] } }

/-- The last byte of memory answers a write with an error. -/
def brokenWrite : State := { top with platform := { Platform.initial with writeErr := [⟨0xFFFFFFFF, 1⟩] } }

/-- The same, where the port cannot report an error. -/
def deaf : State := { broken with platform := { broken.platform with busCanErr := false } }

/-- The last byte of memory is a device's. -/
def onDevice : State := { top with platform := { Platform.initial with device := [⟨0xFFFFFFFF, 1⟩] } }

/-- Another agent has written the last byte of memory in the busy period of the command. -/
def racedWith (i : Instr) : State := { issued i top with dirty := [0xFFFFFFFF] }

/-- The last byte of memory answers with an error, and another agent has written it. -/
def brokenRaced : State := { broken with dirty := [0xFFFFFFFF] }

/-- Another agent has written the first digest byte alone. -/
def racedDigest : State := { issued .run smallRun with dirty := [0x3000] }

/-- RUN in its digest write, the bytes 0 and 63 not yet answered. -/
def writeJob : Job := ⟨encode .run, 1, 0, .write [63, 0] 0⟩

/-- The core with `writeJob` in flight. -/
def inDigestWrite : State := { issued .run top with bcnt := 1, job := some writeJob }

/-- RUN at the last of two blocks, one byte of its key read. -/
def readJob : Job := ⟨encode .run, 2, 1, .read [(63, 0)] []⟩

/-- The core with `readJob` in flight. -/
def inLastBlock : State :=
  { issued .run { top with kptr := 0xFFFFFFC0, mptr := 0xFFFFFFC0, klen := 64, mlen := 64 } with
    bcnt := 1, job := some readJob }

theorem witness_WordIsExecutedOrIllegal :
    State.reset.inputs = [] ∧ legal 0x00000108 ∧ ¬legal 0x00000100 ∧ ¬legal 0x00000200 ∧ ¬legal 0x00000009 := by
  unfold legal; decide

theorem witness_StepRunsAcceptedCommand :
    (issued .run top).inputs = [] ∧ (issued .run top).job = some ⟨0x10, 0, 0, .start⟩ ∧
    decode 0x10 = .command .run := by decide

theorem witness_StepTakesOldestInput :
    (writing 0x010 7 State.reset).inputs = [.hostWrite 0x010 4 7] ∧ State.reset.inputs = [] ∧
    State.reset.job = none := by decide

theorem witness_IssuedCommandRuns :
    (writing 0x00C 0x108 top).busy = false ∧
    (writing 0x00C 0x108 top).inputs = expandOp top.platform.mmioBase (.cmd .blkInc) := by decide

theorem witness_CommandIsAccepted :
    (hostWrites (writing 0x00C 0x108 top) 0x00C 0x108 [] ∧ (writing 0x00C 0x108 top).busy = false) ∧
    (hostWrites (writing 0x00C 0x108 (issued .run top)) 0x00C 0x108 [] ∧
      (writing 0x00C 0x108 (issued .run top)).busy = true) := by
  unfold hostWrites; decide

theorem witness_LoadKeyBlock :
    (Instr.ldk = .ldk ∨ Instr.ldk = .ldkInc) ∧ 0xFFFFFFE0 < past.kptr.toNat ∧
    (ordinary broken ⟨broken.kptr.toNat, 32⟩ ∧ ¬readsWell broken ⟨broken.kptr.toNat, 32⟩) ∧
    (ordinary top ⟨top.kptr.toNat, 32⟩ ∧ readsWell top ⟨top.kptr.toNat, 32⟩ ∧ quiet top ⟨top.kptr.toNat, 32⟩) := by
  simp only [ordinary_iff, readsWell_iff, quiet_iff]; decide

theorem witness_LoadMessageBlock :
    (Instr.ldmInc = .ldm ∨ Instr.ldmInc = .ldmInc) ∧ 0xFFFFFFE0 < past.mptr.toNat ∧
    (ordinary broken ⟨broken.mptr.toNat, 32⟩ ∧ ¬readsWell broken ⟨broken.mptr.toNat, 32⟩) ∧
    (ordinary top ⟨top.mptr.toNat, 32⟩ ∧ readsWell top ⟨top.mptr.toNat, 32⟩ ∧ quiet top ⟨top.mptr.toNat, 32⟩) := by
  simp only [ordinary_iff, readsWell_iff, quiet_iff]; decide

theorem witness_StoreDigest :
    (Instr.stdInc = .std ∨ Instr.stdInc = .stdInc) ∧ (Memory.wf past.mem = true ∧ 0xFFFFFFC0 < past.dptr.toNat) ∧
    (Memory.wf brokenRaced.mem = true ∧ ordinary brokenRaced brokenRaced.digestRange ∧
      ¬writesWell brokenRaced brokenRaced.digestRange ∧ ¬quiet brokenRaced brokenRaced.digestRange ∧
      brokenRaced.dptr.toNat + 8 * (7 : Fin 8).val + (6 : Fin 8).val ∉ brokenRaced.dirty) ∧
    (Memory.wf top.mem = true ∧ ordinary top top.digestRange ∧ writesWell top top.digestRange ∧
      quiet top top.digestRange) := by
  simp only [ordinary_iff, writesWell_iff, quiet_iff]; decide

theorem witness_BlockStep :
    (Instr.blk = .blk ∨ Instr.blk = .blkInc) ∧ (0xFFFFFFE0 < past.kptr.toNat ∨ 0xFFFFFFE0 < past.mptr.toNat) ∧
    (ordinary broken ⟨broken.kptr.toNat, 32⟩ ∧ ordinary broken ⟨broken.mptr.toNat, 32⟩ ∧
      ¬(readsWell broken ⟨broken.kptr.toNat, 32⟩ ∧ readsWell broken ⟨broken.mptr.toNat, 32⟩)) ∧
    (ordinary top ⟨top.kptr.toNat, 32⟩ ∧ ordinary top ⟨top.mptr.toNat, 32⟩ ∧
      readsWell top ⟨top.kptr.toNat, 32⟩ ∧ readsWell top ⟨top.mptr.toNat, 32⟩ ∧
      quiet top ⟨top.kptr.toNat, 32⟩ ∧ quiet top ⟨top.mptr.toNat, 32⟩) := by
  simp only [ordinary_iff, readsWell_iff, quiet_iff]; decide

theorem witness_RunChecksInOrder :
    (State.reset.mlen.toNat = 0 ∧ ¬quiet { State.reset with dirty := [0] } State.reset.digestRange) ∧
    (let s : State := { top with klen := 31 }; s.mlen.toNat ≠ 0 ∧ s.klen.toNat ≠ s.mlen.toNat) ∧
    (let s : State := { top with klen := 33, mlen := 33 }
     s.mlen.toNat ≠ 0 ∧ s.klen.toNat = s.mlen.toNat ∧ s.mlen.toNat % 32 ≠ 0) ∧
    (past.mlen.toNat ≠ 0 ∧ past.klen.toNat = past.mlen.toNat ∧ past.mlen.toNat % 32 = 0 ∧
      (past.kptr.toNat + past.mlen.toNat > 2 ^ 32 ∨ past.mptr.toNat + past.mlen.toNat > 2 ^ 32 ∨
        past.dptr.toNat + 64 > 2 ^ 32)) := by
  simp only [quiet_iff]; decide

theorem witness_RunComputesDigest :
    lengthsOk top ∧ Memory.wf top.mem = true ∧ (∀ r ∈ ranges .run top, ordinary top r ∧ quiet top r) ∧
    readsWell top ⟨top.kptr.toNat, top.mlen.toNat⟩ ∧ readsWell top ⟨top.mptr.toNat, top.mlen.toNat⟩ ∧
    writesWell top top.digestRange := by
  simp only [ordinary_iff, readsWell_iff, writesWell_iff, quiet_iff]; unfold lengthsOk; decide

theorem witness_RangeErrorTouchesNothing :
    lengthsOk past ∧ (∃ r ∈ ranges .run past, r.base + r.len > 2 ^ 32) ∧
    (∃ r ∈ ranges .ldk past, r.base + r.len > 2 ^ 32) := by
  unfold lengthsOk; decide

theorem witness_BusErrorLeavesTableState :
    (Memory.wf deaf.mem = true ∧ deaf.platform.busCanErr = false ∧ ∃ t, exec .ldk deaf = .next t) ∧
    (Memory.wf broken.mem = true ∧
      (∀ r ∈ [(⟨broken.kptr.toNat, 32⟩ : Region), ⟨broken.mptr.toNat, 32⟩, broken.digestRange], ordinary broken r) ∧
      ¬readsWell broken ⟨broken.kptr.toNat, 32⟩ ∧ ¬readsWell broken ⟨broken.mptr.toNat, 32⟩ ∧
      ¬writesWell broken broken.digestRange) ∧
    ((∀ r ∈ ranges .blk broken, ordinary broken r) ∧ ∃ r ∈ ranges .blk broken, ¬readsWell broken r) ∧
    (lengthsOk broken ∧ (∀ r ∈ ranges .run broken, ordinary broken r) ∧
      ¬(readsWell broken ⟨broken.kptr.toNat, broken.mlen.toNat⟩ ∧
        readsWell broken ⟨broken.mptr.toNat, broken.mlen.toNat⟩)) ∧
    (Memory.wf brokenWrite.mem = true ∧ lengthsOk brokenWrite ∧
      (∀ r ∈ ranges .run brokenWrite, ordinary brokenWrite r) ∧
      readsWell brokenWrite ⟨brokenWrite.kptr.toNat, brokenWrite.mlen.toNat⟩ ∧
      readsWell brokenWrite ⟨brokenWrite.mptr.toNat, brokenWrite.mlen.toNat⟩ ∧
      ¬writesWell brokenWrite brokenWrite.digestRange) := by
  obtain ⟨t, ht, -⟩ := next_of_view (show view State.err (exec .ldk deaf) = some 0 by decide)
  refine ⟨⟨by decide, by decide, t, ht⟩, ?_⟩
  simp only [ordinary_iff, readsWell_iff, writesWell_iff]; unfold lengthsOk; decide

theorem witness_DeviceBufferIsRefused :
    (lengthsOk onDevice ∧ (∀ r ∈ ranges .run onDevice, fits r) ∧
      ∃ r ∈ ranges .run onDevice, ¬apart onDevice.platform.device r) ∧
    (lengthsOk top ∧ (∀ r ∈ ranges .run top, fits r) ∧ ¬∃ r ∈ ranges .run top, ¬apart top.platform.device r) := by
  simp only [apart_iff]; unfold lengthsOk fits; decide

theorem witness_EveryCommandEnds : top.platform.device = [] ∧ exec .run onDevice = .refused .sideEffectBuffer :=
  ⟨rfl, refused_of_isRefusal (by decide)⟩

theorem witness_EveryEndIsACompletion : ∃ t, exec .run top = .next t ∧ t.err = 0 :=
  next_of_view (by decide)

theorem witness_RaceFreesOnlyWhatWasRead :
    (∀ s ∈ [racedWith .ldk, racedWith .ldm, racedWith .blk, racedWith .std],
      Memory.wf s.mem = true ∧ (∀ r ∈ ranges .blk s, ordinary s r ∧ readsWell s r ∧ ¬quiet s r) ∧
      ordinary s s.digestRange ∧ writesWell s s.digestRange ∧ ¬quiet s s.digestRange) ∧
    (lengthsOk (racedWith .run) ∧ Memory.wf (racedWith .run).mem = true ∧
      (∀ r ∈ ranges .run (racedWith .run), ordinary (racedWith .run) r ∧ readsWell (racedWith .run) r) ∧
      writesWell (racedWith .run) (racedWith .run).digestRange) ∧
    (lengthsOk racedDigest ∧ Memory.wf racedDigest.mem = true ∧
      (∀ r ∈ ranges .run racedDigest, ordinary racedDigest r ∧ readsWell racedDigest r) ∧
      writesWell racedDigest racedDigest.digestRange ∧
      quiet racedDigest ⟨racedDigest.kptr.toNat, racedDigest.mlen.toNat⟩ ∧
      quiet racedDigest ⟨racedDigest.mptr.toNat, racedDigest.mlen.toNat⟩ ∧
      ¬quiet racedDigest racedDigest.digestRange ∧ racedDigest.dptr.toNat + 63 ∉ racedDigest.dirty) := by
  simp only [ordinary_iff, readsWell_iff, writesWell_iff, quiet_iff]; unfold lengthsOk; decide

/-- RUN with its one block read and not parsed. -/
def wholeBlock : Job :=
  ⟨encode .run, 1, 0, .read ((List.range 32).map fun o => (o, 0)) ((List.range 32).map fun o => (o, 0))⟩

/-- The core with `wholeBlock` in flight, another agent having written the key, and the sequencer's step next. -/
def racedBlock : State :=
  { issued .run top with job := some wholeBlock, dirty := [0xFFFFFFFF], inputs := [.tick] }

/-- The core in its digest write, another agent having written the key since, and the port's answer next. -/
def racedWrite : State := { inDigestWrite with dirty := [0xFFFFFFFF], inputs := [.answer (.digest 63)] }

/-- The same with nothing written by another agent. -/
def quietWrite : State := { racedWrite with dirty := [] }

theorem witness_RacedRunWritesFreeBytes :
    (racedBlock.inv = true ∧ racedBlock.job = some wholeBlock ∧ decode wholeBlock.word = .command .run ∧
      wholeBlock.k + 1 = wholeBlock.n ∧
      wholeBlock.blockThere .run ((List.range 32).map fun o => (o, 0)) ((List.range 32).map fun o => (o, 0)) = true ∧
      inputRaced racedBlock) ∧
    (racedWrite.inv = true ∧ racedWrite.job = some writeJob ∧ decode writeJob.word = .command .run ∧
      writeJob.phase = .write [63, 0] 0 ∧ 0 ≠ racedWrite.dirty.length ∧ inputRaced racedWrite ∧
      writesWell racedWrite racedWrite.digestRange) ∧
    (quietWrite.inv = true ∧ 0 = quietWrite.dirty.length ∧ ¬inputRaced quietWrite ∧
      writesWell quietWrite quietWrite.digestRange) := by
  unfold inputRaced
  simp only [writesWell_iff, quiet_iff]
  decide

/-- A success and an error of each clause that speaks of `t.err`. -/
theorem witness_CommandsWriteOnlyTheirOperands :
    (∃ t, exec .blkInc top = .next t ∧ t.err = 0) ∧ (∃ t, exec .blkInc past = .next t ∧ t.err = 5) :=
  ⟨next_of_view (by decide), next_of_view (by decide)⟩

theorem witness_OnlyTheDigestIsWritten :
    (∃ t, exec .ldk top = .next t ∧ t.err = 0) ∧ (∃ t, exec .run top = .next t ∧ t.err = 0) ∧
    (∃ t, exec .std past = .next t ∧ t.err = 5) ∧ quiet past past.digestRange ∧ ¬inside top.digestRange 0xFFFFFFBF ∧
    inside top.digestRange 0xFFFFFFC0 :=
  ⟨next_of_view (by decide), next_of_view (by decide), next_of_view (by decide), by rw [quiet_iff]; decide,
    by unfold inside; decide, by unfold inside; decide⟩

theorem witness_RegisterCommandsReadNoMemory :
    Instr.mix ∈ [Instr.nop, .clracc, .add32, .mix, .acc64] ∧ ∃ t, exec .mix top = .next t ∧ t.err = 0 :=
  ⟨by decide, next_of_view (by decide)⟩

/-- The input of V-R2 in two places, with other registers. -/
theorem witness_RunDependsOnlyOnItsInput :
    let s' : State :=
      { smallRun with
        mem := [(0x5000, 0x01), (0x6010, 0x02)], kptr := 0x5000, mptr := 0x6000, dptr := 0x5000, acc := Lanes.fill 7 }
    ∃ t t', Memory.wf smallRun.mem = true ∧ Memory.wf s'.mem = true ∧ smallRun.dirty = [] ∧ s'.dirty = [] ∧
      smallRun.mlen = s'.mlen ∧
      (∀ j < smallRun.mlen.toNat,
        Memory.read smallRun.mem (smallRun.kptr.toNat + j) = Memory.read s'.mem (s'.kptr.toNat + j)) ∧
      (∀ j < smallRun.mlen.toNat,
        Memory.read smallRun.mem (smallRun.mptr.toNat + j) = Memory.read s'.mem (s'.mptr.toNat + j)) ∧
      exec .run smallRun = .next t ∧ exec .run s' = .next t' ∧ t.err = 0 ∧ t'.err = 0 := by
  intro s'
  obtain ⟨t, ht, he⟩ := next_of_view (show view State.err (exec .run smallRun) = some 0 by decide)
  obtain ⟨t', ht', he'⟩ := next_of_view (show view State.err (exec .run s') = some 0 by decide)
  exact ⟨t, t', by decide, by decide, rfl, rfl, rfl, by decide, by decide, ht, ht', he, he'⟩

theorem witness_CodecIsBijective :
    ((List.range 32).map (BitVec.ofNat 8)).length = 32 ∧ ((List.range 64).map (BitVec.ofNat 8)).length = 64 ∧
    serializeWords (Lanes.fill 1) = serializeWords (Lanes.fill 1) := by decide

theorem witness_MixerOutputsDependAsLaidOut :
    (3 : Fin 8).val < 4 ∧ ((2 : Fin 8).val ≠ (3 : Fin 8).val ∧ (2 : Fin 8).val ≠ (3 : Fin 8).val + 4) ∧
    (2 : Fin 8).val = ((3 : Fin 8).val + 3) % 4 ∧ (7 : Fin 8).val = 4 + (3 : Fin 8).val := by decide

theorem witness_AccumulationOrderIsIrrelevant :
    List.Perm [(Lanes.fill 1 : Lanes DWord), Lanes.fill 2] [Lanes.fill 2, Lanes.fill 1] := List.Perm.swap _ _ _

theorem witness_RunLengthIsBounded :
    (∃ t, exec .run smallRun = .next t ∧ t.err = 0) ∧
    let s : State :=
      { State.reset with
        klen := 0xFFFFFFE0, mlen := 0xFFFFFFE0, dptr := 0xFFFFFFC0
        platform := { Platform.initial with busCanErr := false } }
    s.klen = 0xFFFFFFE0 ∧ s.mlen = 0xFFFFFFE0 ∧ s.kptr = 0 ∧ s.mptr = 0 ∧ s.dptr.toNat ≤ 0xFFFFFFC0 ∧
      s.platform.device = [] ∧ s.platform.busCanErr = false :=
  ⟨next_of_view (by decide), by decide⟩

theorem witness_HostDrivenEqualsRun :
    lengthsOk top ∧ (∀ r ∈ ranges .run top, ordinary top r ∧ quiet top r) ∧
    readsWell top ⟨top.kptr.toNat, top.mlen.toNat⟩ ∧ readsWell top ⟨top.mptr.toNat, top.mlen.toNat⟩ ∧
    writesWell top top.digestRange := by
  simp only [ordinary_iff, readsWell_iff, writesWell_iff, quiet_iff]; unfold lengthsOk; decide

theorem witness_IdIsHardWired :
    hostReads (reading 0x000 (issued .run top)) 0x000 [] ∧
    hostWrites (writing 0x000 7 (issued .run top)) 0x000 7 [] := by
  unfold hostReads hostWrites; decide

theorem witness_CtrlPort :
    hostReads (reading 0x004 (issued .run top)) 0x004 [] ∧ hostWrites (writing 0x004 3 top) 0x004 3 [] ∧
    hostWrites (writing 0x004 1 top) 0x004 1 [] := by
  unfold hostReads hostWrites; decide

theorem witness_StatusPort :
    hostReads (reading 0x008 (issued .run top)) 0x008 [] ∧ hostWrites (writing 0x008 6 top) 0x008 6 [] := by
  unfold hostReads hostWrites; decide

theorem witness_IdleReadsAreExact :
    top.busy = false ∧
    (∀ off ∈ [0x000, 0x00C, 0x010, 0x014, 0x018, 0x01C, 0x020, 0x024, 0x028, 0x1FC], off < 0x200 ∧ off % 4 = 0 ∧
      hostReads (reading off top) off []) ∧
    hostReads (reading 0x05C top) (0x040 + 4 * (7 : Fin 8).val) [] ∧
    hostReads (reading 0x060 top) (0x060 + 4 * (0 : Fin 8).val) [] ∧
    hostReads (reading 0x09C top) (0x080 + 4 * (7 : Fin 8).val) [] := by
  unfold hostReads; decide

theorem witness_IdleWriteIsReadBack :
    (top.busy = false ∧ Reg.acchi 7 ∉ [Reg.id, .ctrl, .status, .cmd, .bcnt] ∧
      hostWrites (writing 0x13C 9 top) (Reg.acchi 7).offset 9 []) ∧
    hostWrites (writing 0x024 9 top) 0x024 9 [] ∧
    (regAt 0x1FC = none ∧ hostWrites (writing 0x1FC 9 top) 0x1FC 9 []) ∧
    (regAt 0x028 = none ∧ hostWrites (writing 0x028 9 top) 0x028 9 []) := by
  unfold hostWrites; decide

theorem witness_WideRegistersHaveTwoHalves :
    top.busy = false ∧ hostReads (reading 0x0F8 top) (0x0C0 + 8 * (7 : Fin 8).val) [] ∧
    hostReads (reading 0x0C4 top) (0x0C4 + 8 * (0 : Fin 8).val) [] ∧
    hostReads (reading 0x138 top) (0x100 + 8 * (7 : Fin 8).val) [] ∧
    hostReads (reading 0x104 top) (0x104 + 8 * (0 : Fin 8).val) [] ∧
    hostWrites (writing 0x0C0 9 top) (0x0C0 + 8 * (0 : Fin 8).val) 9 [] ∧
    hostWrites (writing 0x0FC 9 top) (0x0C4 + 8 * (7 : Fin 8).val) 9 [] ∧
    hostWrites (writing 0x100 9 top) (0x100 + 8 * (0 : Fin 8).val) 9 [] ∧
    hostWrites (writing 0x13C 9 top) (0x104 + 8 * (7 : Fin 8).val) 9 [] := by
  unfold hostReads hostWrites; decide

theorem witness_BusyWriteIsLost :
    (issued .run top).busy = true ∧
    ∀ off ∈ [0x000, 0x004, 0x008, 0x00C, 0x1FC], off < 0x200 ∧ off % 4 = 0 ∧
      hostWrites (writing off 2 (issued .run top)) off 2 [] := by
  unfold hostWrites; decide

theorem witness_BusyReads :
    (issued .run top).busy = true ∧
    (∀ off ∈ [0x000, 0x004, 0x008, 0x00C, 0x010, 0x014, 0x018, 0x01C, 0x020, 0x028, 0x03C, 0x0A0, 0x0BC, 0x140, 0x1FC,
      0x024, 0x040, 0x09C, 0x0C0, 0x13C], hostReads (reading off (issued .run top)) off []) ∧
    (∀ off ∈ [0x028, 0x03C, 0x0A0, 0x0BC, 0x140, 0x1FC], off < 0x200 ∧ off % 4 = 0 ∧
      ((0x028 ≤ off ∧ off < 0x040) ∨ (0x0A0 ≤ off ∧ off < 0x0C0) ∨ 0x140 ≤ off)) ∧
    (∀ off ∈ [0x024, 0x040, 0x09C, 0x0C0, 0x13C], off % 4 = 0 ∧
      (off = 0x024 ∨ (0x040 ≤ off ∧ off < 0x0A0) ∨ (0x0C0 ≤ off ∧ off < 0x140))) := by
  unfold hostReads; decide

theorem witness_UnsupportedAccessHasNoEffect :
    (0x010 < 0x200 ∧ (2 ≠ 4 ∨ 0x010 % 4 ≠ 0)) ∧ (0x1FF < 0x200 ∧ (4 ≠ 4 ∨ 0x1FF % 4 ≠ 0)) ∧
    ({ top with inputs := [.hostWrite 0x010 2 7] } : State).inputs
      = [.hostWrite (top.platform.mmioBase + 0x010) 2 7] ∧
    ({ top with inputs := [.hostRead 0x1FF 4] } : State).inputs
      = [.hostRead (top.platform.mmioBase + 0x1FF) 4] := by decide

theorem witness_OtherStoresChangeOneByte :
    let e : Event := .memWrite 0xFFFFFFFF 7
    (Memory.wf top.mem = true ∧ { top with inputs := [e] }.inputs = [e] ∧ top.busy = false) ∧
    (Memory.wf (racedWith .run).mem = true ∧ { racedWith .run with inputs := [e] }.inputs = [e] ∧
      (racedWith .run).busy = true) := by decide

theorem witness_OvrIsSticky :
    (∃ t, step (writing 0x1FC 7 (issued .run top)) = .next t ∧ t.ovr = true) ∧ (issued .run top).ovr = false ∧
    (∃ t, step (writing 0x008 4 { top with ovr := true }) = .next t ∧ t.ovr = false) ∧
    (∃ t, step (writing 0x004 2 { top with ovr := true }) = .next t ∧ t.ovr = false) :=
  ⟨next_of_view (by decide), rfl, next_of_view (by decide), next_of_view (by decide)⟩

theorem witness_BusyChangesByAcceptanceCompletionReset :
    ((writing 0x00C 0x10 top).inv = true ∧ ∃ t, step (writing 0x00C 0x10 top) = .next t ∧ t.busy = true) ∧
    ((issued .run top).inv = true ∧ ∃ t, step (issued .run top) = .next t ∧ t.busy = false) ∧
    ((writing 0x004 2 (issued .run top)).inv = true ∧
      ∃ t, step (writing 0x004 2 (issued .run top)) = .next t ∧ (t.busy, t.done) = (false, false)) :=
  ⟨⟨by decide, next_of_view (by decide)⟩, ⟨by decide, next_of_view (by decide)⟩,
    ⟨by decide, next_of_view (f := fun t => (t.busy, t.done)) (by decide)⟩⟩

theorem witness_IrqFallsOnlyAsListed :
    let s : State := { top with ie := true, done := true }
    s.irq = true ∧ (∃ t, step (writing 0x004 2 s) = .next t ∧ t.irq = false) ∧
    (∃ t, step (writing 0x008 2 s) = .next t ∧ t.irq = false) ∧
    (∃ t, step (writing 0x004 0 s) = .next t ∧ t.irq = false) ∧
    (∃ t, step (writing 0x00C 0 s) = .next t ∧ t.irq = false) ∧
    (∃ t, step (writing 0x010 0 s) = .next t ∧ t.irq = true) :=
  ⟨rfl, next_of_view (by decide), next_of_view (by decide), next_of_view (by decide), next_of_view (by decide),
    next_of_view (by decide)⟩

theorem witness_ResetClearsEveryRegister :
    resetNext { inDigestWrite with inputs := [.hardReset] } [] ∧ resetNext (writing 0x004 3 inDigestWrite) [] :=
  ⟨.inl rfl, .inr ⟨3, by decide, rfl⟩⟩

theorem witness_ResetKeepsMemoryButTheOpenWrite :
    let s : State := { inDigestWrite with inputs := [.hardReset] }
    let b : State := { inLastBlock with inputs := [.hardReset] }
    (s.inv = true ∧ resetNext s [] ∧ s.lastcmd = encode .run ∧ quiet s ⟨s.kptr.toNat, s.mlen.toNat⟩ ∧
      quiet s ⟨s.mptr.toNat, s.mlen.toNat⟩ ∧ s.dptr.toNat + 63 ∉ s.dirty) ∧
    (b.inv = true ∧ resetNext b [] ∧ (∀ j, b.job = some j → ∀ left seen, j.phase ≠ .write left seen) ∧
      quiet b b.digestRange) := by
  refine ⟨⟨by decide, .inl rfl, by decide, ?_, ?_, by decide⟩, by decide, .inl rfl, fun j hj left seen => ?_, ?_⟩
  · rw [quiet_iff]; decide
  · rw [quiet_iff]; decide
  · cases hj; exact nofun
  · rw [quiet_iff]; decide

theorem witness_StepKeepsInvariant :
    ∀ s ∈ [top, issued .run top, inDigestWrite, inLastBlock, racedWith .std], s.inv = true ∧
      (view State.busy (step s)).isSome = true := by decide

theorem witness_NoStepStopsTheCore :
    (issued .run onDevice).inv = true ∧ step (issued .run onDevice) = .refused .sideEffectBuffer :=
  ⟨by decide, refused_of_isRefusal (by decide)⟩

theorem witness_SequencerStepsReachTheMeaning :
    Memory.wf (issued .run top).mem = true ∧ Memory.wf (issued .run onDevice).mem = true ∧
    (issued .run top).job = some ⟨0x10, 0, 0, .start⟩ ∧ decode 0x10 = .command .run ∧
    (∃ t, exec .run (issued .run top) = .next t ∧ t.err = 0) ∧
    (issued .run onDevice).job = some ⟨0x10, 0, 0, .start⟩ ∧
    exec .run (issued .run onDevice) = .refused .sideEffectBuffer :=
  ⟨by decide, by decide, rfl, by decide, next_of_view (by decide), rfl, refused_of_isRefusal (by decide)⟩

/-- The port's answers for the places below `n`, the last first. -/
def answers (a : Nat → Access) (n : Nat) : List Event := (List.range n).reverse.map fun o => .answer (a o)

/-- BLK whose message is answered before its key. -/
def messageFirst : List Event := [.tick] ++ answers .msg 32 ++ answers .key 32 ++ [.tick]

theorem witness_OrderOfAccessesIsIrrelevant :
    ∃ u, Memory.wf (issued .blk smallRun).mem = true ∧ (issued .blk smallRun).job = some ⟨0x8, 0, 0, .start⟩ ∧
      decode 0x8 = .command .blk ∧ (∀ e ∈ messageFirst, own e) ∧
      runEvents messageFirst (issued .blk smallRun) = .next u ∧ u.job = none := by
  obtain ⟨u, hu, hj⟩ := next_of_view (f := State.job)
    (show view State.job (runEvents messageFirst (issued .blk smallRun)) = some none by decide +kernel)
  exact ⟨u, by decide, rfl, by decide, fun e he => by
    simp only [messageFirst, answers, List.mem_append, List.mem_singleton, List.mem_map] at he
    rcases he with ((rfl | ⟨o, -, rfl⟩) | ⟨o, -, rfl⟩) | rfl
    · exact .inl rfl
    · exact .inr ⟨_, rfl⟩
    · exact .inr ⟨_, rfl⟩
    · exact .inl rfl, hu, hj⟩

/-- R86: the order of the accesses is not fixed. The message is read while only the key would fail, then the key while only
the message would. -/
theorem test_message_before_key :
    view (fun t => (t.statusWord, t.zb)) (runEvents
        ([.errorMap [⟨0x1000, 32⟩] [], .tick] ++ answers .msg 32 ++ [.errorMap [⟨0x2000, 32⟩] []] ++ answers .key 32
          ++ [.tick]) (issued .blk smallRun)) =
      some (0x002, ⟨2, 0, 0, 0, 0, 0, 2, 2⟩) := by decide +kernel

/-- R86: a byte of the digest can be in memory before the next is written; an access that is not issued is not answered. -/
theorem test_digest_byte_by_byte :
    view (fun t => (Memory.readBytes t.mem 0x3000 2, t.busy)) (runEvents [.tick, .answer (.digest 1), .answer (.key 0)]
        (issued .std { smallRun with acc := Lanes.fill 0x0102030405060708 })) =
      some ([0, 0x07], true) := by decide

theorem witness_IssuedAccessIsInRange :
    (inLastBlock.inv = true ∧ inLastBlock.job = some readJob ∧ decode readJob.word = .command .run ∧
      Job.issued readJob .run (.key 62) = true ∧ Job.issued readJob .run (.msg 32) = true) ∧
    (inDigestWrite.inv = true ∧ inDigestWrite.job = some writeJob ∧ decode writeJob.word = .command .run ∧
      Job.issued writeJob .run (.digest 63) = true) := by decide

end Sys2Proof.Tests
end

section
/-!
SUPPORT. The register port, said once: which offset belongs to which register (spec/10_state.md R31), what a host read of a
register answers (R32 to R58), what a host write does in a busy period (R57), and what a reset leaves (R63).
-/

namespace Sys2Proof

open Machine

/-! ### Offsets and registers (R31) -/

/-- The map sends the offset of a register to that register. -/
@[simp] theorem regAt_offset (r : Reg) : regAt r.offset = some r := by
  cases r with
  | kb i | mb i | xb i | zblo i | zbhi i | acclo i | acchi i => revert i; decide
  | _ => rfl

theorem Reg.offset_lt (r : Reg) : r.offset < 0x200 := by
  cases r <;> simp only [Reg.offset] <;> omega

theorem Reg.offset_aligned (r : Reg) : r.offset % 4 = 0 := by
  cases r <;> simp only [Reg.offset] <;> omega

theorem offset_of_controlReg {off : Nat} {r : Reg} (h : controlReg off = some r) : r.offset = off := by
  unfold controlReg at h
  split at h <;> cases h <;> rfl

/-- At a 4-byte-aligned offset the map inverts `Reg.offset`. -/
theorem offset_of_regAt {off : Nat} {r : Reg} (ha : off % 4 = 0) (h : regAt off = some r) : r.offset = off := by
  unfold regAt at h
  split_ifs at h with hlt
  · exact offset_of_controlReg h
  all_goals
    cases h
    simp only [Reg.offset, wordIndex, dwordIndex, isLowHalf, Fin.val_ofNat, decide_eq_true_eq] at *
    omega

/-- The reserved offsets of the window (R55). -/
theorem regAt_eq_none_iff {off : Nat} (ho : off < 0x200) (ha : off % 4 = 0) :
    regAt off = none ↔ (0x028 ≤ off ∧ off < 0x040) ∨ (0x0A0 ≤ off ∧ off < 0x0C0) ∨ 0x140 ≤ off := by
  obtain ⟨k, rfl⟩ := Nat.dvd_of_mod_eq_zero ha
  have window : ∀ k : Fin 128, regAt (4 * k.val) = none ↔
      (0x028 ≤ 4 * k.val ∧ 4 * k.val < 0x040) ∨ (0x0A0 ≤ 4 * k.val ∧ 4 * k.val < 0x0C0) ∨ 0x140 ≤ 4 * k.val := by
    decide
  exact window ⟨k, by omega⟩

/-- The offsets of BCNT and of the register files are those of the data registers (R58). -/
theorem exists_dataReg_offset {off : Nat} (ha : off % 4 = 0)
    (h : off = 0x024 ∨ (0x040 ≤ off ∧ off < 0x0A0) ∨ (0x0C0 ≤ off ∧ off < 0x140)) :
    ∃ r : Reg, r.offset = off ∧ dataReg r = true := by
  cases hr : regAt off with
  | none => rw [regAt_eq_none_iff (by omega) ha] at hr; omega
  | some r =>
    obtain rfl := offset_of_regAt ha hr
    refine ⟨r, rfl, ?_⟩
    cases r with
    | id | ctrl | status | cmd | kptr | mptr | dptr | klen | mlen => simp [Reg.offset] at h
    | _ => rfl

/-! ### What the registers read as -/

theorem Machine.State.ctrlWord_eq (s : State) : s.ctrlWord = BitVec.ofNat 32 s.ie.toNat := by
  unfold State.ctrlWord
  cases s.ie <;> rfl

/-- STATUS as a number (R36): ERR stands above the three flags, which fill less than its lowest byte. -/
theorem Machine.State.statusWord_toNat (s : State) :
    s.statusWord.toNat = 256 * s.err.toNat + 4 * s.ovr.toNat + 2 * s.done.toNat + s.busy.toNat := by
  have flags : ∀ o d b : Bool, (bitWord o <<< 2 ||| bitWord d <<< 1 ||| bitWord b).toNat
      = 4 * o.toNat + 2 * d.toNat + b.toNat := by decide
  have low : 4 * s.ovr.toNat + 2 * s.done.toNat + s.busy.toNat < 2 ^ 8 := by
    have := s.ovr.toNat_lt
    have := s.done.toNat_lt
    have := s.busy.toNat_lt
    omega
  have high : (s.err.setWidth 32 <<< 8).toNat = s.err.toNat <<< 8 := by
    have := s.err.isLt
    simp only [BitVec.toNat_shiftLeft, BitVec.toNat_setWidth, Nat.shiftLeft_eq]
    omega
  rw [State.statusWord, BitVec.or_assoc, BitVec.or_assoc, ← BitVec.or_assoc (bitWord s.ovr <<< 2), BitVec.toNat_or,
    flags, high, ← Nat.shiftLeft_add_eq_or_of_lt low, Nat.shiftLeft_eq]
  omega

/-- Every register of a core just reset reads 0, but for ID (R63). -/
theorem Machine.State.cleared_readReg (s : State) (r : Reg) :
    s.cleared.readReg r = if r = .id then 0x4D4D0128 else 0 := by
  cases r with
  | kb i | mb i | xb i => exact Lanes.get_fill 0 i
  | zblo i | acclo i => exact congrArg lowHalf (Lanes.get_fill 0 i)
  | zbhi i | acchi i => exact congrArg highHalf (Lanes.get_fill 0 i)
  | status => simp [State.readReg, State.statusWord, bitWord]
  | _ => rfl

namespace Claims

@[simp] theorem taken_busy (s : State) (rest : List Event) : (taken s rest).busy = s.busy := rfl

@[simp] theorem taken_readReg (s : State) (rest : List Event) (r : Reg) : (taken s rest).readReg r = s.readReg r := by
  cases r <;> rfl

/-! ### Host accesses of the window -/

/-- A host read of a register is exact, but for BCNT and the data registers in a busy period (R32 to R54, R58). -/
theorem step_reads_reg {s : State} {rest : List Event} (r : Reg) (h : hostReads s r.offset rest)
    (hx : s.busy = false ∨ dataReg r = false) :
    step s = .next { taken s rest with rdata := some (s.readReg r) } := by
  rw [step_hostReads h r.offset_lt r.offset_aligned]
  have exact_read : (s.busy && dataReg r) = false := Bool.and_eq_false_iff.2 hx
  simp [readOffset, exact_read]

/-- A host read of BCNT or a data register in a busy period is a free draw (R58). -/
theorem step_reads_data {s : State} {rest : List Event} (r : Reg) (h : hostReads s r.offset rest)
    (hb : s.busy = true) (hd : dataReg r = true) : step s = .next (taken s rest).anyAnswer := by
  rw [step_hostReads h r.offset_lt r.offset_aligned]
  simp [readOffset, hb, hd]

/-- A host read of a reserved offset answers 0 (R55, R58). -/
theorem step_reads_reserved {s : State} {off : Nat} {rest : List Event} (h : hostReads s off rest)
    (ho : off < 0x200) (ha : off % 4 = 0) (hr : regAt off = none) :
    step s = .next { taken s rest with rdata := some 0 } := by
  rw [step_hostReads h ho ha, readOffset, hr]

/-- A host read of STATUS answers the flags as a number (R36). -/
theorem step_reads_status {s : State} {rest : List Event} (h : hostReads s 0x008 rest) :
    ∃ w, step s = .next { taken s rest with rdata := some w } ∧
      w.toNat = 256 * s.err.toNat + 4 * s.ovr.toNat + 2 * s.done.toNat + s.busy.toNat :=
  ⟨s.statusWord, step_reads_reg .status h (.inr rfl), s.statusWord_toNat⟩

/-- A host read of CTRL answers IE (R33). -/
theorem step_reads_ctrl {s : State} {rest : List Event} (h : hostReads s 0x004 rest) :
    step s = .next { taken s rest with rdata := some (BitVec.ofNat 32 s.ie.toNat) } := by
  rw [step_reads_reg .ctrl h (.inr rfl), ← s.ctrlWord_eq, State.readReg]

/-- A host write to ID is ignored (R32). -/
theorem step_writes_id {s : State} {v : Word} {rest : List Event} (h : hostWrites s 0x000 v rest) :
    step s = .next (taken s rest) :=
  step_hostWrites h (by decide) rfl

/-- A host write to CTRL is a soft reset or sets IE (R33, R35). -/
theorem step_writes_ctrl {s : State} {v : Word} {rest : List Event} (h : hostWrites s 0x004 v rest) :
    step s = .next (if v.getLsbD 1 then resetCore (taken s rest) else { taken s rest with ie := v.getLsbD 0 }) :=
  step_hostWrites h (by decide) rfl

/-- A host write to STATUS clears DONE and OVR where it writes 1 (R36). -/
theorem step_writes_status {s : State} {v : Word} {rest : List Event} (h : hostWrites s 0x008 v rest) :
    step s = .next { taken s rest with
      done := if v.getLsbD 1 then false else s.done, ovr := if v.getLsbD 2 then false else s.ovr } := by
  have clear : ∀ flag bit : Bool, (flag && !bit) = if bit then false else flag := by decide
  rw [← clear, ← clear]
  exact step_hostWrites h (by decide) rfl

/-- In a busy period a write outside ID, CTRL and STATUS is lost (R57). -/
theorem writeOffset_of_busy {s : State} {off : Nat} (v : Word) (hb : s.busy = true) (ha : off % 4 = 0)
    (hid : off ≠ 0x000) (hctrl : off ≠ 0x004) (hstatus : off ≠ 0x008) : writeOffset off v s = s.lost := by
  unfold writeOffset
  cases hr : regAt off with
  | none => simp [hb]
  | some r =>
    obtain rfl := offset_of_regAt ha hr
    cases r with
    | id => exact absurd rfl hid
    | ctrl => exact absurd rfl hctrl
    | status => exact absurd rfl hstatus
    | _ => simp [hb]

/-- An access of another size or alignment is not one of the port's (R56). -/
theorem portAccess_eq_false {size off : Nat} (h : size ≠ 4 ∨ off % 4 ≠ 0) : portAccess size off = false := by
  simpa [portAccess, Decidable.imp_iff_not_or] using h

/-- A host write of another size or alignment is ignored (R56). -/
theorem step_writes_unsupported {s : State} {off size : Nat} {v : Word} {rest : List Event}
    (h : s.inputs = .hostWrite (s.platform.mmioBase + off) size v :: rest) (hu : size ≠ 4 ∨ off % 4 ≠ 0) :
    step s = .next (taken s rest) := by
  simp [step, stepEvent, h, handle, hostWrite, State.windowOffset, portAccess_eq_false hu, taken]

/-- A host read of another size or alignment is a free draw (R56). -/
theorem step_reads_unsupported {s : State} {off size : Nat} {rest : List Event}
    (h : s.inputs = .hostRead (s.platform.mmioBase + off) size :: rest) (ho : off < 0x200)
    (hu : size ≠ 4 ∨ off % 4 ≠ 0) : step s = .next (taken s rest).anyAnswer := by
  simp [step, stepEvent, h, handle, hostRead, State.inWindow, State.windowOffset, ho, portAccess_eq_false hu, taken]

/-! ### Reset -/

/-- Both resets are one step to the reset core (R280). -/
theorem step_resetNext {s : State} {rest : List Event} (h : resetNext s rest) :
    step s = .next (resetCore (taken s rest)) := by
  obtain h | ⟨v, hv, h⟩ := h
  · simp [step, stepEvent, h, handle, taken]
  · rw [step_writes_ctrl h, if_pos hv]

end Claims

end Sys2Proof
end

section
/-! The statements about the register port in a busy period, unsupported accesses and reset (spec/10_state.md). -/

namespace Sys2Proof.Claims

open Sys2Proof.Machine

/-- Settles O37: ID is read exactly in every state, and a write to it falls into its own arm of the port. -/
theorem idIsHardWired : Obligations.IdIsHardWired := fun _ _ =>
  ⟨fun h => step_reads_reg .id h (.inr rfl), fun _ h => step_writes_id h⟩

/-- Settles O38, by the two accesses of CTRL, which do not look at BUSY. -/
theorem ctrlPort : Obligations.CtrlPort := fun _ _ =>
  ⟨fun _ h => step_writes_ctrl h, fun h => step_reads_ctrl h⟩

/-- Settles O39, by the two accesses of STATUS, which do not look at BUSY. -/
theorem statusPort : Obligations.StatusPort := fun _ _ =>
  ⟨fun _ h => step_writes_status h, fun h => step_reads_status h⟩

/-- Settles O43: an offset other than those of ID, CTRL and STATUS is reserved or belongs to another register, and the port
ignores both alike. -/
theorem busyWriteIsLost : Obligations.BusyWriteIsLost := by
  intro s off v rest hb ho ha h
  by_cases hid : off = 0x000
  · subst hid; exact step_writes_id h
  by_cases hctrl : off = 0x004
  · subst hctrl; exact step_writes_ctrl h
  by_cases hstatus : off = 0x008
  · subst hstatus; exact step_writes_status h
  rw [if_neg hid, if_neg hctrl, if_neg hstatus, step_hostWrites h ho ha]
  exact congrArg _ (writeOffset_of_busy v hb ha hid hctrl hstatus)

/-- Settles O44: the offsets are those of the control registers, the reserved ones and those of the data registers. -/
theorem busyReads : Obligations.BusyReads := by
  intro s rest hb
  refine ⟨fun h => step_reads_reg .id h (.inr rfl), step_reads_ctrl, fun h => ?_,
    fun h => step_reads_reg .cmd h (.inr rfl), fun h => step_reads_reg .kptr h (.inr rfl),
    fun h => step_reads_reg .mptr h (.inr rfl), fun h => step_reads_reg .dptr h (.inr rfl),
    fun h => step_reads_reg .klen h (.inr rfl), fun h => step_reads_reg .mlen h (.inr rfl),
    fun off ho ha hr h => step_reads_reserved h ho ha ((regAt_eq_none_iff ho ha).2 hr), fun off ha hd h => ?_⟩
  · obtain ⟨w, hstep, hw⟩ := step_reads_status h
    exact ⟨w, hstep, by rw [hw, hb, Bool.toNat_true]⟩
  · obtain ⟨r, rfl, hdata⟩ := exists_dataReg_offset ha hd
    exact ⟨_, _, step_reads_data r h hb hdata⟩

/-- Settles O45: the port turns the write away before it looks at the offset, and draws the read's answer. -/
theorem unsupportedAccessHasNoEffect : Obligations.UnsupportedAccessHasNoEffect := fun _ _ _ _ _ ho hu =>
  ⟨fun h => step_writes_unsupported h hu, fun h => ⟨_, _, step_reads_unsupported h ho hu⟩⟩

/-- Settles O50: a reset ends in a cleared core, and State.reset is its own clearing. -/
theorem resetClearsEveryRegister : Obligations.ResetClearsEveryRegister := by
  intro s rest h
  refine ⟨_, step_resetNext h, fun u hu => ?_⟩
  obtain ⟨v, rfl⟩ : ∃ v : State, u = v.cleared := by
    obtain rfl | rfl := hu
    · exact ⟨(taken s rest).abandon, rfl⟩
    · exact ⟨State.reset, rfl⟩
  exact ⟨v.cleared_readReg, v.cleared_job, rfl⟩

end Sys2Proof.Claims
end

section
/-!
SUPPORT. The commands that reach memory, when they succeed: the end of each as one equation on the state its registers
were computed in (spec/40_codec.md R143 to R145, 43_driver.md R204, R207), and F-128 against its index form
(41_mixer.md R165).
-/

namespace Sys2Proof.Claims

open Sys2Proof.Machine

/-! ### F-128 in the index form -/

theorem sum3_toNat (a b c : Word) : (a + b + c).toNat = (a.toNat + b.toNat + c.toNat) % 2 ^ 32 := by
  simp only [BitVec.toNat_add, Nat.mod_add_mod]

theorem mulWide_sums_toNat (a b c d e f : Word) :
    (mulWide (a + b + c) (d + e + f)).toNat
      = ((a.toNat + b.toNat + c.toNat) % 2 ^ 32) * ((d.toNat + e.toNat + f.toNat) % 2 ^ 32) := by
  rw [mulWide_toNat, sum3_toNat, sum3_toNat]

/-- The tables of R160 and R161 are the index form of R165: one product, or one product of sums, per output. -/
theorem isMix_f128 (x : Lanes Word) : isMix x (f128 x) := by
  intro i hi
  refine ⟨?_, ?_⟩
  · interval_cases i <;> exact mulWide_toNat _ _
  · interval_cases i <;> exact mulWide_sums_toNat _ _ _ _ _ _

/-! ### The ends of the commands -/

theorem endLoadKey_eq (inc : Bool) (u : State) :
    endLoadKey inc u = .next (ended
      { u with
        kb := (u.settleKey (u.keyRange 32)).kb, free := (u.settleKey (u.keyRange 32)).free
        kptr := if inc then u.kptr + 32 else u.kptr } 0) := by
  unfold endLoadKey
  rw [State.settleKey_frame]
  cases inc <;> rfl

theorem endLoadMsg_eq (inc : Bool) (u : State) :
    endLoadMsg inc u = .next (ended
      { u with
        mb := (u.settleMsg (u.msgRange 32)).mb, free := (u.settleMsg (u.msgRange 32)).free
        mptr := if inc then u.mptr + 32 else u.mptr } 0) := by
  unfold endLoadMsg
  rw [State.settleMsg_frame]
  cases inc <;> rfl

theorem endBlock_eq (inc : Bool) (u : State) :
    endBlock inc u = .next (ended
      { u with
        kb := (u.settleBlock (u.keyRange 32) (u.msgRange 32)).kb
        mb := (u.settleBlock (u.keyRange 32) (u.msgRange 32)).mb
        xb := (u.settleBlock (u.keyRange 32) (u.msgRange 32)).xb
        zb := (u.settleBlock (u.keyRange 32) (u.msgRange 32)).zb
        acc := (u.settleBlock (u.keyRange 32) (u.msgRange 32)).acc
        free := (u.settleBlock (u.keyRange 32) (u.msgRange 32)).free
        kptr := if inc then u.kptr + 32 else u.kptr
        mptr := if inc then u.mptr + 32 else u.mptr } 0) := by
  unfold endBlock
  rw [State.settleBlock_frame]
  cases inc <;> rfl

theorem endStore_eq (inc : Bool) (u : State) :
    endStore inc u = .next (ended
      { u with
        mem := u.putDigest.mem, free := u.putDigest.free, dptr := if inc then u.dptr + 64 else u.dptr } 0) := by
  unfold endStore
  rw [State.putDigest_frame]
  cases inc <;> rfl

theorem endRun_eq (u : State) :
    endRun u = .next (ended { u with mem := u.putDigest.mem, free := u.putDigest.free } 0) := by
  unfold endRun
  rw [State.putDigest_frame]
  rfl

/-! ### The two forms of a command, by their I bit -/

theorem exec_loadKey {i : Instr} (h : i = .ldk ∨ i = .ldkInc) (s : State) :
    exec i s = loadKey (decide (i = .ldkInc)) s := by
  obtain rfl | rfl := h <;> rfl

theorem exec_loadMsg {i : Instr} (h : i = .ldm ∨ i = .ldmInc) (s : State) :
    exec i s = loadMsg (decide (i = .ldmInc)) s := by
  obtain rfl | rfl := h <;> rfl

theorem exec_storeDigest {i : Instr} (h : i = .std ∨ i = .stdInc) (s : State) :
    exec i s = storeDigest (decide (i = .stdInc)) s := by
  obtain rfl | rfl := h <;> rfl

theorem exec_oneBlock {i : Instr} (h : i = .blk ∨ i = .blkInc) (s : State) :
    exec i s = oneBlock (decide (i = .blkInc)) s := by
  obtain rfl | rfl := h <;> rfl

theorem ranges_oneBlock {i : Instr} (h : i = .blk ∨ i = .blkInc) (s : State) :
    ranges i s = [s.keyRange 32, s.msgRange 32] := by
  obtain rfl | rfl := h <;> rfl

/-! ### The commands whose checks pass and whose accesses meet no error -/

theorem loadKey_of_readsWell {inc : Bool} {s : State} (ho : ordinary s (s.keyRange 32))
    (hr : readsWell s (s.keyRange 32)) :
    loadKey inc s = endLoadKey inc (s.parseKey (s.fetch (s.keyRange 32))) := by
  have hvet : s.vet [s.keyRange 32] = .clear := (admit_clear_iff _ _).2 (by simpa using ho)
  simp [loadKey, hvet, (readsWell_iff _ _).1 hr]

theorem loadMsg_of_readsWell {inc : Bool} {s : State} (ho : ordinary s (s.msgRange 32))
    (hr : readsWell s (s.msgRange 32)) :
    loadMsg inc s = endLoadMsg inc (s.parseMsg (s.fetch (s.msgRange 32))) := by
  have hvet : s.vet [s.msgRange 32] = .clear := (admit_clear_iff _ _).2 (by simpa using ho)
  simp [loadMsg, hvet, (readsWell_iff _ _).1 hr]

theorem storeDigest_of_writesWell {inc : Bool} {s : State} (ho : ordinary s s.digestRange)
    (hw : writesWell s s.digestRange) : storeDigest inc s = endStore inc s := by
  have hvet : s.vet [s.digestRange] = .clear := (admit_clear_iff _ _).2 (by simpa using ho)
  simp [storeDigest, hvet, (writesWell_iff _ _).1 hw]

theorem oneBlock_of_readsWell {inc : Bool} {s : State}
    (h : ∀ r ∈ [s.keyRange 32, s.msgRange 32], ordinary s r ∧ readsWell s r) :
    oneBlock inc s = endBlock inc (s.passBlock (s.keyRange 32) (s.msgRange 32)) := by
  have hvet : s.vet [s.keyRange 32, s.msgRange 32] = .clear := (admit_clear_iff _ _).2 fun r hr => (h r hr).1
  have hkey : s.readFails (s.keyRange 32) = false := (readsWell_iff _ _).1 (h _ (by simp)).2
  have hmsg : s.readFails (s.msgRange 32) = false := (readsWell_iff _ _).1 (h _ (by simp)).2
  simp [oneBlock, hvet, hkey, hmsg]

theorem execRun_of_readsWell {s : State} (hl : lengthsOk s) (ho : ∀ r ∈ ranges .run s, ordinary s r)
    (hk : readsWell s ⟨s.kptr.toNat, s.mlen.toNat⟩) (hm : readsWell s ⟨s.mptr.toNat, s.mlen.toNat⟩) :
    execRun s = storeRun (s.startRun.runBlocks s.blockCount 0).settleRun := by
  have hvet : s.vet s.runRanges = .clear := (admit_clear_iff _ _).2 ho
  have hkey : s.readFails (s.keyRange s.mlen.toNat) = false := (readsWell_iff _ _).1 hk
  have hmsg : s.readFails (s.msgRange s.mlen.toNat) = false := (readsWell_iff _ _).1 hm
  simp [execRun, (lengthsOk_iff s).2 hl, hvet, hkey, hmsg]

/-- The digest write of RUN: what nobody else wrote in the digest range is the digest of ACC. -/
theorem storeRun_of_writesWell {u : State} (hwf : Memory.wf u.mem = true) (hf : fits u.digestRange)
    (hw : writesWell u u.digestRange) :
    ∃ m f, storeRun u = .next (ended { u with mem := m, free := f } 0) ∧ sameOutside u.mem m u.digestRange ∧
      ∀ j < 64, u.dptr.toNat + j ∉ u.dirty → Memory.read m (u.dptr.toNat + j) = (serializeWords u.acc).getD j 0 := by
  have hstore : storeRun u = endRun u := by simp [storeRun, (writesWell_iff _ _).1 hw]
  exact ⟨_, _, hstore.trans (endRun_eq u), sameOutside_putDigest u, fun j hj hd => putDigest_byte hwf hf hj hd⟩

/-- A key block nobody else wrote stands in KB as it was parsed. -/
theorem settleBlock_passBlock_kb {s : State} {kr mr : Region} (hq : quiet s kr) :
    ((s.passBlock kr mr).settleBlock kr mr).kb = parseBlock (s.fetch kr) := by
  have hraced : (s.passBlock kr mr).raced kr = false := by
    rw [State.raced_congr (s := s) (by simp), (quiet_iff _ _).1 hq]
  rw [settleBlock_kb hraced, State.passBlock_kb]

/-- A message block nobody else wrote stands in MB as it was parsed. -/
theorem settleBlock_passBlock_mb {s : State} {kr mr : Region} (hq : quiet s mr) :
    ((s.passBlock kr mr).settleBlock kr mr).mb = parseBlock (s.fetch mr) := by
  have hraced : (s.passBlock kr mr).raced mr = false := by
    rw [State.raced_congr (s := s) (by simp), (quiet_iff _ _).1 hq]
  rw [settleBlock_mb hraced, State.passBlock_mb]

/-- RUN's loop with the races on its input settled, in the words of the statements. -/
theorem settleRun_loopLeft {s : State} (hl : lengthsOk s) :
    ∃ kb mb xb zb acc f, (s.startRun.runBlocks s.blockCount 0).settleRun =
        { s with
          kb := kb, mb := mb, xb := xb, zb := zb, acc := acc, free := f
          bcnt := BitVec.ofNat 32 (s.mlen.toNat / 32) } ∧
      loopLeft s kb mb xb zb acc := by
  obtain ⟨kb, mb, xb, zb, acc, f, hloop, hkb, hmb, hsums⟩ := settleRun_loop hl
  refine ⟨kb, mb, xb, zb, acc, f, hloop, hkb, hmb, fun hk hm => ?_⟩
  obtain ⟨rfl, rfl, -, hacc⟩ := hsums hk hm
  exact ⟨isSum32_addBlocks _ _, isMix_f128 _, hacc⟩

end Sys2Proof.Claims
end

section
/-! The statement about races of other agents (spec/20_memory.md R91). -/

namespace Sys2Proof.Claims

open Sys2Proof.Machine

/-- LDK and LDK+ under races reach KB and the increment alone. -/
theorem loadKey_succeeds {i : Instr} {s : State} (hi : i = .ldk ∨ i = .ldkInc) (ho : ordinary s ⟨s.kptr.toNat, 32⟩)
    (hr : readsWell s ⟨s.kptr.toNat, 32⟩) :
    ∃ kb f, exec i s = .next (ended
      { s with kb := kb, free := f, kptr := if i = .ldkInc then s.kptr + 32 else s.kptr } 0) := by
  rw [exec_loadKey hi, loadKey_of_readsWell ho hr, endLoadKey_eq]
  simp only [decide_eq_true_eq]
  exact ⟨_, _, rfl⟩

/-- LDM and LDM+ under races reach MB and the increment alone. -/
theorem loadMsg_succeeds {i : Instr} {s : State} (hi : i = .ldm ∨ i = .ldmInc) (ho : ordinary s ⟨s.mptr.toNat, 32⟩)
    (hr : readsWell s ⟨s.mptr.toNat, 32⟩) :
    ∃ mb f, exec i s = .next (ended
      { s with mb := mb, free := f, mptr := if i = .ldmInc then s.mptr + 32 else s.mptr } 0) := by
  rw [exec_loadMsg hi, loadMsg_of_readsWell ho hr, endLoadMsg_eq]
  simp only [decide_eq_true_eq]
  exact ⟨_, _, rfl⟩

/-- BLK and BLK+ under races: a block nobody else wrote is parsed as it is. -/
theorem oneBlock_succeeds {i : Instr} {s : State} (hi : i = .blk ∨ i = .blkInc)
    (h : ∀ r ∈ ranges i s, ordinary s r ∧ readsWell s r) :
    ∃ kb mb xb zb acc f, exec i s = .next (ended
        { s with
          kb := kb, mb := mb, xb := xb, zb := zb, acc := acc, free := f
          kptr := if i = .blkInc then s.kptr + 32 else s.kptr
          mptr := if i = .blkInc then s.mptr + 32 else s.mptr } 0) ∧
      (quiet s ⟨s.kptr.toNat, 32⟩ → isBlock kb s.mem s.kptr.toNat) ∧
      (quiet s ⟨s.mptr.toNat, 32⟩ → isBlock mb s.mem s.mptr.toNat) := by
  rw [ranges_oneBlock hi] at h
  have hkey : (s.passBlock (s.keyRange 32) (s.msgRange 32)).keyRange 32 = s.keyRange 32 :=
    State.keyRange_congr (by simp) 32
  have hmsg : (s.passBlock (s.keyRange 32) (s.msgRange 32)).msgRange 32 = s.msgRange 32 :=
    State.msgRange_congr (by simp) 32
  have hkb := settleBlock_passBlock_kb (s := s) (kr := s.keyRange 32) (mr := s.msgRange 32)
  have hmb := settleBlock_passBlock_mb (s := s) (kr := s.keyRange 32) (mr := s.msgRange 32)
  rw [exec_oneBlock hi, oneBlock_of_readsWell h, endBlock_eq, hkey, hmsg]
  simp only [decide_eq_true_eq]
  generalize (s.passBlock _ _).settleBlock _ _ = v at *
  rw [State.passBlock_eq]
  refine ⟨v.kb, v.mb, v.xb, v.zb, v.acc, v.free, rfl, fun hq => ?_, fun hq => ?_⟩
  · rw [hkb hq]
    exact isBlock_parse _ _
  · rw [hmb hq]
    exact isBlock_parse _ _

/-- STD and STD+ under races: every digest byte nobody else wrote is the command's. -/
theorem storeDigest_succeeds {i : Instr} {s : State} (hi : i = .std ∨ i = .stdInc) (hwf : Memory.wf s.mem = true)
    (ho : ordinary s s.digestRange) (hw : writesWell s s.digestRange) :
    ∃ m f, exec i s = .next (ended
        { s with mem := m, free := f, dptr := if i = .stdInc then s.dptr + 64 else s.dptr } 0) ∧
      sameOutside s.mem m s.digestRange ∧
      ∀ j < 64, s.dptr.toNat + j ∉ s.dirty →
        Memory.read m (s.dptr.toNat + j) = (serializeWords s.acc).getD j 0 := by
  rw [exec_storeDigest hi, storeDigest_of_writesWell ho hw, endStore_eq]
  simp only [decide_eq_true_eq]
  exact ⟨_, _, rfl, sameOutside_putDigest s, fun j hj hd => putDigest_byte hwf ho.1 hj hd⟩

/-- RUN under races: what the loop leaves, and the digest of the accumulator it leaves, where nobody else wrote. -/
theorem run_succeeds {s : State} (hl : lengthsOk s) (hwf : Memory.wf s.mem = true)
    (ho : ∀ r ∈ ranges .run s, ordinary s r) (hk : readsWell s ⟨s.kptr.toNat, s.mlen.toNat⟩)
    (hm : readsWell s ⟨s.mptr.toNat, s.mlen.toNat⟩) (hw : writesWell s s.digestRange) :
    ∃ kb mb xb zb acc m f, exec .run s = .next (ended
        { s with
          kb := kb, mb := mb, xb := xb, zb := zb, acc := acc, mem := m, free := f
          bcnt := BitVec.ofNat 32 (s.mlen.toNat / 32) } 0) ∧
      loopLeft s kb mb xb zb acc ∧ sameOutside s.mem m s.digestRange ∧
      ∀ j < 64, s.dptr.toNat + j ∉ s.dirty → Memory.read m (s.dptr.toNat + j) = (serializeWords acc).getD j 0 := by
  have hrun : exec .run s = storeRun (s.startRun.runBlocks s.blockCount 0).settleRun := execRun_of_readsWell hl ho hk hm
  have hfits : fits s.digestRange := (ho s.digestRange (by simp [ranges, State.digestRange])).1
  obtain ⟨kb, mb, xb, zb, acc, f, hloop, hleft⟩ := settleRun_loopLeft hl
  rw [hrun, hloop]
  obtain ⟨m, f', hstore, hout, hbytes⟩ := storeRun_of_writesWell (u := { s with
    kb := kb, mb := mb, xb := xb, zb := zb, acc := acc, free := f
    bcnt := BitVec.ofNat 32 (s.mlen.toNat / 32) }) hwf hfits hw
  exact ⟨kb, mb, xb, zb, acc, m, f', hstore, hleft, hout, hbytes⟩

/-- Settles O24, command by command: races are settled after the registers are parsed and computed, or after the digest is
written, so what nobody else wrote is what the command left. -/
theorem raceFreesOnlyWhatWasRead : Obligations.RaceFreesOnlyWhatWasRead := fun _ =>
  ⟨fun _ => loadKey_succeeds, fun _ => loadMsg_succeeds, fun _ => oneBlock_succeeds, fun _ => storeDigest_succeeds,
    run_succeeds⟩

end Sys2Proof.Claims
end

section
/-!
SUPPORT. Command words, said once: a word is its three fields (spec/30_encoding.md R111), the two tables of operation
codes are the rows of R112 with I = 0 and with I = 1, and what a host write to CMD does (R113).
-/

namespace Sys2Proof

/-! ### A word is its fields (R111) -/

/-- The bits of a packed word, field by field; the two facts below are read off it. -/
theorem getLsbD_packFields (f : Fields) (k : Nat) :
    (packFields f).getLsbD k =
      if k < 8 then f.op.getLsbD k else if k = 8 then f.inc else f.rsv.getLsbD (k - 9) := by
  have outer : (packFields f).getLsbD k = _ := BitVec.getLsbD_append (x := f.rsv) (y := BitVec.ofBool f.inc ++ f.op)
  rw [outer, BitVec.getLsbD_append, BitVec.getLsbD_ofBool]
  split_ifs <;> grind

@[simp] theorem packFields_fieldsOf (c : Word) : packFields (fieldsOf c) = c := by
  refine BitVec.eq_of_getLsbD_eq fun k hk => ?_
  rw [getLsbD_packFields]
  simp only [fieldsOf, opField, incField, rsvField, BitVec.getLsbD_extractLsb']
  grind

@[simp] theorem fieldsOf_packFields (f : Fields) : fieldsOf (packFields f) = f := by
  have hop : opField (packFields f) = f.op := by
    refine BitVec.eq_of_getLsbD_eq fun k hk => ?_
    simp [opField, getLsbD_packFields, hk]
  have hinc : incField (packFields f) = f.inc := by
    rw [incField, getLsbD_packFields]
    rfl
  have hrsv : rsvField (packFields f) = f.rsv := by
    refine BitVec.eq_of_getLsbD_eq fun k hk => ?_
    have above : ¬9 + k < 8 ∧ 9 + k ≠ 8 := by omega
    simp [rsvField, getLsbD_packFields, hk, above]
  rw [fieldsOf, hop, hinc, hrsv]

/-- A word is a command's word exactly when it carries the fields of the command's row. -/
theorem eq_encode_iff {c : Word} {i : Instr} : c = encode i ↔ fieldsOf c = i.fields := by
  constructor
  · rintro rfl
    exact fieldsOf_packFields _
  · intro h
    rw [encode, ← h, packFields_fieldsOf]

/-! ### The operation codes (R112) -/

theorem plainCommand_eq_some_iff {op : BitVec 8} {i : Instr} :
    plainCommand op = some i ↔ i.fields = ⟨op, false, 0⟩ := by
  constructor
  · intro h
    unfold plainCommand at h
    split at h <;> cases h <;> rfl
  · intro h
    cases i <;> cases h <;> rfl

theorem incCommand_eq_some_iff {op : BitVec 8} {i : Instr} :
    incCommand op = some i ↔ i.fields = ⟨op, true, 0⟩ := by
  constructor
  · intro h
    unfold incCommand at h
    split at h <;> cases h <;> rfl
  · intro h
    cases i <;> cases h <;> rfl

/-- The table for an I bit gives a command exactly at the operation code of its row. -/
theorem table_eq_some_iff {op : BitVec 8} {inc : Bool} {i : Instr} :
    (if inc then incCommand op else plainCommand op) = some i ↔ i.fields = ⟨op, inc, 0⟩ := by
  cases inc with
  | false => exact plainCommand_eq_some_iff
  | true => exact incCommand_eq_some_iff

/-- An operation code that takes I = 1 takes I = 0 too, so the decoder, which looks there first, passes it. -/
theorem exists_plainCommand_of_incCommand {op : BitVec 8} {i : Instr} (h : incCommand op = some i) :
    ∃ j, plainCommand op = some j := by
  unfold incCommand at h
  split at h <;> cases h <;> exact ⟨_, rfl⟩

@[simp] theorem Instr.fields_rsv (i : Instr) : i.fields.rsv = 0 := by
  cases i <;> rfl

/-! ### The decoder (R114) -/

/-- The decoder answers a command where RSV is 0 and the table for the word's I bit gives that command. -/
theorem decode_eq_command_iff {c : Word} {i : Instr} :
    decode c = .command i ↔
      rsvField c = 0 ∧ (if incField c then incCommand (opField c) else plainCommand (opField c)) = some i := by
  unfold decode
  by_cases hrsv : rsvField c = 0
  · cases hinc : incField c with
    | false => cases plainCommand (opField c) <;> simp [hrsv]
    | true =>
      cases hrow : incCommand (opField c) with
      | none => cases plainCommand (opField c) <;> simp [hrsv]
      | some j =>
        obtain ⟨p, hp⟩ := exists_plainCommand_of_incCommand hrow
        simp [hrsv, hp]
  · rw [if_pos hrsv]
    exact ⟨nofun, fun h => absurd h.1 hrsv⟩

/-! ### Acceptance (R113) -/

namespace Claims

open Machine

/-- A host write to CMD is accepted by an idle core and lost on a busy one (R57, R113). -/
theorem step_writes_cmd {s : State} {v : Word} {rest : List Event} (h : hostWrites s 0x00C v rest) :
    step s = .next (if s.busy then (taken s rest).lost else (taken s rest).accept v) :=
  step_hostWrites h (by decide) rfl

end Claims

end Sys2Proof
end

section
/-! The statements about the words of the commands and their acceptance (spec/30_encoding.md R112, R113, R120). -/

namespace Sys2Proof.Claims

open Sys2Proof.Machine

/-- Settles O1: the decoder answers a command exactly where the word's fields are the command's row of R112, and the fields
are the whole word. -/
theorem decodeAndEncodeAgree : Obligations.DecodeAndEncodeAgree := by
  intro c i
  rw [decode_eq_command_iff, table_eq_some_iff, eq_encode_iff, fieldsOf]
  constructor
  · rintro ⟨hrsv, hrow⟩
    rw [hrow, hrsv]
  · intro hrow
    have hrsv : rsvField c = 0 := (congrArg Fields.rsv hrow).trans i.fields_rsv
    exact ⟨hrsv, by rw [← hrow, hrsv]⟩

/-- Settles O7, by the port's arm for CMD; that acceptance empties the count of races and puts the command in the phase
start is the model's choice (logs 8, 9). -/
theorem commandIsAccepted : Obligations.CommandIsAccepted := by
  intro s v rest h
  rw [step_writes_cmd h]
  refine ⟨fun hidle => ?_, fun hbusy => ?_⟩
  · exact ⟨by rw [hidle]; rfl, by simp [State.irq]⟩
  · rw [hbusy]; rfl

end Sys2Proof.Claims
end

section
/-!
SUPPORT. The word codec as a change of layout, said once (spec/40_codec.md R140 to R142): a word is its four
little-endian bytes, a 64-bit word is the bytes of its low half and then those of its high half, and the two functions of
the codec have inverses on both sides.
-/

namespace Sys2Proof.Claims

open Sys2Proof.Machine

/-! ### Four bytes and a word -/

/-- A word made of four bytes lays out as these bytes. -/
@[simp] theorem leBytes_word32 (b0 b1 b2 b3 : Byte) : leBytes (word32 b0 b1 b2 b3) = [b0, b1, b2, b3] := by
  have h0 := b0.isLt
  have h1 := b1.isLt
  have h2 := b2.isLt
  simp only [leBytes, word32_toNat, List.cons.injEq, and_true]
  refine ⟨?_, ?_, ?_, ?_⟩ <;> refine BitVec.eq_of_toNat_eq ?_ <;> rw [BitVec.toNat_ofNat] <;> omega

/-- The first word of a sequence that begins with the bytes of `w` is `w` (R142 (b)). -/
@[simp] theorem wordAt_leBytes_append_zero (w : Word) (b : List Byte) : wordAt (leBytes w ++ b) 0 = w := by
  have hw := w.isLt
  refine BitVec.eq_of_toNat_eq ((word32_toNat _ _ _ _).trans ?_)
  simp only [leBytes, List.cons_append, List.nil_append, Nat.mul_zero, Nat.zero_add, List.getD_cons_zero,
    List.getD_cons_succ, BitVec.toNat_ofNat]
  omega

/-- Each later word of such a sequence is a word of the rest (R142 (a)). -/
@[simp] theorem wordAt_leBytes_append_succ (w : Word) (b : List Byte) (i : Nat) :
    wordAt (leBytes w ++ b) (i + 1) = wordAt b i := rfl

theorem take_append_getD {b : List Byte} {n : Nat} (h : n < b.length) : b.take n ++ [b.getD n 0] = b.take (n + 1) := by
  rw [List.getD_eq_getElem _ _ h, List.take_append_getElem]

/-- The bytes of word i of a sequence prolong its first i words by one word. -/
theorem take_append_leBytes_wordAt {b : List Byte} {i : Nat} (h : 4 * (i + 1) ≤ b.length) :
    b.take (4 * i) ++ leBytes (wordAt b i) = b.take (4 * (i + 1)) := by
  rw [wordAt, leBytes_word32, Nat.mul_succ, ← take_append_getD (n := 4 * i + 3) (by omega),
    ← take_append_getD (n := 4 * i + 2) (by omega), ← take_append_getD (n := 4 * i + 1) (by omega),
    ← take_append_getD (n := 4 * i) (by omega)]
  simp only [List.append_assoc, List.cons_append, List.nil_append]

/-! ### Eight bytes and a 64-bit word -/

theorem byteOf_eq_ofNat (v : DWord) (j : Nat) : byteOf v j = BitVec.ofNat 8 (v.toNat / 2 ^ (8 * j)) := by
  rw [byteOf, BitVec.extractLsb', Nat.shiftRight_eq_div_pow]

/-- The bytes of a 64-bit word are the bytes of its halves, the low half first (R142 (d)). -/
theorem bytesOf_eq_halves (v : DWord) : bytesOf v = leBytes (lowHalf v) ++ leBytes (highHalf v) := by
  simp only [bytesOf, leBytes, List.cons_append, List.nil_append, List.cons.injEq, and_true, byteOf_eq_ofNat,
    lowHalf_toNat, highHalf_toNat, Nat.reduceMul, true_and]
  refine ⟨?_, ?_, ?_, ?_, ?_, ?_, ?_⟩ <;> refine BitVec.eq_of_toNat_eq ?_ <;>
    rw [BitVec.toNat_ofNat, BitVec.toNat_ofNat] <;> omega

/-- 64-bit word i of a byte sequence. -/
def dwordAt (b : List Byte) (i : Nat) : DWord := wordAt b (2 * i + 1) ++ wordAt b (2 * i)

/-- The inverse of serialize_words (R141), for a sequence of 64 bytes. -/
def deserializeWords (b : List Byte) : Lanes DWord :=
  ⟨dwordAt b 0, dwordAt b 1, dwordAt b 2, dwordAt b 3, dwordAt b 4, dwordAt b 5, dwordAt b 6, dwordAt b 7⟩

theorem bytesOf_dwordAt (b : List Byte) (i : Nat) :
    bytesOf (dwordAt b i) = leBytes (wordAt b (2 * i)) ++ leBytes (wordAt b (2 * i + 1)) := by
  rw [bytesOf_eq_halves, dwordAt, lowHalf_append, highHalf_append]

/-- The bytes of 64-bit word i of a sequence prolong its first i words by one word. -/
theorem take_append_bytesOf_dwordAt {b : List Byte} {i : Nat} (h : 8 * (i + 1) ≤ b.length) :
    b.take (8 * i) ++ bytesOf (dwordAt b i) = b.take (8 * (i + 1)) := by
  rw [show 8 * i = 4 * (2 * i) by omega, show 8 * (i + 1) = 4 * (2 * i + 1 + 1) by omega, bytesOf_dwordAt,
    ← List.append_assoc, take_append_leBytes_wordAt (by omega), take_append_leBytes_wordAt (by omega)]

/-! ### The inverses -/

/-- Eight pieces of n bytes, each prolonging what stands before it, are the whole sequence. -/
theorem append_eight_pieces {b : List Byte} {n : Nat} {piece : Nat → List Byte} (hlen : b.length = n * 8)
    (grow : ∀ i < 8, b.take (n * i) ++ piece i = b.take (n * (i + 1))) :
    piece 0 ++ piece 1 ++ piece 2 ++ piece 3 ++ piece 4 ++ piece 5 ++ piece 6 ++ piece 7 = b := by
  have first : piece 0 = b.take (n * 1) := by simpa using grow 0 (by omega)
  rw [first, grow 1 (by omega), grow 2 (by omega), grow 3 (by omega), grow 4 (by omega), grow 5 (by omega),
    grow 6 (by omega), grow 7 (by omega), List.take_of_length_le hlen.le]

theorem parseBlock_blockBytes (w : Lanes Word) : parseBlock (blockBytes w) = w := by
  rw [blockBytes, ← List.append_nil (leBytes w.w7)]
  simp only [parseBlock, List.append_assoc, wordAt_leBytes_append_zero, wordAt_leBytes_append_succ]

theorem blockBytes_parseBlock {b : List Byte} (h : b.length = 32) : blockBytes (parseBlock b) = b :=
  append_eight_pieces (piece := fun i => leBytes (wordAt b i)) h fun _ _ => take_append_leBytes_wordAt (by omega)

theorem deserializeWords_serializeWords (w : Lanes DWord) : deserializeWords (serializeWords w) = w := by
  rw [serializeWords, ← List.append_nil (bytesOf w.w7)]
  simp only [deserializeWords, dwordAt, Nat.mul_zero, bytesOf_eq_halves, List.append_assoc, wordAt_leBytes_append_zero,
    wordAt_leBytes_append_succ, append_halves]

theorem serializeWords_deserializeWords {b : List Byte} (h : b.length = 64) :
    serializeWords (deserializeWords b) = b :=
  append_eight_pieces (piece := fun i => bytesOf (dwordAt b i)) h fun _ _ => take_append_bytesOf_dwordAt (by omega)

end Sys2Proof.Claims
end

section
/-! The statement about the word codec (spec/40_codec.md R140, R141). -/

namespace Sys2Proof.Claims

open Sys2Proof.Machine

/-- Settles O30: each of the two functions has an inverse on both sides, parse_block the little-endian layout of a
block, serialize_words the reading of a digest's words. -/
theorem codecIsBijective : Obligations.CodecIsBijective :=
  ⟨fun w => ⟨rfl, parseBlock_blockBytes w⟩, fun _ => blockBytes_parseBlock,
    Function.LeftInverse.injective deserializeWords_serializeWords,
    fun b h => ⟨deserializeWords b, serializeWords_deserializeWords h⟩⟩

end Sys2Proof.Claims
end

section
/-! The statement about the 64-bit adder (spec/42_adders.md R181, R183). -/

namespace Sys2Proof.Claims

open Sys2Proof.Machine

/-- `complete(OK)` of the model (00_scope.md R15) is the completion of R249 with ERR 0. -/
theorem finish_eq_ended (s : State) : finish s = .next (ended s 0) := rfl

/-- ACC64 completes with ACC accumulated (R183). -/
theorem exec_acc64 (s : State) :
    exec .acc64 s = .next (ended { s with acc := accumulate s.acc s.zb } 0) :=
  (exec_eq .acc64 s).trans (finish_eq_ended s.addZB)

/-- Settles O11: the accumulated ACC is the lane-wise sum modulo 2^64, no carry passing between lanes. -/
theorem acc64Accumulates : Obligations.Acc64Accumulates := fun s =>
  ⟨accumulate s.acc s.zb, exec_acc64 s, isSum64_accumulate s.acc s.zb⟩

end Sys2Proof.Claims
end

section
/-!
SUPPORT. RUN when nothing disturbs it, said once (spec/43_driver.md R201 to R206): what must hold for it to succeed, the
one state it then answers, and what of that state the bytes of the key and of the message decide.
-/

namespace Sys2Proof.Claims

open Sys2Proof.Machine

/-! ### When RUN succeeds -/

/-- RUN's checks pass, its ranges are ordinary memory and none of its accesses meets an error response. -/
structure RunPasses (s : State) : Prop where
  lengths : lengthsOk s
  memory : ∀ r ∈ ranges .run s, ordinary s r
  readsKey : readsWell s ⟨s.kptr.toNat, s.mlen.toNat⟩
  readsMsg : readsWell s ⟨s.mptr.toNat, s.mlen.toNat⟩
  writesDigest : writesWell s s.digestRange

theorem checkLengths_ne_ok (s : State) : s.checkLengths ≠ some .ok := by
  unfold State.checkLengths
  split_ifs <;> simp

theorem code_eq_zero_iff (e : ErrCode) : e.code = 0 ↔ e = .ok := by
  cases e <;> decide

/-- A command that ends through `raise` with ERR 0 raised no error. -/
theorem eq_ok_of_raise {e : ErrCode} {s t : State} (h : raise e s = .next t) (he : t.err = 0) : e = .ok := by
  injection h with h
  subst h
  exact (code_eq_zero_iff e).1 he

/-- The digest write ends RUN with ERR 0 only where it meets no error response. -/
theorem writesWell_of_storeRun {u t : State} (h : storeRun u = .next t) (he : t.err = 0) :
    writesWell u u.digestRange := by
  rw [writesWell_iff, ← Bool.not_eq_true]
  intro hfails
  rw [storeRun, if_pos hfails] at h
  cases eq_ok_of_raise h he

/-- RUN ends with ERR 0 only where nothing stops it. -/
theorem runPasses_of_exec {s t : State} (h : exec .run s = .next t) (he : t.err = 0) : RunPasses s := by
  rw [exec_eq] at h
  obtain ⟨e, hlen, hrun⟩ | ⟨-, -, hrun⟩ | ⟨-, -, hrun⟩ | ⟨-, -, -, hrun⟩ | ⟨hlen, hvet, hread, hrun⟩ :=
    execRun_cases s <;> rw [hrun] at h
  · cases eq_ok_of_raise h he
    exact absurd hlen (checkLengths_ne_ok s)
  · cases eq_ok_of_raise h he
  · cases h
  · cases eq_ok_of_raise h he
  · obtain ⟨hkey, hmsg⟩ := Bool.or_eq_false_iff.1 hread
    have hwrite := writesWell_of_storeRun h he
    rw [writesWell_iff, State.writeFails_congr (s := s) (by simp), State.digestRange_congr (s := s) (by simp)] at hwrite
    exact ⟨(lengthsOk_iff s).1 hlen, (admit_clear_iff s _).1 hvet, (readsWell_iff s _).2 hkey,
      (readsWell_iff s _).2 hmsg, (writesWell_iff s _).2 hwrite⟩

/-! ### The state RUN answers -/

/-- The digest write of RUN, where no other agent wrote the digest range: the digest of ACC, and no value drawn. -/
theorem storeRun_of_quiet {u : State} (hwf : Memory.wf u.mem = true) (hf : fits u.digestRange)
    (hw : writesWell u u.digestRange) (hq : quiet u u.digestRange) :
    ∃ m, storeRun u = .next (ended { u with mem := m } 0) ∧
      (∀ j < 64, Memory.read m (u.dptr.toNat + j) = (serializeWords u.acc).getD j 0) ∧
      sameOutside u.mem m u.digestRange := by
  have hstore : storeRun u = endRun u := by simp [storeRun, (writesWell_iff _ _).1 hw]
  have hfree : u.putDigest.free = u.free := by rw [State.putDigest_of_unraced ((quiet_iff _ _).1 hq)]
  exact ⟨u.putDigest.mem, by rw [hstore, endRun_eq, hfree],
    fun j hj => putDigest_byte hwf hf hj (not_dirty_of_quiet hq hj), sameOutside_putDigest u⟩

/-- RUN undisturbed (R205): the last block's registers, the sum over all blocks, BCNT, the digest, and nothing drawn. -/
theorem exec_run_of_quiet {s : State} (hwf : Memory.wf s.mem = true) (h : RunPasses s)
    (hq : ∀ r ∈ ranges .run s, quiet s r) :
    ∃ kb mb acc m, exec .run s =
        .next (ended
          { s with
            kb := kb, mb := mb, xb := addBlocks kb mb, zb := f128 (addBlocks kb mb), acc := acc, mem := m
            bcnt := BitVec.ofNat 32 (s.mlen.toNat / 32) } 0) ∧
      isBlock kb s.mem (s.kptr.toNat + (s.mlen.toNat - 32)) ∧ isBlock mb s.mem (s.mptr.toNat + (s.mlen.toNat - 32)) ∧
      (∀ l : Fin 8, (acc.get l).toNat =
        (∑ k ∈ Finset.range (s.mlen.toNat / 32), ((blockMix s k).get l).toNat) % 2 ^ 64) ∧
      (∀ j < 64, Memory.read m (s.dptr.toNat + j) = (serializeWords acc).getD j 0) ∧
      sameOutside s.mem m s.digestRange := by
  obtain ⟨hqkey, hqmsg, hqdigest⟩ :
      quiet s ⟨s.kptr.toNat, s.mlen.toNat⟩ ∧ quiet s ⟨s.mptr.toNat, s.mlen.toNat⟩ ∧ quiet s s.digestRange := by
    simpa [ranges, State.digestRange] using hq
  have hfits : fits s.digestRange := (h.memory s.digestRange (by simp [ranges, State.digestRange])).1
  have hrun : exec .run s = storeRun (s.startRun.runBlocks s.blockCount 0).settleRun :=
    execRun_of_readsWell h.lengths h.memory h.readsKey h.readsMsg
  obtain ⟨kb, mb, xb, zb, acc, f, hloop, hkb, hmb, hsums⟩ := settleRun_loop h.lengths
  obtain ⟨rfl, rfl, rfl, hacc⟩ := hsums hqkey hqmsg
  obtain ⟨m, hstore, hbytes, hout⟩ := storeRun_of_quiet (u := { s with
    kb := kb, mb := mb, xb := addBlocks kb mb, zb := f128 (addBlocks kb mb), acc := acc
    bcnt := BitVec.ofNat 32 (s.mlen.toNat / 32) }) hwf hfits h.writesDigest hqdigest
  exact ⟨kb, mb, acc, m, by rw [hrun, hloop, hstore], hkb hqkey, hmb hqmsg, hacc, hbytes, hout⟩

/-! ### What the bytes decide -/

/-- The two memories hold the same `n` bytes, one from `a` on, the other from `a'` on. -/
def sameBytes (m m' : List Host.Cell) (a a' n : Nat) : Prop :=
  ∀ j < n, Memory.read m (a + j) = Memory.read m' (a' + j)

theorem sameBytes.part {m m' : List Host.Cell} {a a' n : Nat} (h : sameBytes m m' a a' n) {o k : Nat} (hk : o + k ≤ n) :
    sameBytes m m' (a + o) (a' + o) k := fun j hj => by
  rw [Nat.add_assoc, Nat.add_assoc]
  exact h (o + j) (by omega)

/-- The 32 bytes at an address decide the block there. -/
theorem isBlock_unique {m m' : List Host.Cell} {a a' : Nat} {b b' : Lanes Word} (hb : isBlock b m a)
    (hb' : isBlock b' m' a') (h : sameBytes m m' a a' 32) : b = b' := by
  refine Lanes.ext_get fun i => BitVec.eq_of_toNat_eq ?_
  have hi := i.isLt
  have word : sameBytes m m' (a + 4 * i.val) (a' + 4 * i.val) 4 := h.part (by omega)
  rw [hb i, hb' i, leWord, leWord, word 1 (by omega), word 2 (by omega), word 3 (by omega),
    show Memory.read m (a + 4 * i.val) = Memory.read m' (a' + 4 * i.val) from word 0 (by omega)]

/-- The bytes of block `k` decide its mixer output. -/
theorem blockMix_congr {s s' : State} {k n : Nat} (hn : 32 * (k + 1) ≤ n)
    (hkey : sameBytes s.mem s'.mem s.kptr.toNat s'.kptr.toNat n)
    (hmsg : sameBytes s.mem s'.mem s.mptr.toNat s'.mptr.toNat n) : blockMix s k = blockMix s' k := by
  rw [blockMix, blockMix, Memory.readBytes_congr (hkey.part (o := 32 * k) (by omega)),
    Memory.readBytes_congr (hmsg.part (o := 32 * k) (by omega))]

end Sys2Proof.Claims
end

section
/-! The statements about RUN (spec/43_driver.md R205, R206). -/

namespace Sys2Proof.Claims

open Sys2Proof.Machine

/-- Settles O18: undisturbed, RUN answers one state, whose register files are the units' functions of the last block and
whose memory holds the digest. -/
theorem runComputesDigest : Obligations.RunComputesDigest := by
  intro s hlengths hwf hranges hkey hmsg hdigest
  have hpass : RunPasses s := ⟨hlengths, fun r hr => (hranges r hr).1, hkey, hmsg, hdigest⟩
  obtain ⟨kb, mb, acc, m, hrun, hkb, hmb, hacc, hbytes, hout⟩ :=
    exec_run_of_quiet hwf hpass fun r hr => (hranges r hr).2
  exact ⟨kb, mb, _, _, acc, m, hrun, hkb, hmb, isSum32_addBlocks kb mb, isMix_f128 _, hacc, isDigest_of_bytes hbytes,
    hout⟩

/-- Settles O29: a success without races is the undisturbed RUN, and in the state that answers every register file, BCNT
and the digest are read off MLEN and the bytes of the two ranges. -/
theorem runDependsOnlyOnItsInput : Obligations.RunDependsOnlyOnItsInput := by
  intro s s' t t' hwf hwf' hclean hclean' hmlen hkey hmsg hrun hrun' herr herr'
  have hpass : RunPasses s := runPasses_of_exec hrun herr
  have hpass' : RunPasses s' := runPasses_of_exec hrun' herr'
  obtain ⟨kb, mb, acc, m, ht, hkb, hmb, hacc, hbytes, -⟩ :=
    exec_run_of_quiet hwf hpass fun _ _ => by simp [quiet, hclean]
  obtain ⟨kb', mb', acc', m', ht', hkb', hmb', hacc', hbytes', -⟩ :=
    exec_run_of_quiet hwf' hpass' fun _ _ => by simp [quiet, hclean']
  rw [← hmlen] at hkb' hmb' hacc' ht'
  obtain ⟨n, hn, -⟩ := lengthsOk_blocks hpass.lengths
  have ekb : kb = kb' := isBlock_unique hkb hkb' (sameBytes.part hkey (by omega))
  have emb : mb = mb' := isBlock_unique hmb hmb' (sameBytes.part hmsg (by omega))
  have eacc : acc = acc' := Lanes.ext_get fun l => BitVec.eq_of_toNat_eq <| by
    rw [hacc l, hacc' l]
    refine congrArg (· % 2 ^ 64) (Finset.sum_congr rfl fun k hk => ?_)
    have hlast : k < s.mlen.toNat / 32 := Finset.mem_range.1 hk
    rw [blockMix_congr (by omega) hkey hmsg]
  subst ekb emb eacc
  obtain rfl := Host.Outcome.next.inj (hrun.symm.trans ht)
  obtain rfl := Host.Outcome.next.inj (hrun'.symm.trans ht')
  exact ⟨rfl, rfl, rfl, rfl, rfl, rfl, fun j hj => (hbytes j hj).trans (hbytes' j hj).symm⟩

end Sys2Proof.Claims
end

section
/-!
SUPPORT. The commands that reach memory, when an access meets an error response: the end of each, and that no command
ends with BUS where the port cannot report an error (spec/60_exceptions.md R247).
-/

namespace Sys2Proof.Claims

open Sys2Proof.Machine

/-! ### Where the port cannot report an error -/

/-- The outcome is no completion with ERR 6. -/
def noBusError (o : Host.Outcome State Fault Refusal) : Prop := ∀ t, o = .next t → t.err ≠ 6

theorem code_eq_six_iff (e : ErrCode) : e.code = 6 ↔ e = .bus := by
  cases e <;> decide

theorem noBusError_raise {e : ErrCode} (h : e ≠ .bus) (s : State) : noBusError (raise e s) := by
  rintro t ⟨⟩ h6
  exact h ((code_eq_six_iff e).1 h6)

theorem noBusError_finish (s : State) : noBusError (finish s) := noBusError_raise (e := .ok) (by decide) s

theorem noBusError_refused (q : Refusal) : noBusError (.refused q) := fun _ h => nomatch h

/-- The four cases that LDK, LDM, STD and BLK share: the one that ends with BUS needs an access that fails. -/
theorem noBusError_of_cases {o : Host.Outcome State Fault Refusal} {a : Admission} {fails : Bool} {q : Refusal}
    {past failed succeeded : State}
    (h : (a = .pastTop ∧ o = raise .range past) ∨ (a = .device ∧ o = .refused q) ∨
      (a = .clear ∧ fails = true ∧ o = raise .bus failed) ∨ (a = .clear ∧ fails = false ∧ o = finish succeeded))
    (hf : fails = false) : noBusError o := by
  obtain ⟨-, rfl⟩ | ⟨-, rfl⟩ | ⟨-, ht, -⟩ | ⟨-, -, rfl⟩ := h
  · exact noBusError_raise (by decide) past
  · exact noBusError_refused q
  · simp [hf] at ht
  · exact noBusError_finish succeeded

theorem checkLengths_ne_bus (s : State) : s.checkLengths ≠ some .bus := by
  unfold State.checkLengths
  split_ifs <;> simp

section
variable {s : State} (hb : s.platform.busCanErr = false)
include hb

theorem noBusError_loadKey (inc : Bool) : noBusError (loadKey inc s) :=
  noBusError_of_cases (loadKey_cases inc s) (State.readFails_of_no_error hb _)

theorem noBusError_loadMsg (inc : Bool) : noBusError (loadMsg inc s) :=
  noBusError_of_cases (loadMsg_cases inc s) (State.readFails_of_no_error hb _)

theorem noBusError_storeDigest (inc : Bool) : noBusError (storeDigest inc s) :=
  noBusError_of_cases (storeDigest_cases inc s) (State.writeFails_of_no_error hb _)

theorem noBusError_oneBlock (inc : Bool) : noBusError (oneBlock inc s) :=
  noBusError_of_cases (oneBlock_cases inc s) (by simp [State.readFails_of_no_error hb])

theorem noBusError_storeRun : noBusError (storeRun s) := by
  rw [storeRun, State.writeFails_of_no_error hb]
  exact noBusError_finish _

theorem noBusError_execRun : noBusError (execRun s) := by
  obtain ⟨e, hlen, h⟩ | ⟨-, -, h⟩ | ⟨-, -, h⟩ | ⟨-, -, hf, -⟩ | ⟨-, -, -, h⟩ := execRun_cases s
  · rw [h]
    exact noBusError_raise (fun he => checkLengths_ne_bus s (he ▸ hlen)) _
  · rw [h]
    exact noBusError_raise (by decide) _
  · rw [h]
    exact noBusError_refused _
  · simp [State.readFails_of_no_error hb] at hf
  · rw [h]
    exact noBusError_storeRun (by simpa using hb)

/-- A memory port that reports no error leaves no command with ERR 6. -/
theorem noBusError_exec (i : Instr) : noBusError (exec i s) := by
  rw [exec_eq]
  cases i with
  | nop | clracc | add32 | mix | acc64 => exact noBusError_finish _
  | ldk | ldkInc => exact noBusError_loadKey hb _
  | ldm | ldmInc => exact noBusError_loadMsg hb _
  | std | stdInc => exact noBusError_storeDigest hb _
  | blk | blkInc => exact noBusError_oneBlock hb _
  | run => exact noBusError_execRun hb

end

/-! ### The commands whose checks pass and one of whose accesses meets an error -/

theorem loadKey_of_not_readsWell {inc : Bool} {s : State} (ho : ordinary s (s.keyRange 32))
    (hr : ¬readsWell s (s.keyRange 32)) : loadKey inc s = raise .bus s.anyKB := by
  have hvet : s.vet [s.keyRange 32] = .clear := (admit_clear_iff _ _).2 (by simpa using ho)
  simp [loadKey, hvet, (not_readsWell_iff _ _).1 hr]

theorem loadMsg_of_not_readsWell {inc : Bool} {s : State} (ho : ordinary s (s.msgRange 32))
    (hr : ¬readsWell s (s.msgRange 32)) : loadMsg inc s = raise .bus s.anyMB := by
  have hvet : s.vet [s.msgRange 32] = .clear := (admit_clear_iff _ _).2 (by simpa using ho)
  simp [loadMsg, hvet, (not_readsWell_iff _ _).1 hr]

theorem oneBlock_of_not_readsWell {inc : Bool} {s : State} (ho : ∀ r ∈ [s.keyRange 32, s.msgRange 32], ordinary s r)
    (hr : ∃ r ∈ [s.keyRange 32, s.msgRange 32], ¬readsWell s r) : oneBlock inc s = raise .bus s.anyKB.anyMB := by
  have hvet : s.vet [s.keyRange 32, s.msgRange 32] = .clear := (admit_clear_iff _ _).2 ho
  have hfails : (s.readFails (s.keyRange 32) || s.readFails (s.msgRange 32)) = true := by
    simpa [not_readsWell_iff] using hr
  simp only [oneBlock, Config.blockBytes_eq, hvet, if_pos hfails]

theorem storeDigest_of_not_writesWell {inc : Bool} {s : State} (ho : ordinary s s.digestRange)
    (hw : ¬writesWell s s.digestRange) : storeDigest inc s = failStore s := by
  have hvet : s.vet [s.digestRange] = .clear := (admit_clear_iff _ _).2 (by simpa using ho)
  simp [storeDigest, hvet, (not_writesWell_iff _ _).1 hw]

theorem execRun_of_not_readsWell {s : State} (hl : lengthsOk s) (ho : ∀ r ∈ ranges .run s, ordinary s r)
    (hr : ¬(readsWell s ⟨s.kptr.toNat, s.mlen.toNat⟩ ∧ readsWell s ⟨s.mptr.toNat, s.mlen.toNat⟩)) :
    execRun s = raise .bus s.anyRun.settleDigest := by
  have hvet : s.vet s.runRanges = .clear := (admit_clear_iff _ _).2 ho
  have hfails : (s.readFails (s.keyRange s.mlen.toNat) || s.readFails (s.msgRange s.mlen.toNat)) = true := by
    rw [Bool.or_eq_true, ← not_readsWell_iff, ← not_readsWell_iff]
    exact not_and_or.1 hr
  simp only [execRun, (lengthsOk_iff s).2 hl, hvet, if_pos hfails]

/-- A bus error on a read of RUN, before races are settled, reaches the register files, BCNT and the draws alone. -/
theorem exists_anyRun_eq (s : State) :
    ∃ kb mb xb zb acc n f, s.anyRun =
      { s with kb := kb, mb := mb, xb := xb, zb := zb, acc := acc, bcnt := n, free := f } :=
  ⟨_, _, _, _, _, _, _, s.anyRun_frame⟩

/-- Memory `m` is that of `s` after a digest write of `acc` that does not end: outside the digest range as before, and
in it each byte that no other agent wrote old or new. -/
def holdsCutDigest (s : State) (m : List Host.Cell) (acc : Lanes DWord) : Prop :=
  sameOutside s.mem m s.digestRange ∧
    ∀ j < 64, s.dptr.toNat + j ∉ s.dirty →
      Memory.read m (s.dptr.toNat + j) = Memory.read s.mem (s.dptr.toNat + j) ∨
        Memory.read m (s.dptr.toNat + j) = (serializeWords acc).getD j 0

/-- A digest write that meets an error response, of STD and of RUN alike, reaches memory and the draws alone. -/
theorem raise_cutDigest {u : State} (hwf : Memory.wf u.mem = true) (hf : fits u.digestRange) :
    ∃ m f, raise .bus u.cutDigest = .next (ended { u with mem := m, free := f } 6) ∧ holdsCutDigest u m u.acc := by
  refine ⟨u.cutDigest.mem, u.cutDigest.free, ?_, sameOutside_cutDigest u, fun _ => cutDigest_byte hwf hf⟩
  rw [State.cutDigest_frame]
  rfl

/-- The digest write of RUN, where it meets an error response. -/
theorem storeRun_of_not_writesWell {u : State} (hwf : Memory.wf u.mem = true) (hf : fits u.digestRange)
    (hw : ¬writesWell u u.digestRange) :
    ∃ m f, storeRun u = .next (ended { u with mem := m, free := f } 6) ∧ holdsCutDigest u m u.acc := by
  rw [storeRun, if_pos ((not_writesWell_iff _ _).1 hw)]
  exact raise_cutDigest hwf hf

end Sys2Proof.Claims
end

section
/-! The statement about bus errors (spec/60_exceptions.md R247). -/

namespace Sys2Proof.Claims

open Sys2Proof.Machine

/-- LDK and LDK+ on a bus error reach KB alone. -/
theorem loadKey_fails {i : Instr} {s : State} (hi : i = .ldk ∨ i = .ldkInc) (ho : ordinary s ⟨s.kptr.toNat, 32⟩)
    (hr : ¬readsWell s ⟨s.kptr.toNat, 32⟩) : ∃ kb f, exec i s = .next (ended { s with kb := kb, free := f } 6) := by
  rw [exec_loadKey hi, loadKey_of_not_readsWell ho hr]
  exact ⟨_, _, rfl⟩

/-- LDM and LDM+ on a bus error reach MB alone. -/
theorem loadMsg_fails {i : Instr} {s : State} (hi : i = .ldm ∨ i = .ldmInc) (ho : ordinary s ⟨s.mptr.toNat, 32⟩)
    (hr : ¬readsWell s ⟨s.mptr.toNat, 32⟩) : ∃ mb f, exec i s = .next (ended { s with mb := mb, free := f } 6) := by
  rw [exec_loadMsg hi, loadMsg_of_not_readsWell ho hr]
  exact ⟨_, _, rfl⟩

/-- BLK and BLK+ on a bus error reach KB and MB alone. -/
theorem oneBlock_fails {i : Instr} {s : State} (hi : i = .blk ∨ i = .blkInc) (ho : ∀ r ∈ ranges i s, ordinary s r)
    (hr : ∃ r ∈ ranges i s, ¬readsWell s r) :
    ∃ kb mb f, exec i s = .next (ended { s with kb := kb, mb := mb, free := f } 6) := by
  rw [ranges_oneBlock hi] at ho hr
  rw [exec_oneBlock hi, oneBlock_of_not_readsWell ho hr]
  exact ⟨_, _, _, rfl⟩

/-- STD and STD+ on a bus error reach the digest range alone. -/
theorem storeDigest_fails {i : Instr} {s : State} (hwf : Memory.wf s.mem = true) (hi : i = .std ∨ i = .stdInc)
    (ho : ordinary s s.digestRange) (hw : ¬writesWell s s.digestRange) :
    ∃ m f, exec i s = .next (ended { s with mem := m, free := f } 6) ∧ holdsCutDigest s m s.acc := by
  rw [exec_storeDigest hi, storeDigest_of_not_writesWell ho hw]
  exact raise_cutDigest hwf ho.1

/-- RUN on a bus error of a read reaches the register files, BCNT and the raced digest bytes alone. -/
theorem run_fails_reading {s : State} (hl : lengthsOk s) (ho : ∀ r ∈ ranges .run s, ordinary s r)
    (hr : ¬(readsWell s ⟨s.kptr.toNat, s.mlen.toNat⟩ ∧ readsWell s ⟨s.mptr.toNat, s.mlen.toNat⟩)) :
    ∃ kb mb xb zb acc n m f, exec .run s = .next (ended
        { s with kb := kb, mb := mb, xb := xb, zb := zb, acc := acc, bcnt := n, mem := m, free := f } 6) ∧
      onlyRaced s m ∧ (quiet s s.digestRange → m = s.mem) := by
  have hrun : exec .run s = raise .bus s.anyRun.settleDigest := execRun_of_not_readsWell hl ho hr
  obtain ⟨kb, mb, xb, zb, acc, n, f, hany⟩ := exists_anyRun_eq s
  rw [hany] at hrun
  obtain ⟨m, f', hend, hraced, hquiet⟩ := raise_settleDigest (e := .bus) (s := { s with
    kb := kb, mb := mb, xb := xb, zb := zb, acc := acc, bcnt := n, free := f }) rfl
  exact ⟨kb, mb, xb, zb, acc, n, m, f', hrun.trans (congrArg Host.Outcome.next hend), hraced, hquiet⟩

/-- RUN on a bus error of the digest write: what the loop leaves, and each digest byte nobody else wrote old or new. -/
theorem run_fails_writing {s : State} (hwf : Memory.wf s.mem = true) (hl : lengthsOk s)
    (ho : ∀ r ∈ ranges .run s, ordinary s r) (hk : readsWell s ⟨s.kptr.toNat, s.mlen.toNat⟩)
    (hm : readsWell s ⟨s.mptr.toNat, s.mlen.toNat⟩) (hw : ¬writesWell s s.digestRange) :
    ∃ kb mb xb zb acc m f, exec .run s = .next (ended
        { s with
          kb := kb, mb := mb, xb := xb, zb := zb, acc := acc, mem := m, free := f
          bcnt := BitVec.ofNat 32 (s.mlen.toNat / 32) } 6) ∧
      loopLeft s kb mb xb zb acc ∧ holdsCutDigest s m acc := by
  have hrun : exec .run s = storeRun (s.startRun.runBlocks s.blockCount 0).settleRun := execRun_of_readsWell hl ho hk hm
  have hfits : fits s.digestRange := (ho s.digestRange (by simp [ranges, State.digestRange])).1
  obtain ⟨kb, mb, xb, zb, acc, f, hloop, hleft⟩ := settleRun_loopLeft hl
  rw [hrun, hloop]
  obtain ⟨m, f', hstore, hcut⟩ := storeRun_of_not_writesWell (u := { s with
    kb := kb, mb := mb, xb := xb, zb := zb, acc := acc, free := f
    bcnt := BitVec.ofNat 32 (s.mlen.toNat / 32) }) hwf hfits hw
  exact ⟨kb, mb, xb, zb, acc, m, f', hstore, hleft, hcut⟩

/-- Settles O20, row by row of R247's table: where the checks pass, the port's error decides the branch of each meaning;
a digest write cut short is one fact about STD and RUN, and RUN's registers before it are its loop's. -/
theorem busErrorLeavesTableState : Obligations.BusErrorLeavesTableState := fun _ hwf =>
  ⟨fun i t hb => noBusError_exec hb i t, fun _ => loadKey_fails, fun _ => loadMsg_fails, fun _ => oneBlock_fails,
    fun _ => storeDigest_fails hwf, run_fails_reading, run_fails_writing hwf⟩

end Sys2Proof.Claims
end

section
/-!
SUPPORT. How a command ends, said once for all 14: by `raise`, from a state in which IE, OVR and the canonical form of
memory are as before, or with the refusal of spec/20_memory.md R87 (60_exceptions.md R240, R249).
-/

namespace Sys2Proof.Claims

open Sys2Proof.Machine

/-! ### The digest write keeps memory canonical -/

theorem wf_putDigest {s : State} (hf : fits s.digestRange) (h : Memory.wf s.mem = true) :
    Memory.wf s.putDigest.mem = true :=
  State.settleDigest_mem_wf _ (State.landDigest_mem_wf s _ hf h)

theorem wf_cutDigest {s : State} (hf : fits s.digestRange) (h : Memory.wf s.mem = true) :
    Memory.wf s.cutDigest.mem = true :=
  State.settleDigest_mem_wf _ (State.tearDigest_mem_wf s _ hf h)

/-- A range of an admitted command ends below 2^32. -/
theorem fits_of_vet {s : State} {rs : List Region} {r : Region} (h : s.vet rs = .clear) (hr : r ∈ rs) : fits r :=
  ((admit_clear_iff s rs).1 h r hr).1

/-! ### Ends -/

/-- State `u` differs from `s` neither in the flags that only the host and a reset move nor in the canonical form of memory. -/
structure Kept (s u : State) : Prop where
  ie : u.ie = s.ie
  ovr : u.ovr = s.ovr
  wf : Memory.wf s.mem = true → Memory.wf u.mem = true

theorem Kept.of_mem {s u : State} (hie : u.ie = s.ie) (hovr : u.ovr = s.ovr) (hmem : u.mem = s.mem) : Kept s u :=
  ⟨hie, hovr, fun h => by rwa [hmem]⟩

theorem Kept.refl (s : State) : Kept s s := .of_mem rfl rfl rfl

theorem Kept.trans {s u v : State} (h : Kept s u) (h' : Kept u v) : Kept s v :=
  ⟨h'.ie.trans h.ie, h'.ovr.trans h.ovr, fun hwf => h'.wf (h.wf hwf)⟩

theorem kept_settleDigest (s : State) : Kept s s.settleDigest :=
  ⟨by simp, by simp, State.settleDigest_mem_wf s⟩

theorem kept_putDigest {s : State} (hf : fits s.digestRange) : Kept s s.putDigest :=
  ⟨by rw [State.putDigest_frame], by rw [State.putDigest_frame], wf_putDigest hf⟩

theorem kept_cutDigest {s : State} (hf : fits s.digestRange) : Kept s s.cutDigest :=
  ⟨by rw [State.cutDigest_frame], by rw [State.cutDigest_frame], wf_cutDigest hf⟩

/-- The outcome is a completion of a state that keeps what `Kept` names of `s`. -/
def endsFrom (s : State) (o : Host.Outcome State Fault Refusal) : Prop := ∃ e u, o = raise e u ∧ Kept s u

theorem endsFrom_raise {e : ErrCode} {s u : State} (h : Kept s u) : endsFrom s (raise e u) := ⟨e, u, rfl, h⟩

theorem endsFrom_finish {s u : State} (h : Kept s u) : endsFrom s (finish u) := ⟨.ok, u, rfl, h⟩

theorem endLoadKey_ends (inc : Bool) (s : State) : endsFrom s (endLoadKey inc s) :=
  endsFrom_finish (.of_mem (by simp) (by simp) (by simp))

theorem endLoadMsg_ends (inc : Bool) (s : State) : endsFrom s (endLoadMsg inc s) :=
  endsFrom_finish (.of_mem (by simp) (by simp) (by simp))

theorem endBlock_ends (inc : Bool) (s : State) : endsFrom s (endBlock inc s) :=
  endsFrom_finish (.of_mem (by simp) (by simp) (by simp))

theorem endStore_ends (inc : Bool) {s : State} (hf : fits s.digestRange) : endsFrom s (endStore inc s) :=
  endsFrom_finish ((kept_putDigest hf).trans (.of_mem (by simp) (by simp) (by simp)))

theorem failStore_ends {s : State} (hf : fits s.digestRange) : endsFrom s (failStore s) :=
  endsFrom_raise (kept_cutDigest hf)

theorem storeRun_ends {s : State} (hf : fits s.digestRange) : endsFrom s (storeRun s) := by
  unfold storeRun
  split
  · exact endsFrom_raise (kept_cutDigest hf)
  · exact endsFrom_finish (kept_putDigest hf)

theorem endsFrom.of_kept {s u : State} {o : Host.Outcome State Fault Refusal} (h' : endsFrom u o) (h : Kept s u) :
    endsFrom s o := by
  obtain ⟨e, v, ho, hv⟩ := h'
  exact ⟨e, v, ho, h.trans hv⟩

/-- A command ends by completion, or is refused for a range its vetting found on a device. -/
def ends (s : State) (o : Host.Outcome State Fault Refusal) : Prop :=
  endsFrom s o ∨ (o = .refused .sideEffectBuffer ∧ ∃ rs, s.vet rs = .device)

theorem loadKey_ends (inc : Bool) (s : State) : ends s (loadKey inc s) := by
  obtain ⟨-, h⟩ | ⟨hd, h⟩ | ⟨-, -, h⟩ | ⟨-, -, h⟩ := loadKey_cases inc s <;> rw [h]
  · exact .inl (endsFrom_raise (.refl s))
  · exact .inr ⟨rfl, _, hd⟩
  · exact .inl (endsFrom_raise (.of_mem rfl rfl rfl))
  · exact .inl ((endLoadKey_ends inc _).of_kept (.of_mem (by simp) (by simp) (by simp)))

theorem loadMsg_ends (inc : Bool) (s : State) : ends s (loadMsg inc s) := by
  obtain ⟨-, h⟩ | ⟨hd, h⟩ | ⟨-, -, h⟩ | ⟨-, -, h⟩ := loadMsg_cases inc s <;> rw [h]
  · exact .inl (endsFrom_raise (.refl s))
  · exact .inr ⟨rfl, _, hd⟩
  · exact .inl (endsFrom_raise (.of_mem rfl rfl rfl))
  · exact .inl ((endLoadMsg_ends inc _).of_kept (.of_mem (by simp) (by simp) (by simp)))

theorem storeDigest_ends (inc : Bool) (s : State) : ends s (storeDigest inc s) := by
  obtain ⟨-, h⟩ | ⟨hd, h⟩ | ⟨hv, -, h⟩ | ⟨hv, -, h⟩ := storeDigest_cases inc s <;> rw [h]
  · exact .inl (endsFrom_raise (kept_settleDigest s))
  · exact .inr ⟨rfl, _, hd⟩
  · exact .inl (failStore_ends (fits_of_vet hv (by simp)))
  · exact .inl (endStore_ends inc (fits_of_vet hv (by simp)))

theorem oneBlock_ends (inc : Bool) (s : State) : ends s (oneBlock inc s) := by
  obtain ⟨-, h⟩ | ⟨hd, h⟩ | ⟨-, -, h⟩ | ⟨-, -, h⟩ := oneBlock_cases inc s <;> rw [h]
  · exact .inl (endsFrom_raise (.refl s))
  · exact .inr ⟨rfl, _, hd⟩
  · exact .inl (endsFrom_raise (.of_mem rfl rfl rfl))
  · exact .inl ((endBlock_ends inc _).of_kept (.of_mem (by simp) (by simp) (by simp)))

theorem execRun_ends (s : State) : ends s (execRun s) := by
  obtain ⟨e, -, h⟩ | ⟨-, -, h⟩ | ⟨-, hd, h⟩ | ⟨-, -, -, h⟩ | ⟨-, hv, -, h⟩ := execRun_cases s <;> rw [h]
  · exact .inl (endsFrom_raise (kept_settleDigest s))
  · exact .inl (endsFrom_raise (kept_settleDigest s))
  · exact .inr ⟨rfl, _, hd⟩
  · exact .inl (endsFrom_raise ((Kept.of_mem (by simp) (by simp) (by simp)).trans (kept_settleDigest s.anyRun)))
  · have hf : fits s.digestRange := fits_of_vet hv (by simp [State.runRanges])
    rw [← State.digestRange_congr (s' := (s.startRun.runBlocks s.blockCount 0).settleRun) (by simp)] at hf
    exact .inl ((storeRun_ends hf).of_kept (.of_mem (by simp) (by simp) (by simp)))

/-- Every command ends so. -/
theorem exec_ends (i : Instr) (s : State) : ends s (exec i s) := by
  rw [exec_eq]
  cases i with
  | nop => exact .inl (endsFrom_finish (.refl s))
  | clracc | add32 | mix | acc64 => exact .inl (endsFrom_finish (.of_mem rfl rfl rfl))
  | ldk | ldkInc => exact loadKey_ends _ s
  | ldm | ldmInc => exact loadMsg_ends _ s
  | std | stdInc => exact storeDigest_ends _ s
  | blk | blkInc => exact oneBlock_ends _ s
  | run => exact execRun_ends s

/-- A next state of a command is a completion. -/
theorem exec_next {i : Instr} {s t : State} (h : exec i s = .next t) : ∃ e u, t = u.complete e ∧ Kept s u := by
  obtain ⟨e, u, ho, hk⟩ | ⟨ho, -⟩ := exec_ends i s <;> rw [ho] at h
  · exact ⟨e, u, (Host.Outcome.next.inj h).symm, hk⟩
  · cases h

end Sys2Proof.Claims
end

section
/-!
SUPPORT. The sequencer against the invariant (spec/10_state.md R60): from a state that meets it every step of the
sequencer, every answer of the memory port and every input keeps it, none reaches the fault of log 15, and the only refusal
is that of 20_memory.md R87. One walk through the sequencer serves both.
-/

namespace Sys2Proof.Claims

open Sys2Proof.Machine

/-- What the invariant allows a step from `s` to answer: a state that meets it, or the refusal of a device's range. -/
def safe (s : State) (o : Host.Outcome State Fault Refusal) : Prop :=
  match o with
  | .next t => t.inv = true
  | .fault _ => False
  | .refused q => q = .sideEffectBuffer ∧ s.platform.device ≠ []

theorem device_ne_nil_of_vet {s : State} {rs : List Region} (h : s.vet rs = .device) : s.platform.device ≠ [] := by
  obtain ⟨-, r, -, hr⟩ := (State.admit_eq_device_iff s rs).1 h
  rintro hnil
  simp [State.onDevice, hnil] at hr

theorem safe_refused {s : State} {rs : List Region} (h : s.vet rs = .device) : safe s (.refused .sideEffectBuffer) :=
  ⟨rfl, device_ne_nil_of_vet h⟩

/-- Which refusals are allowed depends on the platform alone. -/
theorem safe_congr {s u : State} {o : Host.Outcome State Fault Refusal} (hp : u.platform = s.platform) (h : safe u o) :
    safe s o := by
  cases o with
  | next t => exact h
  | fault f => exact h
  | refused q => exact ⟨h.1, hp ▸ h.2⟩

theorem safe_of_endsFrom {s u : State} {o : Host.Outcome State Fault Refusal} (hwf : Memory.wf u.mem = true)
    (h : endsFrom u o) : safe s o := by
  obtain ⟨e, v, rfl, hv⟩ := h
  exact State.complete_inv e (hv.wf hwf)

theorem safe_raise {s u : State} (e : ErrCode) (hwf : Memory.wf u.mem = true) : safe s (raise e u) :=
  State.complete_inv e hwf

theorem safe_exec (i : Instr) {s : State} (hwf : Memory.wf s.mem = true) : safe s (exec i s) := by
  obtain h | ⟨h, rs, hvet⟩ := exec_ends i s
  · exact safe_of_endsFrom hwf h
  · rw [h]
    exact safe_refused hvet

/-! ### The first step -/

theorem safe_enter {s s' : State} {rs : List Region} (hwf : Memory.wf s.mem = true)
    (h : s.vet rs = .clear → s'.inv = true) : safe s (enter rs s s') := by
  cases hvet : s.vet rs with
  | clear => rw [enter_clear hvet]; exact h hvet
  | pastTop => rw [enter_pastTop hvet]; exact safe_raise _ hwf
  | device => rw [enter_device hvet]; exact safe_refused hvet

theorem safe_enterStore {s s' : State} {rs : List Region} (hwf : Memory.wf s.mem = true)
    (h : s.vet rs = .clear → s'.inv = true) : safe s (enterStore rs s s') := by
  cases hvet : s.vet rs with
  | clear => rw [enterStore_clear hvet]; exact h hvet
  | pastTop => rw [enterStore_pastTop hvet]; exact safe_raise _ (State.settleDigest_mem_wf s hwf)
  | device => rw [enterStore_device hvet]; exact safe_refused hvet

/-- RUN's hidden state reads the pointers, the lengths and the device regions alone. -/
theorem runOk_congr {s u : State} {j : Job} (h1 : u.kptr = s.kptr) (h2 : u.mptr = s.mptr) (h3 : u.dptr = s.dptr)
    (h4 : u.klen = s.klen) (h5 : u.mlen = s.mlen) (h6 : u.platform = s.platform) : j.runOk u = j.runOk s := by
  have hranges : u.runRanges = s.runRanges := by
    simp only [State.runRanges, State.keyRange, State.msgRange, State.digestRange, h1, h2, h3, h5]
  simp only [Job.runOk, State.admitted, State.admit_congr h6, hranges, State.checkLengths, State.blockCount, h4, h5]

/-- RUN's block count fits BCNT. -/
theorem runOk_blocks {s : State} {j : Job} (h : j.runOk s = true) : j.n < 2 ^ 27 := by
  simp only [Job.runOk, Bool.and_eq_true, beq_iff_eq, State.blockCount, Config.blockBytes_eq] at h
  have := s.mlen.isLt
  omega

theorem leftOk_range : leftOk (List.range Config.digestBytes) = true := by
  simp [leftOk, List.nodup_range]

/-- The state of a command in flight, as the lemmas below take it. -/
structure InFlight (i : Instr) (j : Job) (s : State) : Prop where
  inv : s.inv = true
  job : s.job = some j
  decodes : decode j.word = .command i

section
variable {i : Instr} {j : Job} {s : State} (h : InFlight i j s)
include h

theorem InFlight.wf : Memory.wf s.mem = true := ((State.inv_iff s).1 h.inv).1

theorem InFlight.phaseOk : j.phaseOk i s = true := by
  obtain ⟨-, -, -, -, -, hphase, -⟩ := State.inv_job h.inv h.job
  exact hphase i h.decodes

/-- The command goes on in a state that differs from `s` in no field the invariant ties to BUSY. -/
theorem InFlight.inv_setJob {u : State} {j' : Job} (hw : j'.word = j.word) (hp : j'.phaseOk i u = true)
    (hbusy : u.busy = s.busy) (hdone : u.done = s.done) (herr : u.err = s.err) (hlast : u.lastcmd = s.lastcmd)
    (hwf : Memory.wf u.mem = true) : (u.setJob j').inv = true :=
  State.inv_setJob h.inv h.job hw h.decodes hp hbusy hdone herr hlast hwf

/-- The accesses of a command are issued in a phase that is legal. -/
theorem InFlight.inv_issue {j' : Job} (hw : j'.word = j.word) (hp : j'.phaseOk i s = true) : (s.setJob j').inv = true :=
  h.inv_setJob hw hp rfl rfl rfl rfl h.wf

/-- RUN's loop begins with the block count the registers give. -/
theorem InFlight.inv_startRun (hi : i = .run) (hl : s.checkLengths = none) (hvet : s.vet s.runRanges = .clear) :
    (s.startRun.issueReads j s.blockCount).inv = true := by
  subst hi
  obtain ⟨n, -, hn⟩ := lengthsOk_blocks ((lengthsOk_iff s).1 hl)
  have hl' : s.startRun.checkLengths = none := hl
  have hvet' : s.startRun.vet s.startRun.runRanges = .clear := hvet
  have hn' : s.startRun.blockCount = n + 1 := hn
  refine h.inv_setJob rfl ?_ rfl rfl rfl rfl h.wf
  simp [Job.phaseOk, Job.runOk, hl', State.admitted, hvet', hn, hn', Job.readOk, Job.placesOk, readsKey, readsMsg]

theorem InFlight.safe_tickStart : safe s (tickStart i j s) := by
  have hwf := h.wf
  cases i with
  | nop | clracc | add32 | mix | acc64 => unfold tickStart; exact safe_exec _ hwf
  | ldk | ldkInc | ldm | ldmInc | blk | blkInc =>
    refine safe_enter hwf fun hvet => h.inv_issue rfl ?_
    simp [Job.phaseOk, State.admitted, hvet, Job.readOk, Job.placesOk, readsKey, readsMsg]
  | std | stdInc =>
    refine safe_enterStore hwf fun hvet => h.inv_issue rfl ?_
    simp only [Job.phaseOk, State.admitted, hvet, leftOk_range, beq_self_eq_true, Bool.and_self]
  | run =>
    unfold tickStart
    cases hl : s.checkLengths with
    | some e => exact safe_raise e (State.settleDigest_mem_wf s hwf)
    | none => exact safe_enterStore hwf fun hvet => h.inv_startRun rfl hl hvet

/-! ### A block is parsed -/

/-- What the invariant says of RUN while it reads. -/
theorem InFlight.run_read {key msg : List (Nat × Byte)} (hi : i = .run) (hp : j.phase = .read key msg) :
    j.runOk s = true ∧ s.bcnt.toNat = j.k ∧ j.readOk .run key msg = true := by
  have hok := h.phaseOk
  subst hi
  simpa only [Job.phaseOk, hp, Bool.and_eq_true, beq_iff_eq, and_assoc] using hok

/-- RUN after a block: the next one, or the digest write with its results settled. -/
theorem InFlight.inv_nextBlock {key msg : List (Nat × Byte)} (hi : i = .run) (hp : j.phase = .read key msg)
    (b c : List Byte) : (nextBlock j key msg ((s.foldBytes b c).countBlock j.k)).inv = true := by
  obtain ⟨hrun, -, hread⟩ := h.run_read hi hp
  obtain ⟨hlt, -, -, hkey, hmsg⟩ := (Job.readOk_iff _ _ _ _).1 hread
  have hrun' : j.runOk ((s.foldBytes b c).countBlock j.k) = true := by
    rw [runOk_congr (s := s) (by simp) (by simp) (by simp) (by simp) (by simp) (by simp)]
    exact hrun
  have hcount : ((s.foldBytes b c).countBlock j.k).bcnt.toNat = j.k + 1 := by
    have hn := runOk_blocks hrun
    simp only [State.countBlock_bcnt, BitVec.toNat_ofNat]
    omega
  have hwf : Memory.wf ((s.foldBytes b c).countBlock j.k).mem = true := by simpa using h.wf
  have hflags : ((s.foldBytes b c).countBlock j.k).busy = s.busy ∧ ((s.foldBytes b c).countBlock j.k).done = s.done ∧
      ((s.foldBytes b c).countBlock j.k).err = s.err ∧ ((s.foldBytes b c).countBlock j.k).lastcmd = s.lastcmd := by simp
  generalize (s.foldBytes b c).countBlock j.k = u at *
  obtain ⟨hbusy, hdone, herr, hlast⟩ := hflags
  unfold nextBlock
  subst hi
  split
  · refine h.inv_setJob rfl ?_ hbusy hdone herr hlast hwf
    have hread' : ({ j with k := j.k + 1, phase := .read (j.later key) (j.later msg) } : Job).readOk .run (j.later key)
        (j.later msg) = true :=
      (Job.readOk_iff _ _ _ _).2 ⟨by assumption, rfl, rfl, Job.placesOk_later hkey _, Job.placesOk_later hmsg _⟩
    simp only [Job.phaseOk, Bool.and_eq_true, beq_iff_eq]
    exact ⟨⟨hrun', hcount⟩, hread'⟩
  · refine h.inv_setJob rfl ?_ (by simpa) (by simpa) (by simpa) (by simpa) (by simpa)
    have hend : j.k + 1 = j.n := by omega
    simp only [Job.phaseOk, Bool.and_eq_true, beq_iff_eq, leftOk_range, and_true]
    refine ⟨⟨?_, ?_⟩, hend⟩
    · exact (runOk_congr (s := u) (by simp) (by simp) (by simp) (by simp) (by simp) (by simp)).trans hrun'
    · rw [State.settleRun_bcnt, hcount, hend]

theorem InFlight.safe_tickBlock {key msg : List (Nat × Byte)} (hp : j.phase = .read key msg) :
    safe s (tickBlock i j key msg s) := by
  have hwf := h.wf
  obtain ⟨hi, -⟩ := Job.phaseOk_read h.phaseOk hp
  unfold tickBlock
  cases i with
  | nop | clracc | add32 | mix | acc64 | std | stdInc => simp at hi
  | ldk | ldkInc => exact safe_of_endsFrom (by simpa using hwf) (endLoadKey_ends _ _)
  | ldm | ldmInc => exact safe_of_endsFrom (by simpa using hwf) (endLoadMsg_ends _ _)
  | blk | blkInc => exact safe_of_endsFrom (by simpa using hwf) (endBlock_ends _ _)
  | run => exact h.inv_nextBlock rfl hp _ _

/-! ### The digest write -/

theorem InFlight.safe_tickStored {left : List Nat} {seen : Nat} (hp : j.phase = .write left seen) :
    safe s (tickStored i (s.settleLate i seen)) := by
  obtain ⟨hi, -, hf⟩ := Job.phaseOk_write h.phaseOk hp
  have hwf : Memory.wf (s.settleLate i seen).mem = true := by simpa using h.wf
  have hf' : fits (s.settleLate i seen).digestRange := by
    rwa [State.digestRange_congr (s := s) (by simp)]
  cases i with
  | std | stdInc => exact safe_of_endsFrom hwf (endStore_ends _ hf')
  | run => exact safe_of_endsFrom hwf (endsFrom_finish (kept_putDigest hf'))
  | _ => simp at hi

theorem InFlight.safe_tickCommand : safe s (tickCommand i j s) := by
  unfold tickCommand
  cases hp : j.phase with
  | start => exact h.safe_tickStart
  | read key msg =>
    dsimp only
    split
    · exact h.safe_tickBlock hp
    · exact h.inv
  | write left seen =>
    dsimp only
    split
    · exact h.safe_tickStored hp
    · exact h.inv

/-! ### The memory port's answers -/

theorem InFlight.safe_failRead {key msg : List (Nat × Byte)} (hp : j.phase = .read key msg) : safe s (failRead i s) := by
  have hwf := h.wf
  obtain ⟨hi, -⟩ := Job.phaseOk_read h.phaseOk hp
  unfold failRead
  cases i with
  | nop | clracc | add32 | mix | acc64 | std | stdInc => simp at hi
  | ldk | ldkInc | ldm | ldmInc | blk | blkInc => exact safe_raise .bus hwf
  | run => exact safe_raise .bus (State.settleDigest_mem_wf _ (by simpa using hwf))

/-- A byte of the key or of the message is read: the phase stays legal. -/
theorem InFlight.inv_gotKey {key msg : List (Nat × Byte)} {o : Nat} (b : Byte) (hp : j.phase = .read key msg)
    (hr : readsKey i = true) (hu : j.unparsed o = true) (hn : hasByte key o = false) :
    (s.setJob (j.gotKey o b)).inv = true := by
  obtain ⟨-, hread⟩ := Job.phaseOk_read h.phaseOk hp
  obtain ⟨hlt, -, hm, hkey, hmsg⟩ := (Job.readOk_iff _ _ _ _).1 hread
  have hgot : j.gotKey o b = { j with phase := .read ((o, b) :: key) msg } := by simp only [Job.gotKey, hp]
  rw [hgot]
  refine h.inv_issue rfl (Job.phaseOk_setRead h.phaseOk hp ?_)
  exact (Job.readOk_iff _ _ _ _).2 ⟨hlt, by simp [hr], hm, Job.placesOk_cons b hkey hu hn, hmsg⟩

theorem InFlight.inv_gotMsg {key msg : List (Nat × Byte)} {o : Nat} (b : Byte) (hp : j.phase = .read key msg)
    (hr : readsMsg i = true) (hu : j.unparsed o = true) (hn : hasByte msg o = false) :
    (s.setJob (j.gotMsg o b)).inv = true := by
  obtain ⟨-, hread⟩ := Job.phaseOk_read h.phaseOk hp
  obtain ⟨hlt, hk, -, hkey, hmsg⟩ := (Job.readOk_iff _ _ _ _).1 hread
  have hgot : j.gotMsg o b = { j with phase := .read key ((o, b) :: msg) } := by simp only [Job.gotMsg, hp]
  rw [hgot]
  refine h.inv_issue rfl (Job.phaseOk_setRead h.phaseOk hp ?_)
  exact (Job.readOk_iff _ _ _ _).2 ⟨hlt, hk, by simp [hr], hkey, Job.placesOk_cons b hmsg hu hn⟩

/-- A digest byte is written, or the write meets an error. -/
theorem InFlight.safe_performWrite {left : List Nat} {seen o : Nat} (hp : j.phase = .write left seen) (ho : o ∈ left) :
    safe s (performWrite i j o s) := by
  obtain ⟨hi, hleft, hf⟩ := Job.phaseOk_write h.phaseOk hp
  have hwf := h.wf
  have ho64 : o < 64 := by
    simp only [leftOk, Bool.and_eq_true, List.all_eq_true, decide_eq_true_eq] at hleft
    exact hleft.1 o ho
  unfold performWrite
  split
  · cases i with
    | std | stdInc | run => exact safe_of_endsFrom hwf (failStore_ends hf)
    | _ => simp at hi
  · have hwrote : j.wrote o s.dirty.length = { j with phase := .write (left.erase o) s.dirty.length } := by
      simp only [Job.wrote, hp]
    rw [hwrote]
    refine h.inv_setJob rfl ?_ rfl rfl rfl rfl (Memory.wf_write _ (by simp; omega) hwf)
    exact (Job.phaseOk_congr _ i rfl rfl rfl rfl rfl rfl rfl).trans
      (Job.phaseOk_setWrite h.phaseOk hp (leftOk_erase o hleft))

theorem InFlight.settleLate (seen : Nat) : InFlight i j (s.settleLate i seen) :=
  ⟨State.inv_settleLate i seen h.inv, by simpa using h.job, h.decodes⟩

theorem InFlight.safe_answerCommand (a : Access) : safe s (answerCommand i j a s) := by
  unfold answerCommand
  split
  case isFalse => exact h.inv
  case isTrue hiss =>
    cases hp : j.phase with
    | start => simp [Job.issued, hp] at hiss
    | read key msg =>
      cases a with
      | digest o => simp [Job.issued, hp] at hiss
      | key o =>
        simp only [Job.issued, hp, Bool.and_eq_true, Bool.not_eq_true'] at hiss
        simp only [perform]
        split
        · exact h.safe_failRead hp
        · exact h.inv_gotKey _ hp hiss.1.1 hiss.1.2 hiss.2
      | msg o =>
        simp only [Job.issued, hp, Bool.and_eq_true, Bool.not_eq_true'] at hiss
        simp only [perform]
        split
        · exact h.safe_failRead hp
        · exact h.inv_gotMsg _ hp hiss.1.1 hiss.1.2 hiss.2
    | write left seen =>
      cases a with
      | key o | msg o => simp [Job.issued, hp] at hiss
      | digest o =>
        simp only [Job.issued, hp, List.contains_iff_mem] at hiss
        exact safe_congr (s.settleLate_platform i j.seen) ((h.settleLate j.seen).safe_performWrite hp hiss)

end

/-! ### The steps of the machine -/

theorem safe_self {s : State} (h : s.inv = true) : safe s (.next s) := h

theorem wf_of_inv {s : State} (h : s.inv = true) : Memory.wf s.mem = true := ((State.inv_iff s).1 h).1

theorem safe_tick {s : State} (h : s.inv = true) : safe s (tick s) := by
  unfold tick
  cases hj : s.job with
  | none => exact safe_self h
  | some j =>
    dsimp only
    cases hd : decode j.word with
    | command i => exact InFlight.safe_tickCommand ⟨h, hj, hd⟩
    | illegal w => exact safe_raise .illegal (wf_of_inv h)

theorem safe_answer {s : State} (a : Access) (h : s.inv = true) : safe s (answer a s) := by
  unfold answer
  cases hj : s.job with
  | none => exact safe_self h
  | some j =>
    dsimp only
    cases hd : decode j.word with
    | command i => exact InFlight.safe_answerCommand ⟨h, hj, hd⟩ a
    | illegal w => exact safe_self h

theorem safe_runWord {s : State} (c : Word) (h : s.inv = true) : safe s (runWord c s) := by
  unfold runWord
  cases decode c with
  | command i => exact safe_exec i (wf_of_inv h)
  | illegal w => exact safe_raise .illegal (wf_of_inv h)

theorem safe_advance {s : State} {j : Job} (h : s.inv = true) (hj : s.job = some j) : safe s (advance j s) := by
  unfold advance
  cases hd : decode j.word with
  | illegal w => exact safe_raise .illegal (wf_of_inv h)
  | command i =>
    have hfl : InFlight i j s := ⟨h, hj, hd⟩
    dsimp only
    cases j.nextAccess i with
    | some a => exact hfl.safe_answerCommand a
    | none => exact hfl.safe_tickCommand

theorem safe_coreStep {s : State} (h : s.inv = true) : safe s (coreStep s) := by
  unfold coreStep
  cases hj : s.job with
  | none => exact safe_self h
  | some j =>
    dsimp only
    cases j.phase with
    | start => exact safe_runWord j.word h
    | read key msg | write left seen => exact safe_advance h hj

/-! ### The outside world -/

/-- What a reset finds of a digest write: nothing, races on its range alone, or the write cut short. -/
inductive Abandoned (s : State) : Prop
  | untouched (h : s.abandon = s)
  | settled (h : s.abandon = s.settleDigest)
  | cut {i : Instr} {j : Job} {left : List Nat} {seen : Nat} (hj : s.job = some j) (hd : decode j.word = .command i)
      (hp : j.phase = .write left seen) (h : s.abandon = (s.settleLate i seen).cutDigest)

theorem abandoned (s : State) : Abandoned s := by
  cases hj : s.job with
  | none => exact .untouched (by simp only [State.abandon, hj])
  | some j =>
    cases hd : decode j.word with
    | illegal w => exact .untouched (by simp only [State.abandon, hj, hd])
    | command i =>
      cases i with
      | std | stdInc | run =>
        cases hp : j.phase with
        | start | read key msg => exact .settled (by simp only [State.abandon, hj, hd, hp])
        | write left seen => exact .cut hj hd hp (by simp only [State.abandon, hj, hd, hp, State.settleLate])
      | _ => exact .untouched (by simp only [State.abandon, hj, hd])

/-- What a reset leaves of memory is canonical: the digest write it may cut short was admitted. -/
theorem wf_abandon {s : State} (h : s.inv = true) : Memory.wf s.abandon.mem = true := by
  have hwf := wf_of_inv h
  obtain heq | heq | @⟨i, j, left, seen, hj, hd, hp, heq⟩ := abandoned s <;> rw [heq]
  · exact hwf
  · exact State.settleDigest_mem_wf s hwf
  · obtain ⟨-, -, hfits⟩ := Job.phaseOk_write (InFlight.phaseOk ⟨h, hj, hd⟩) hp
    refine wf_cutDigest ?_ (by simpa using hwf)
    rwa [State.digestRange_congr (s := s) (by simp)]

theorem inv_resetCore {s : State} (h : s.inv = true) : (resetCore s).inv = true :=
  State.inv_of_idle (wf_abandon h) (by simp [resetCore]) rfl rfl rfl

theorem inv_accept {s : State} (h : s.inv = true) (c : Word) : (s.accept c).inv = true := by
  refine (State.inv_iff _).2 ⟨by simpa using wf_of_inv h, by simp, ?_⟩
  have hok : (⟨c, 0, 0, .start⟩ : Job).ok (s.accept c) = true := by
    unfold Job.ok
    cases decode c with
    | illegal w => simp
    | command i => cases i <;> simp [Job.phaseOk]
  simp [State.jobInv, hok]

/-- A host write to a plain register reaches the pointers and lengths of an idle core alone. -/
theorem inv_setReg {s : State} (h : s.inv = true) (hb : s.busy = false) (r : Reg) (v : Word) :
    (s.setReg r v).inv = true := by
  obtain ⟨hj, hd⟩ := State.inv_idle h hb
  obtain ⟨hwf, herr, -⟩ := (State.inv_iff s).1 h
  cases r <;> exact State.inv_of_idle hwf herr hb hj hd

/-- A host read moves the port's answer and the draws alone. -/
theorem hostRead_eq (addr size : Nat) (s : State) :
    ∃ w f, hostRead addr size s = { s with rdata := w, free := f } := by
  unfold hostRead readOffset
  split_ifs
  · split
    · split_ifs
      · exact ⟨_, _, rfl⟩
      · exact ⟨_, s.free, rfl⟩
    · exact ⟨_, s.free, rfl⟩
  · exact ⟨_, _, rfl⟩
  · exact ⟨s.rdata, s.free, rfl⟩

/-- An idle core's registers other than CTRL, STATUS and CMD are plainly written, the read-only ones not at all. -/
theorem writeOffset_of_idle {s : State} {r : Reg} (v : Word) (hb : s.busy = false)
    (hr : r ∉ [Reg.ctrl, .status, .cmd]) : writeOffset r.offset v s = s.setReg r v := by
  unfold writeOffset
  rw [regAt_offset]
  cases r <;> simp [hb, State.setReg] at hr ⊢

/-- What a write at an aligned offset of the window does, by the state of the core (R32 to R57). -/
theorem writeOffset_cases {off : Nat} (v : Word) (s : State) (ha : off % 4 = 0) :
    writeOffset off v s = s ∨
    (off = 0x004 ∧ writeOffset off v s = writeCtrl v s) ∨
    (off = 0x008 ∧ writeOffset off v s = writeStatus v s) ∨
    (off = 0x00C ∧ s.busy = false ∧ writeOffset off v s = s.accept v) ∨
    (off ∉ [0x000, 0x004, 0x008] ∧ s.busy = true ∧ writeOffset off v s = s.lost) ∨
    (s.busy = false ∧ ∃ r, writeOffset off v s = s.setReg r v) := by
  by_cases hid : off = 0x000
  · subst hid; exact .inl rfl
  by_cases hctrl : off = 0x004
  · subst hctrl; exact .inr (.inl ⟨rfl, rfl⟩)
  by_cases hstatus : off = 0x008
  · subst hstatus; exact .inr (.inr (.inl ⟨rfl, rfl⟩))
  cases hb : s.busy with
  | true =>
    exact .inr (.inr (.inr (.inr (.inl ⟨by simp [hid, hctrl, hstatus], rfl,
      writeOffset_of_busy v hb ha hid hctrl hstatus⟩))))
  | false =>
    cases hr : regAt off with
    | none => exact .inl (by simp [writeOffset, hr, hb])
    | some r =>
      obtain rfl := offset_of_regAt ha hr
      cases r with
      | id => exact absurd rfl hid
      | ctrl => exact absurd rfl hctrl
      | status => exact absurd rfl hstatus
      | cmd => exact .inr (.inr (.inr (.inl ⟨rfl, rfl, by simp [writeOffset, hb]⟩)))
      | _ => exact .inr (.inr (.inr (.inr (.inr ⟨rfl, _, writeOffset_of_idle v hb (by simp)⟩))))

/-- What a host write on the bus does: nothing, or the effect of an aligned offset of the window. -/
theorem hostWrite_cases (addr size : Nat) (v : Word) (s : State) :
    hostWrite addr size v s = s ∨
    ∃ off < 0x200, off % 4 = 0 ∧ size = 4 ∧ addr = s.platform.mmioBase + off ∧
      hostWrite addr size v s = writeOffset off v s := by
  unfold hostWrite
  split
  case isFalse => exact .inl rfl
  case isTrue h =>
    simp only [State.inWindow, State.windowOffset, portAccess, Config.windowBytes_eq, Bool.and_eq_true,
      decide_eq_true_eq, beq_iff_eq] at h ⊢
    exact .inr ⟨addr - s.platform.mmioBase, by omega, h.2.2, h.2.1, by omega, rfl⟩

theorem inv_writeCtrl {s : State} (v : Word) (h : s.inv = true) : (writeCtrl v s).inv = true := by
  unfold writeCtrl
  split
  · exact inv_resetCore h
  · exact State.inv_congr h rfl rfl rfl rfl rfl rfl rfl rfl id rfl rfl rfl (wf_of_inv h) fun hd _ => hd

theorem inv_hostWrite {s : State} (addr size : Nat) (v : Word) (h : s.inv = true) :
    (hostWrite addr size v s).inv = true := by
  have hwf := wf_of_inv h
  obtain heq | ⟨off, -, ha, -, -, heq⟩ := hostWrite_cases addr size v s <;> rw [heq]
  · exact h
  obtain heq | ⟨-, heq⟩ | ⟨-, heq⟩ | ⟨-, -, heq⟩ | ⟨-, -, heq⟩ | ⟨hb, r, heq⟩ := writeOffset_cases v s ha <;> rw [heq]
  · exact h
  · exact inv_writeCtrl v h
  · exact State.inv_congr h rfl rfl rfl rfl rfl rfl rfl rfl (fun hd => by simp [writeStatus, hd]) rfl rfl rfl
      hwf fun hd _ => hd
  · exact inv_accept h v
  · exact State.inv_congr h rfl rfl rfl rfl rfl rfl rfl rfl id rfl rfl rfl hwf fun hd _ => hd
  · exact inv_setReg h hb r v

theorem inv_hostRead {s : State} (addr size : Nat) (h : s.inv = true) : (hostRead addr size s).inv = true := by
  obtain ⟨w, f, heq⟩ := hostRead_eq addr size s
  rw [heq]
  exact State.inv_congr h rfl rfl rfl rfl rfl rfl rfl rfl id rfl rfl rfl (wf_of_inv h) fun hd _ => hd

/-- A store of another agent is to a 32-bit address, and counts as a race in a busy period alone. -/
theorem inv_memWrite {s : State} (a : Word) (b : Byte) (h : s.inv = true) : (memWrite a b s).inv = true :=
  State.inv_congr h rfl rfl rfl rfl rfl rfl rfl rfl id rfl rfl rfl (Memory.wf_write b a.isLt (wf_of_inv h))
    fun hd hb => by simp [memWrite, hd, hb]

theorem inv_setErrorMap {s : State} (rd wr : List Region) (h : s.inv = true) : (setErrorMap rd wr s).inv = true :=
  State.inv_congr h rfl rfl rfl rfl rfl rfl rfl rfl id rfl rfl rfl (wf_of_inv h) fun hd _ => hd

theorem safe_handle {s : State} (e : Event) (h : s.inv = true) : safe s (handle e s) := by
  cases e with
  | hostWrite addr size v => exact inv_hostWrite addr size v h
  | hostRead addr size => exact inv_hostRead addr size h
  | hardReset => exact inv_resetCore h
  | memWrite a b => exact inv_memWrite a b h
  | errorMap rd wr => exact inv_setErrorMap rd wr h
  | tick => exact safe_tick h
  | answer a => exact safe_answer a h
  | core => exact safe_coreStep h

theorem safe_step {s : State} (h : s.inv = true) : safe s (step s) := by
  unfold step stepEvent
  split
  · exact safe_coreStep h
  · refine safe_congr (u := { s with inputs := _ }) rfl (safe_handle _ ?_)
    exact State.inv_congr h rfl rfl rfl rfl rfl rfl rfl rfl id rfl rfl rfl (wf_of_inv h) fun hd _ => hd

end Sys2Proof.Claims
end

section
/-! The statements about the invariant of every step (spec/10_state.md R37, R40, R60). -/

namespace Sys2Proof.Claims

open Sys2Proof.Machine

/-- Settles O52: the machine's step is an input or the sequencer's move, and `safe` holds of each. -/
theorem stepKeepsInvariant : Obligations.StepKeepsInvariant := by
  intro s t hinv hstep
  have hsafe := safe_step hinv
  rwa [hstep] at hsafe

/-- Settles O54, by the same walk. -/
theorem noStepStopsTheCore : Obligations.NoStepStopsTheCore := by
  intro s hinv
  have hsafe := safe_step hinv
  refine ⟨fun f hf => ?_, fun q hq => ?_⟩
  · rwa [hf] at hsafe
  · rwa [hq] at hsafe

/-- Settles O53: State.reset is idle, with empty memory and ERR 0. -/
theorem resetMeetsInvariant : Obligations.ResetMeetsInvariant :=
  State.inv_of_idle rfl (by decide) rfl rfl rfl

end Sys2Proof.Claims
end

section
/-!
SUPPORT. The checks of the commands (spec/43_driver.md R201, 60_exceptions.md R246, 20_memory.md R87), said once: what the
vetting of a command's ranges makes of it, and which memory a command that fails a check leaves.
-/

namespace Sys2Proof.Claims

open Sys2Proof.Machine

/-- The state a command that fails a check is completed from: what other agents wrote where STD or RUN would have put its
digest is settled (log 8). -/
def checked (i : Instr) (s : State) : State := if i ∈ [Instr.std, .stdInc, .run] then s.settleDigest else s

/-- What vetting with answer `a` makes of a command: RANGE from the state `past`, the refusal, or an end of its own. -/
structure VettedAs (a : Admission) (past : State) (o : Host.Outcome State Fault Refusal) : Prop where
  pastTop : a = .pastTop → o = raise .range past
  device : a = .device → o = .refused .sideEffectBuffer
  clear : a = .clear → ∃ e u, o = raise e u

/-- The four cases that LDK, LDM, STD and BLK share. -/
theorem vettedAs_of_cases {o : Host.Outcome State Fault Refusal} {a : Admission} {fails : Bool}
    {past failed succeeded : State}
    (h : (a = .pastTop ∧ o = raise .range past) ∨ (a = .device ∧ o = .refused .sideEffectBuffer) ∨
      (a = .clear ∧ fails = true ∧ o = raise .bus failed) ∨ (a = .clear ∧ fails = false ∧ o = finish succeeded)) :
    VettedAs a past o := by
  obtain ⟨rfl, rfl⟩ | ⟨rfl, rfl⟩ | ⟨rfl, -, rfl⟩ | ⟨rfl, -, rfl⟩ := h
  · exact ⟨fun _ => rfl, nofun, nofun⟩
  · exact ⟨nofun, fun _ => rfl, nofun⟩
  · exact ⟨nofun, nofun, fun _ => ⟨.bus, failed, rfl⟩⟩
  · exact ⟨nofun, nofun, fun _ => ⟨.ok, succeeded, rfl⟩⟩

theorem execRun_vettedAs {s : State} (hl : lengthsOk s) : VettedAs (s.vet s.runRanges) s.settleDigest (execRun s) := by
  have hnone : s.checkLengths = none := (lengthsOk_iff s).2 hl
  obtain ⟨e, he, -⟩ | ⟨-, hv, h⟩ | ⟨-, hv, h⟩ | ⟨-, hv, -, h⟩ | ⟨-, hv, -, h⟩ := execRun_cases s
  · simp [hnone] at he
  all_goals rw [hv, h]
  · exact ⟨fun _ => rfl, nofun, nofun⟩
  · exact ⟨nofun, fun _ => rfl, nofun⟩
  · exact ⟨nofun, nofun, fun _ => ⟨.bus, _, rfl⟩⟩
  · refine ⟨nofun, nofun, fun _ => ?_⟩
    unfold storeRun
    split
    · exact ⟨.bus, _, rfl⟩
    · exact ⟨.ok, _, rfl⟩

/-- Past RUN's length checks, the vetting of its ranges decides how a command ends. -/
theorem exec_vettedAs (i : Instr) {s : State} (hl : i = .run → lengthsOk s) :
    VettedAs (s.vet (ranges i s)) (checked i s) (exec i s) := by
  rw [exec_eq]
  cases i with
  | nop | clracc | add32 | mix | acc64 => exact ⟨nofun, nofun, fun _ => ⟨.ok, _, rfl⟩⟩
  | ldk | ldkInc => exact vettedAs_of_cases (loadKey_cases _ s)
  | ldm | ldmInc => exact vettedAs_of_cases (loadMsg_cases _ s)
  | std | stdInc => exact vettedAs_of_cases (storeDigest_cases _ s)
  | blk | blkInc => exact vettedAs_of_cases (oneBlock_cases _ s)
  | run => exact execRun_vettedAs (hl rfl)

/-! ### Rejection -/

/-- A command completed from its checked state is rejected in the words of the statements. -/
theorem rejected_of_checked {i : Instr} {s : State} {e : ErrCode} {code : Nat} (hc : e.code = BitVec.ofNat 4 code)
    (h : exec i s = raise e (checked i s)) : rejected i s code := by
  unfold checked at h
  split at h
  case isTrue hi =>
    refine ⟨s.settleDigest.mem, s.settleDigest.free, ?_, onlyRaced_settleDigest s, fun hq => ?_⟩
    · rw [h, State.settleDigest_frame, raise, State.complete, hc]
      rfl
    · rw [settleDigest_of_quiet (hq.resolve_left (not_not_intro hi))]
      exact ⟨rfl, rfl⟩
  case isFalse hi =>
    exact ⟨s.mem, s.free, by rw [h, raise, State.complete, hc]; rfl, fun _ _ => rfl, fun _ => ⟨rfl, rfl⟩⟩

/-- A rejected command that writes no digest changes nothing but STATUS. -/
theorem exec_of_rejected {i : Instr} {s : State} {code : Nat} (hi : i ∉ [Instr.std, .stdInc, .run])
    (h : rejected i s code) : exec i s = .next (ended s code) := by
  obtain ⟨m, f, hexec, -, hsame⟩ := h
  obtain ⟨rfl, rfl⟩ := hsame (.inl hi)
  exact hexec

/-- A range that passes the top rejects its command with RANGE (R246). -/
theorem rejected_of_pastTop {i : Instr} {s : State} (hl : i = .run → lengthsOk s)
    (h : ∃ r ∈ ranges i s, r.base + r.len > 2 ^ 32) : rejected i s 5 :=
  rejected_of_checked (e := .range) rfl ((exec_vettedAs i hl).pastTop ((State.admit_eq_pastTop_iff s _).2 h))

/-- A length check of RUN that fails rejects it with its code (R201). -/
theorem rejected_of_checkLengths {s : State} {e : ErrCode} {code : Nat} (hc : e.code = BitVec.ofNat 4 code)
    (h : s.checkLengths = some e) : rejected .run s code :=
  rejected_of_checked hc (by simp only [exec, execRun, h]; rfl)

end Sys2Proof.Claims
end

section
/-! The statements about failed checks, refusals and ends (spec/60_exceptions.md R240 to R250, 43_driver.md R201). -/

namespace Sys2Proof.Claims

open Sys2Proof.Machine

/-- Settles O19: RANGE is what vetting makes of such a range, before any access. -/
theorem rangeErrorTouchesNothing : Obligations.RangeErrorTouchesNothing := fun _ _ => rejected_of_pastTop

/-- Settles O17: the first check of R201 that fails decides the code; the ranges are vetted once the lengths pass. -/
theorem runChecksInOrder : Obligations.RunChecksInOrder := by
  intro s
  have hzero : s.mlen = 0 ↔ s.mlen.toNat = 0 := by rw [← BitVec.toNat_inj]; rfl
  have heq : s.klen = s.mlen ↔ s.klen.toNat = s.mlen.toNat := BitVec.toNat_inj.symm
  refine ⟨fun h0 => ?_, fun h0 h1 => ?_, fun h0 h1 h2 => ?_, fun h0 h1 h2 hrange => ?_⟩
  · exact rejected_of_checkLengths (e := .empty) rfl (by simp only [State.checkLengths, hzero, h0, if_true])
  · exact rejected_of_checkLengths (e := .lenMismatch) rfl
      (by simp only [State.checkLengths, hzero, h0, ne_eq, heq, h1, not_false_eq_true, if_true, if_false])
  · exact rejected_of_checkLengths (e := .unaligned) rfl
      (by simp only [State.checkLengths, hzero, h0, ne_eq, heq, h1, Config.blockBytes_eq, h2, not_true_eq_false,
        not_false_eq_true, if_true, if_false])
  · refine rejected_of_pastTop (fun _ => ⟨mt hzero.1 h0, heq.2 h1, h2⟩) ?_
    simpa [ranges] using hrange

/-- Settles O21: where every range fits, vetting answers `device` exactly when one of them meets a device region. -/
theorem deviceBufferIsRefused : Obligations.DeviceBufferIsRefused := by
  intro i s hl hfits
  have hv := exec_vettedAs i hl
  have hdevice : s.vet (ranges i s) = .device ↔ ∃ r ∈ ranges i s, ¬apart s.platform.device r := by
    refine (State.admit_eq_device_iff s _).trans ((and_iff_right hfits).trans ?_)
    simp only [apart_iff, Bool.not_eq_false]
    rfl
  rw [← hdevice]
  refine ⟨fun hrefused => ?_, hv.device⟩
  cases ha : s.vet (ranges i s) with
  | device => rfl
  | pastTop => cases hrefused.symm.trans (hv.pastTop ha)
  | clear =>
    obtain ⟨e, u, hend⟩ := hv.clear ha
    cases hrefused.symm.trans hend

/-- Settles O22: a command ends by completion or with the refusal, and the refusal needs a device region. -/
theorem everyCommandEnds : Obligations.EveryCommandEnds := by
  intro i s
  obtain ⟨e, u, h, -⟩ | ⟨h, rs, hvet⟩ := exec_ends i s <;> rw [h]
  · exact ⟨fun _ => ⟨u.complete e, rfl⟩, nofun, nofun⟩
  · exact ⟨fun hnil => absurd hnil (device_ne_nil_of_vet hvet), nofun, fun q hq => (Host.Outcome.refused.inj hq).symm⟩

/-- Settles O23: a next state of a command is `complete` of one in which IE is as before. -/
theorem everyEndIsACompletion : Obligations.EveryEndIsACompletion := by
  intro i s t h
  obtain ⟨e, u, rfl, hkept⟩ := exec_next h
  exact ⟨rfl, rfl, rfl, by simp [State.irq, hkept.ie], e.code_le⟩

end Sys2Proof.Claims
end

section
/-! The statements about what a command leaves alone (spec/30_encoding.md R115, R116, 20_memory.md R82). -/

namespace Sys2Proof.Claims

open Sys2Proof.Machine

theorem complete_err_ne_zero_iff {u : State} {e : ErrCode} : (u.complete e).err ≠ 0 ↔ e ≠ .ok :=
  not_congr (code_eq_zero_iff e)

/-- Settles O26: each meaning, where it answers, names the fields it changes. -/
theorem commandsWriteOnlyTheirOperands : Obligations.CommandsWriteOnlyTheirOperands := by
  intro i s t h
  rw [exec_eq] at h
  cases i with
  | nop | clracc | add32 | mix | acc64 =>
    obtain rfl := Host.Outcome.next.inj h
    simp
  | ldk | ldkInc =>
    obtain ⟨e, kb, f, k, rfl, hplain, herr⟩ := loadKey_next h
    rw [complete_err_ne_zero_iff]
    simpa using And.intro hplain herr
  | ldm | ldmInc =>
    obtain ⟨e, mb, f, k, rfl, hplain, herr⟩ := loadMsg_next h
    rw [complete_err_ne_zero_iff]
    simpa using And.intro hplain herr
  | std | stdInc =>
    obtain ⟨e, m, f, k, rfl, hplain, herr, -, -⟩ := storeDigest_next h
    rw [complete_err_ne_zero_iff]
    simpa using And.intro hplain herr
  | blk | blkInc =>
    obtain ⟨e, kb, mb, xb, zb, acc, f, k, m, rfl, hplain, herr⟩ := oneBlock_next h
    rw [complete_err_ne_zero_iff]
    simpa [and_assoc] using And.intro hplain herr
  | run =>
    obtain ⟨e, kb, mb, xb, zb, acc, m, n, f, rfl, -, -⟩ := execRun_next h
    simp

/-- Settles O27: of the meanings that answer, those of STD and RUN alone change memory, and before an access of their own
they only settle races. -/
theorem onlyTheDigestIsWritten : Obligations.OnlyTheDigestIsWritten := by
  intro i s t h
  rw [exec_eq] at h
  have herr : ∀ {u : State} {e : ErrCode}, (u.complete e).err ≠ 6 ↔ e ≠ .bus := not_congr (code_eq_six_iff _)
  cases i with
  | nop | clracc | add32 | mix | acc64 =>
    obtain rfl := Host.Outcome.next.inj h
    exact ⟨fun _ => rfl, by simp, fun _ _ => ⟨fun _ _ => rfl, fun _ => rfl⟩⟩
  | ldk | ldkInc =>
    obtain ⟨e, kb, f, k, rfl, -, -⟩ := loadKey_next h
    exact ⟨fun _ => rfl, by simp, fun _ _ => ⟨fun _ _ => rfl, fun _ => rfl⟩⟩
  | ldm | ldmInc =>
    obtain ⟨e, mb, f, k, rfl, -, -⟩ := loadMsg_next h
    exact ⟨fun _ => rfl, by simp, fun _ _ => ⟨fun _ _ => rfl, fun _ => rfl⟩⟩
  | blk | blkInc =>
    obtain ⟨e, kb, mb, xb, zb, acc, f, k, m, rfl, -, -⟩ := oneBlock_next h
    exact ⟨fun _ => rfl, by simp, fun _ _ => ⟨fun _ _ => rfl, fun _ => rfl⟩⟩
  | std | stdInc =>
    obtain ⟨e, m, f, k, rfl, -, -, hchecks, hout⟩ := storeDigest_next h
    exact ⟨by simp, fun _ => hout, fun h0 h6 => hchecks (complete_err_ne_zero_iff.1 h0) (herr.1 h6)⟩
  | run =>
    obtain ⟨e, kb, mb, xb, zb, acc, m, n, f, rfl, hchecks, hout⟩ := execRun_next h
    exact ⟨by simp, fun _ => hout, fun h0 h6 => hchecks (complete_err_ne_zero_iff.1 h0) (herr.1 h6)⟩

end Sys2Proof.Claims
end

section
/-! The statements about the single commands (spec/40_codec.md, 41_mixer.md, 42_adders.md, 43_driver.md §1, §4). -/

namespace Sys2Proof.Claims

open Sys2Proof.Machine

/-- Settles O8: NOP is a completion. -/
theorem nopOnlyCompletes : Obligations.NopOnlyCompletes := fun s => (exec_eq .nop s).trans (finish_eq_ended s)

/-- Settles O9: CLRACC is the completion of the state with ACC cleared. -/
theorem clraccClearsAccumulator : Obligations.ClraccClearsAccumulator := fun s =>
  (exec_eq .clracc s).trans (finish_eq_ended s.clearACC)

/-- Settles O10: XB is the lane-wise sum of the model's adder. -/
theorem add32CombinesBlocks : Obligations.Add32CombinesBlocks := fun s =>
  ⟨addBlocks s.kb s.mb, (exec_eq .add32 s).trans (finish_eq_ended s.addKM), isSum32_addBlocks s.kb s.mb⟩

/-- Settles O12: the tables of R160 and R161 agree with the index form of R165. -/
theorem mixAppliesF128 : Obligations.MixAppliesF128 := fun s =>
  ⟨f128 s.xb, (exec_eq .mix s).trans (finish_eq_ended s.mixXB), isMix_f128 s.xb⟩

/-- Settles O28: none of the five meanings reads memory or the platform, and both are the answered state's. -/
theorem registerCommandsReadNoMemory : Obligations.RegisterCommandsReadNoMemory := by
  intro i s t m p hi h
  rw [exec_eq] at h ⊢
  simp only [List.mem_cons, List.not_mem_nil, or_false] at hi
  obtain rfl | rfl | rfl | rfl | rfl := hi <;> obtain rfl := Host.Outcome.next.inj h <;> rfl

/-! ### The commands that read one block -/

/-- A range whose base lies above the last place passes the top. -/
theorem pastTop_of_lt {p : Word} {n : Nat} (h : 2 ^ 32 - n < p.toNat) : (⟨p.toNat, n⟩ : Region).base + n > 2 ^ 32 := by
  show p.toNat + n > 2 ^ 32
  omega

/-- The end of LDK where no other agent wrote the key block. -/
theorem endLoadKey_of_quiet {inc : Bool} {s u : State} (hq : quiet s (s.keyRange 32)) (hd : u.dirty = s.dirty)
    (hk : u.kptr = s.kptr) :
    endLoadKey inc u = .next (ended { u with kptr := if inc then u.kptr + 32 else u.kptr } 0) := by
  have hraced : u.raced (u.keyRange 32) = false := by
    rw [State.raced_congr hd, State.keyRange_congr hk]
    exact (quiet_iff _ _).1 hq
  rw [endLoadKey_eq, State.settleKey_of_unraced hraced]

/-- The end of LDM where no other agent wrote the message block. -/
theorem endLoadMsg_of_quiet {inc : Bool} {s u : State} (hq : quiet s (s.msgRange 32)) (hd : u.dirty = s.dirty)
    (hm : u.mptr = s.mptr) :
    endLoadMsg inc u = .next (ended { u with mptr := if inc then u.mptr + 32 else u.mptr } 0) := by
  have hraced : u.raced (u.msgRange 32) = false := by
    rw [State.raced_congr hd, State.msgRange_congr hm]
    exact (quiet_iff _ _).1 hq
  rw [endLoadMsg_eq, State.settleMsg_of_unraced hraced]

/-- The end of BLK where no other agent wrote its blocks. -/
theorem endBlock_of_quiet {inc : Bool} {s u : State} (hqk : quiet s (s.keyRange 32)) (hqm : quiet s (s.msgRange 32))
    (hd : u.dirty = s.dirty) (hk : u.kptr = s.kptr) (hm : u.mptr = s.mptr) :
    endBlock inc u = .next (ended
      { u with kptr := if inc then u.kptr + 32 else u.kptr, mptr := if inc then u.mptr + 32 else u.mptr } 0) := by
  have hkey : u.raced (u.keyRange 32) = false := by
    rw [State.raced_congr hd, State.keyRange_congr hk]
    exact (quiet_iff _ _).1 hqk
  have hmsg : u.raced (u.msgRange 32) = false := by
    rw [State.raced_congr hd, State.msgRange_congr hm]
    exact (quiet_iff _ _).1 hqm
  rw [endBlock_eq, State.settleBlock_of_unraced hkey hmsg]

/-- The end of STD where no other agent wrote the digest range. -/
theorem endStore_of_quiet {inc : Bool} {s : State} (hq : quiet s s.digestRange) :
    endStore inc s = .next (ended
      { s with mem := s.putDigest.mem, dptr := if inc then s.dptr + 64 else s.dptr } 0) := by
  rw [endStore_eq, State.putDigest_of_unraced ((quiet_iff _ _).1 hq)]

/-- Settles O13: RANGE by vetting, BUS by the port's error, and else the block at KPTR, parsed. -/
theorem loadKeyBlock : Obligations.LoadKeyBlock := by
  intro i s hi
  refine ⟨fun htop => ?_, fun ho hr => loadKey_fails hi ho hr, fun ho hr hq => ?_⟩
  · refine exec_of_rejected ?_ (rejected_of_pastTop ?_ ⟨⟨s.kptr.toNat, 32⟩, ?_, pastTop_of_lt htop⟩) <;>
      obtain rfl | rfl := hi <;> simp [ranges]
  · rw [exec_loadKey hi, loadKey_of_readsWell ho hr, endLoadKey_of_quiet hq (by simp) (by simp)]
    simp only [decide_eq_true_eq]
    exact ⟨_, rfl, isBlock_parse _ _⟩

/-- Settles O14, as LDK with the message in the key's place. -/
theorem loadMessageBlock : Obligations.LoadMessageBlock := by
  intro i s hi
  refine ⟨fun htop => ?_, fun ho hr => loadMsg_fails hi ho hr, fun ho hr hq => ?_⟩
  · refine exec_of_rejected ?_ (rejected_of_pastTop ?_ ⟨⟨s.mptr.toNat, 32⟩, ?_, pastTop_of_lt htop⟩) <;>
      obtain rfl | rfl := hi <;> simp [ranges]
  · rw [exec_loadMsg hi, loadMsg_of_readsWell ho hr, endLoadMsg_of_quiet hq (by simp) (by simp)]
    simp only [decide_eq_true_eq]
    exact ⟨_, rfl, isBlock_parse _ _⟩

/-- Byte `8l + j` of a digest, as a number. -/
theorem serializeWords_byte_toNat (w : Lanes DWord) (l j : Fin 8) :
    ((serializeWords w).getD (8 * l.val + j.val) 0).toNat = (w.get l).toNat / 256 ^ j.val % 256 := by
  rw [serializeWords_getD, byteOf_toNat]

/-- Settles O15: RANGE by vetting, each byte old or new on an error, and else the digest of ACC at DPTR. -/
theorem storeDigest : Obligations.StoreDigest := by
  intro i s hi hwf
  refine ⟨fun htop => ?_, fun ho hw => ?_, fun ho hw hq => ?_⟩
  · refine rejected_of_pastTop ?_ ⟨⟨s.dptr.toNat, 64⟩, ?_, pastTop_of_lt htop⟩ <;>
      obtain rfl | rfl := hi <;> simp [ranges]
  · obtain ⟨m, f, hend, hout, hbytes⟩ := storeDigest_fails hwf hi ho hw
    refine ⟨m, f, hend, hout, fun l j hd => ?_⟩
    have hl := l.isLt
    have hj := j.isLt
    rw [Nat.add_assoc] at hd ⊢
    rw [← serializeWords_byte_toNat]
    exact (hbytes _ (by omega) hd).imp_right (congrArg BitVec.toNat)
  · rw [exec_storeDigest hi, storeDigest_of_writesWell ho hw, endStore_of_quiet hq]
    simp only [decide_eq_true_eq]
    exact ⟨_, rfl, sameOutside_putDigest s,
      isDigest_of_bytes fun j hj => putDigest_byte hwf ho.1 hj (not_dirty_of_quiet hq hj)⟩

/-- Settles O16: RANGE by vetting, BUS by the port's error, and else one pass over the two blocks. -/
theorem blockStep : Obligations.BlockStep := by
  intro i s hi
  refine ⟨fun htop => ?_, fun hok hom hr => ?_, fun hok hom hrk hrm hqk hqm => ?_⟩
  · refine exec_of_rejected (by obtain rfl | rfl := hi <;> simp)
      (rejected_of_pastTop (by obtain rfl | rfl := hi <;> simp) ?_)
    rw [ranges_oneBlock hi]
    obtain hk | hm := htop
    · exact ⟨s.keyRange 32, by simp, pastTop_of_lt hk⟩
    · exact ⟨s.msgRange 32, by simp, pastTop_of_lt hm⟩
  · refine oneBlock_fails hi ?_ ?_ <;> rw [ranges_oneBlock hi]
    · simpa using ⟨hok, hom⟩
    · obtain hk | hm := not_and_or.1 hr
      · exact ⟨s.keyRange 32, by simp, hk⟩
      · exact ⟨s.msgRange 32, by simp, hm⟩
  · rw [exec_oneBlock hi, oneBlock_of_readsWell (by simpa using ⟨⟨hok, hrk⟩, hom, hrm⟩),
      endBlock_of_quiet hqk hqm (by simp) (by simp) (by simp), State.passBlock_eq]
    simp only [decide_eq_true_eq]
    exact ⟨_, _, _, _, _, rfl, isBlock_parse _ _, isBlock_parse _ _, isSum32_addBlocks _ _, isMix_f128 _,
      isSum64_accumulate _ _⟩

end Sys2Proof.Claims
end

section
/-! The statements about words, acceptance and the order of inputs (spec/30_encoding.md R112 to R120, 10_state.md R30). -/

namespace Sys2Proof.Claims

open Sys2Proof.Machine

/-! ### The legal words -/

/-- The legality formula leaves ten operation codes and, for four of them, the I bit (R114). -/
theorem legal_iff_mem_legalWords (c : Word) : legal c ↔ c ∈ legalWords := by
  have table : ∀ op ∈ [0, 1, 2, 3, 4, 5, 6, 7, 8, 16], ∀ inc ∈ [0, 1], inc = 0 ∨ op ∈ [2, 3, 7, 8] →
      BitVec.ofNat 32 (256 * inc + op) ∈ legalWords := by simp [legalWords]
  have rows : ∀ c ∈ legalWords, c.toNat / 512 = 0 ∧ c.toNat % 256 ∈ [0, 1, 2, 3, 4, 5, 6, 7, 8, 16] ∧
      (c.toNat / 256 % 2 = 0 ∨ c.toNat % 256 ∈ [2, 3, 7, 8]) := by simp [legalWords]
  refine ⟨fun ⟨hrsv, hop, hinc⟩ => ?_, rows c⟩
  have hc : c = BitVec.ofNat 32 (256 * (c.toNat / 256 % 2) + c.toNat % 256) := by
    refine BitVec.eq_of_toNat_eq ?_
    rw [BitVec.toNat_ofNat]
    omega
  rw [hc]
  exact table _ hop _ (by simp; omega) hinc

/-- The legal words are the commands' words (R112). -/
theorem mem_legalWords_iff (c : Word) : c ∈ legalWords ↔ ∃ i, c = encode i := by
  have rows : legalWords = Instr.all.map encode := by decide
  rw [rows, List.mem_map]
  refine ⟨fun ⟨i, _, hi⟩ => ⟨i, hi.symm⟩, fun ⟨i, hi⟩ => ⟨i, ?_, hi.symm⟩⟩
  cases i <;> decide

/-- A word that decodes to a command is legal (R120). -/
theorem legal_of_decode {c : Word} {i : Instr} (h : decode c = .command i) : legal c :=
  (legal_iff_mem_legalWords c).2 ((mem_legalWords_iff c).2 ⟨i, (decodeAndEncodeAgree c i).1 h⟩)

/-- With no input, a command of which nothing is executed is executed whole (log 14). -/
theorem step_of_start {s : State} {c : Word} (hin : s.inputs = []) (hj : s.job = some ⟨c, 0, 0, .start⟩) :
    step s = runWord c s := by
  simp [step, stepEvent, hin, coreStep, hj]

/-- Settles O4: the accepted word decodes to the command. -/
theorem stepRunsAcceptedCommand : Obligations.StepRunsAcceptedCommand := by
  intro s c i hin hj hd
  rw [step_of_start hin hj, runWord, hd]

/-- Settles O2: the legal words are those that decode to a command, and any other ends with ILLEGAL. -/
theorem wordIsExecutedOrIllegal : Obligations.WordIsExecutedOrIllegal := by
  intro s c hin
  have hstep : step (s.accept c) = runWord c (s.accept c) := step_of_start hin rfl
  refine ⟨legal_iff_mem_legalWords c, fun hlegal => ?_, fun hillegal => ?_⟩
  · obtain ⟨i, rfl⟩ := (mem_legalWords_iff c).1 ((legal_iff_mem_legalWords c).1 hlegal)
    refine ⟨i, rfl, ?_⟩
    rw [hstep, runWord, (decodeAndEncodeAgree _ i).2 rfl]
  · rw [hstep, runWord]
    cases hd : decode c with
    | command i => exact absurd (legal_of_decode hd) hillegal
    | illegal w => rfl

/-- Settles O3: the words of the map are computed, and those of V-E6 are no row's word. -/
theorem tableWordsDecode : Obligations.TableWordsDecode := by
  have illegal : ∀ c ∈ ([0x00000009, 0x0000000F, 0x00000011, 0x000000FF, 0x00000100, 0x00000101, 0x00000104,
      0x00000105, 0x00000106, 0x00000110, 0x00000200, 0x00000202, 0x80000010, 0xFFFFFFFF] : List Word),
      c ∉ legalWords := by simp [legalWords]
  refine ⟨rfl, rfl, rfl, rfl, rfl, rfl, rfl, rfl, rfl, rfl, rfl, rfl, rfl, rfl, fun c hc i hd => ?_⟩
  exact illegal c hc ((legal_iff_mem_legalWords c).1 (legal_of_decode hd))

/-- Settles O5: the step looks at the inputs first, and at the command in flight where there are none. -/
theorem stepTakesOldestInput : Obligations.StepTakesOldestInput := by
  intro s
  refine ⟨fun e rest h => ?_, fun hin hj => ?_⟩
  · simp [step, stepEvent, h, taken]
  · simp [step, stepEvent, hin, coreStep, hj]

/-- Settles O6: the write to CMD is an acceptance, and the accepted word is the command's. -/
theorem issuedCommandRuns : Obligations.IssuedCommandRuns := by
  intro s i hb hin
  have hwrite : hostWrites s 0x00C (encode i) [] := hin
  refine ⟨?_, ?_⟩
  · rw [step_writes_cmd hwrite, hb]
    rfl
  · exact stepRunsAcceptedCommand _ (encode i) i rfl rfl ((decodeAndEncodeAgree _ i).2 rfl)

end Sys2Proof.Claims
end

section
/-! The statements about the units (spec/40_codec.md R142, 41_mixer.md R164, 42_adders.md R185). -/

namespace Sys2Proof.Claims

open Sys2Proof.Machine

/-- Settles O31: each half of a digest is the layout of a block whose words are halves of the digest's. -/
theorem digestHalvesParse : Obligations.DigestHalvesParse := by
  intro w
  have low : (serializeWords w).take 32 = blockBytes ⟨lowHalf w.w0, highHalf w.w0, lowHalf w.w1, highHalf w.w1,
      lowHalf w.w2, highHalf w.w2, lowHalf w.w3, highHalf w.w3⟩ := by
    have bytes : (serializeWords w).take 32 = bytesOf w.w0 ++ bytesOf w.w1 ++ bytesOf w.w2 ++ bytesOf w.w3 := rfl
    rw [bytes]
    simp only [bytesOf_eq_halves, blockBytes, List.append_assoc]
  have high : (serializeWords w).drop 32 = blockBytes ⟨lowHalf w.w4, highHalf w.w4, lowHalf w.w5, highHalf w.w5,
      lowHalf w.w6, highHalf w.w6, lowHalf w.w7, highHalf w.w7⟩ := by
    have bytes : (serializeWords w).drop 32 = bytesOf w.w4 ++ bytesOf w.w5 ++ bytesOf w.w6 ++ bytesOf w.w7 := rfl
    rw [bytes]
    simp only [bytesOf_eq_halves, blockBytes, List.append_assoc]
  rw [low, high]
  exact ⟨parseBlock_blockBytes _, parseBlock_blockBytes _⟩

/-- The first four outputs of F-128 are products of one word of each half (R161). -/
theorem f128_get_low (x : Lanes Word) {l : Nat} (h : l < 4) :
    (f128 x).get (Fin.ofNat 8 l) = mulWide (x.get (Fin.ofNat 8 l)) (x.get (Fin.ofNat 8 (l + 4))) := by
  interval_cases l <;> rfl

/-- The last four outputs of F-128 are products of a sum of three words of each half (R160, R161). -/
theorem f128_get_high (x : Lanes Word) {l : Nat} (h : l < 4) :
    (f128 x).get (Fin.ofNat 8 (4 + l)) =
      mulWide (x.get (Fin.ofNat 8 l) + x.get (Fin.ofNat 8 ((l + 1) % 4)) + x.get (Fin.ofNat 8 ((l + 2) % 4)))
        (x.get (Fin.ofNat 8 (4 + (l + 1) % 4)) + x.get (Fin.ofNat 8 (4 + (l + 2) % 4))
          + x.get (Fin.ofNat 8 (4 + (l + 3) % 4))) := by
  interval_cases l <;> rfl

/-- Settles O32: the changed word is none of those the output is made of. -/
theorem mixerOutputsDependAsLaidOut : Obligations.MixerOutputsDependAsLaidOut := by
  intro x j l v hl
  have other : ∀ n < 8, n ≠ j.val → (x.set j v).get (Fin.ofNat 8 n) = x.get (Fin.ofNat 8 n) := fun n hn hne =>
    Lanes.get_set_other x j _ v (Fin.val_ne_iff.1 (by rw [Fin.val_ofNat]; omega))
  refine ⟨fun h h4 => ?_, fun h => ?_⟩
  · rw [← Fin.ofNat_val_eq_self l, f128_get_low _ hl, f128_get_low _ hl, other l.val (by omega) (by omega),
      other _ (by omega) (by omega)]
  · rw [f128_get_high _ hl, f128_get_high _ hl, other l.val (by omega) (by omega), other _ (by omega) (by omega),
      other _ (by omega) (by omega), other _ (by omega) (by omega), other _ (by omega) (by omega),
      other _ (by omega) (by omega)]

theorem accumulate_right_comm (a d e : Lanes DWord) :
    accumulate (accumulate a d) e = accumulate (accumulate a e) d :=
  Lanes.ext_get fun i => by simp only [accumulate_get, BitVec.add_assoc, BitVec.add_comm (d.get i)]

/-- Settles O33: two deltas may change places, so all may. -/
theorem accumulationOrderIsIrrelevant : Obligations.AccumulationOrderIsIrrelevant := by
  intro ds es a h
  have : RightCommutative accumulate := ⟨accumulate_right_comm⟩
  exact h.foldl_eq a

end Sys2Proof.Claims
end

section
/-!
SUPPORT. The plain registers of the window (spec/10_state.md R43 to R54), said once: what each reads as after a write to it
and to another.
-/

namespace Sys2Proof

theorem Lanes.get_set {α : Type} (l : Lanes α) (i j : Fin 8) (v : α) :
    (l.set i v).get j = if j = i then v else l.get j := by
  by_cases h : j = i
  · rw [h, if_pos rfl, Lanes.get_set_same]
  · rw [if_neg h, Lanes.get_set_other l i j v h]

/-- A write to a high half leaves every low half of the file. -/
@[simp] theorem lowHalf_get_set_setHigh (l : Lanes DWord) (i j : Fin 8) (x : Word) :
    lowHalf ((l.set i (setHigh (l.get i) x)).get j) = lowHalf (l.get j) := by
  rw [Lanes.get_set]
  split
  · subst j; exact lowHalf_setHigh _ _
  · rfl

/-- A write to a low half leaves every high half of the file. -/
@[simp] theorem highHalf_get_set_setLow (l : Lanes DWord) (i j : Fin 8) (x : Word) :
    highHalf ((l.set i (setLow (l.get i) x)).get j) = highHalf (l.get j) := by
  rw [Lanes.get_set]
  split
  · subst j; exact highHalf_setLow _ _
  · rfl

theorem setLow_toNat (v : DWord) (x : Word) : (setLow v x).toNat = v.toNat / 2 ^ 32 * 2 ^ 32 + x.toNat :=
  (append_toNat _ _).trans (by rw [highHalf_toNat])

theorem setHigh_toNat (v : DWord) (x : Word) : (setHigh v x).toNat = x.toNat * 2 ^ 32 + v.toNat % 2 ^ 32 :=
  (append_toNat _ _).trans (by rw [lowHalf_toNat])

namespace Claims

open Sys2Proof.Machine

/-- A plain register is read back as it was written. -/
theorem readReg_setReg_same {s : State} {r : Reg} (v : Word) (hr : r ∉ [Reg.id, .ctrl, .status, .cmd, .bcnt]) :
    (s.setReg r v).readReg r = v := by
  cases r <;> simp [State.setReg, State.readReg] at hr ⊢

/-- A write to a register leaves what every other register reads as. -/
theorem readReg_setReg_other {s : State} {r r' : Reg} (v : Word) (h : r' ≠ r) :
    (s.setReg r v).readReg r' = s.readReg r' := by
  cases r with
  | id | ctrl | status | cmd | bcnt => rfl
  | kptr | mptr | dptr | klen | mlen | kb i | mb i | xb i | zblo i | zbhi i | acclo i | acchi i =>
    cases r' <;> simp_all [State.setReg, State.readReg, State.ctrlWord, State.statusWord, Lanes.get_set_other]

/-- A host write to an idle core's register other than CTRL, STATUS and CMD. -/
theorem step_writes_reg {s : State} {v : Word} {rest : List Event} (r : Reg) (hb : s.busy = false)
    (hr : r ∉ [Reg.ctrl, .status, .cmd]) (h : hostWrites s r.offset v rest) :
    step s = .next ((taken s rest).setReg r v) := by
  rw [step_hostWrites h r.offset_lt r.offset_aligned, writeOffset_of_idle v (by simpa using hb) hr]

/-- A write to a register reaches none of the fields outside the window. -/
theorem setReg_frame (s : State) (r : Reg) (v : Word) :
    (s.setReg r v).mem = s.mem ∧ (s.setReg r v).job = s.job ∧ (s.setReg r v).platform = s.platform ∧
      (s.setReg r v).inputs = s.inputs ∧ (s.setReg r v).rdata = s.rdata ∧ (s.setReg r v).dirty = s.dirty ∧
      (s.setReg r v).free = s.free := by
  cases r <;> exact ⟨rfl, rfl, rfl, rfl, rfl, rfl, rfl⟩

end Claims

end Sys2Proof
end

section
/-! The statements about the register port of an idle core and the stores of other agents (spec/10_state.md, 20_memory.md R91). -/

namespace Sys2Proof.Claims

open Sys2Proof.Machine

/-- Settles O36: the map sends a register's offset to that register, and the rest of the window is reserved. -/
theorem windowMap : Obligations.WindowMap := by
  refine ⟨rfl, rfl, rfl, rfl, rfl, rfl, rfl, rfl, rfl, rfl, fun i => ?_, fun k => ?_⟩
  · exact ⟨regAt_offset (.kb i), regAt_offset (.mb i), regAt_offset (.xb i), regAt_offset (.zblo i),
      regAt_offset (.zbhi i), regAt_offset (.acclo i), regAt_offset (.acchi i)⟩
  · rw [regAt_eq_none_iff (by omega) (by omega)]
    omega

/-- Settles O40: an aligned offset is a register's or reserved, and the port answers both exactly while idle. -/
theorem idleReadsAreExact : Obligations.IdleReadsAreExact := by
  intro s rest hb
  have exact_read := fun r h => step_reads_reg (s := s) (rest := rest) r h (.inl hb)
  refine ⟨fun off ho ha h => ?_, fun p hp h => ?_, fun i => ?_⟩
  · cases hr : regAt off with
    | none => exact step_reads_reserved h ho ha hr
    | some r =>
      obtain rfl := offset_of_regAt ha hr
      exact exact_read r h
  · simp only [List.mem_cons, List.not_mem_nil, or_false] at hp
    obtain rfl | rfl | rfl | rfl | rfl | rfl | rfl := hp
    · exact exact_read .cmd h
    · exact exact_read .kptr h
    · exact exact_read .mptr h
    · exact exact_read .dptr h
    · exact exact_read .klen h
    · exact exact_read .mlen h
    · exact exact_read .bcnt h
  · exact ⟨exact_read (.kb i), exact_read (.mb i), exact_read (.xb i)⟩

/-- Settles O41: the port writes the register, and no other field. -/
theorem idleWriteIsReadBack : Obligations.IdleWriteIsReadBack := by
  intro s r v rest hb
  refine ⟨fun hr h => ?_, fun h => ?_, fun off ho ha hnone h => ?_⟩
  · have hport : r ∉ [Reg.ctrl, .status, .cmd] := fun hmem => hr (by simp at hmem ⊢; tauto)
    obtain ⟨hmem, hjob, hplatform, hinputs, hrdata, hdirty, hfree⟩ := setReg_frame (taken s rest) r v
    exact ⟨_, step_writes_reg r hb hport h, readReg_setReg_same v hr,
      fun r' hne => (readReg_setReg_other v hne).trans (taken_readReg s rest r'), hmem, hjob, hplatform, hinputs, hrdata,
      hdirty, hfree⟩
  · exact step_writes_reg .bcnt hb (by decide) h
  · rw [step_hostWrites h ho ha, writeOffset, hnone]
    simp [hb]

/-- Settles O42: the two registers at a 64-bit word's offsets are its halves. -/
theorem wideRegistersHaveTwoHalves : Obligations.WideRegistersHaveTwoHalves := by
  intro s i v rest hb
  refine ⟨fun h => ?_, fun h => ?_, fun h => ?_, fun h => ?_, fun h => ?_, fun h => ?_, fun h => ?_, fun h => ?_⟩
  · exact ⟨_, step_reads_reg (.zblo i) h (.inl hb), lowHalf_toNat _⟩
  · exact ⟨_, step_reads_reg (.zbhi i) h (.inl hb), highHalf_toNat _⟩
  · exact ⟨_, step_reads_reg (.acclo i) h (.inl hb), lowHalf_toNat _⟩
  · exact ⟨_, step_reads_reg (.acchi i) h (.inl hb), highHalf_toNat _⟩
  · exact ⟨_, step_writes_reg (.zblo i) hb (by simp) h, setLow_toNat _ v⟩
  · exact ⟨_, step_writes_reg (.zbhi i) hb (by simp) h, setHigh_toNat _ v⟩
  · exact ⟨_, step_writes_reg (.acclo i) hb (by simp) h, setLow_toNat _ v⟩
  · exact ⟨_, step_writes_reg (.acchi i) hb (by simp) h, setHigh_toNat _ v⟩

/-- Settles O46: one byte of memory is written, and its address joins the count of races while busy. -/
theorem otherStoresChangeOneByte : Obligations.OtherStoresChangeOneByte := by
  intro s a b rest hwf hin
  have hstep : step s = .next (memWrite a b (taken s rest)) := by
    simp only [step, stepEvent, hin, handle, taken]
  refine ⟨_, (memWrite a b (taken s rest)).dirty, hstep, Memory.read_write_same b hwf,
    fun x hx => Memory.read_write_other s.mem b hx, fun hb => ?_, fun hb x => ?_⟩
  · simp [memWrite, hb, taken]
  · by_cases hmem : a.toNat ∈ s.dirty
    · simpa [memWrite, hb, hmem, taken] using fun hx : x = a.toNat => hx ▸ hmem
    · simp [memWrite, hb, hmem, taken]

end Sys2Proof.Claims
end

section
/-!
SUPPORT. The flags over a step, said once: the sequencer's own moves keep IE and OVR, and leave DONE and BUSY alone or
complete (spec/60_exceptions.md R249); so does every input but the few host writes and the resets that R33 to R39 name.
-/

namespace Sys2Proof.Claims

open Sys2Proof.Machine

/-- State `t` has the flags of `s`, or those of a completion of it. -/
structure FlagsMoved (s t : State) : Prop where
  ie : t.ie = s.ie
  ovr : t.ovr = s.ovr
  status : t.done = true ∧ t.busy = false ∨ t.done = s.done ∧ t.busy = s.busy

theorem FlagsMoved.of_eq {s t : State} (hie : t.ie = s.ie) (hovr : t.ovr = s.ovr) (hdone : t.done = s.done)
    (hbusy : t.busy = s.busy) : FlagsMoved s t := ⟨hie, hovr, .inr ⟨hdone, hbusy⟩⟩

/-- Where the outcome is a next state, its flags have moved so. -/
def moved (s : State) (o : Host.Outcome State Fault Refusal) : Prop := ∀ t, o = .next t → FlagsMoved s t

theorem moved_next {s t : State} (h : FlagsMoved s t) : moved s (.next t) := by
  rintro _ ⟨⟩
  exact h

theorem moved_self (s : State) : moved s (.next s) := moved_next (.of_eq rfl rfl rfl rfl)

theorem moved_fault {s : State} (f : Fault) : moved s (.fault f) := by
  intro t h
  cases h

theorem moved_refused {s : State} (q : Refusal) : moved s (.refused q) := by
  intro t h
  cases h

theorem moved_raise {s u : State} (e : ErrCode) (hie : u.ie = s.ie) (hovr : u.ovr = s.ovr) : moved s (raise e u) :=
  moved_next ⟨hie, hovr, .inl ⟨rfl, rfl⟩⟩

theorem moved_of_endsFrom {s u : State} {o : Host.Outcome State Fault Refusal} (hie : u.ie = s.ie) (hovr : u.ovr = s.ovr)
    (h : endsFrom u o) : moved s o := by
  obtain ⟨e, v, rfl, hkept⟩ := h
  exact moved_raise e (hkept.ie.trans hie) (hkept.ovr.trans hovr)

theorem moved_exec (i : Instr) (s : State) : moved s (exec i s) := by
  intro t h
  obtain ⟨e, u, rfl, hkept⟩ := exec_next h
  exact ⟨hkept.ie, hkept.ovr, .inl ⟨rfl, rfl⟩⟩

@[simp] theorem putDigest_ie (s : State) : s.putDigest.ie = s.ie := by rw [State.putDigest_frame]
@[simp] theorem putDigest_ovr (s : State) : s.putDigest.ovr = s.ovr := by rw [State.putDigest_frame]
@[simp] theorem cutDigest_ie (s : State) : s.cutDigest.ie = s.ie := by rw [State.cutDigest_frame]
@[simp] theorem cutDigest_ovr (s : State) : s.cutDigest.ovr = s.ovr := by rw [State.cutDigest_frame]

/-! ### The sequencer -/

theorem moved_enter {s s' : State} (rs : List Region) (h : FlagsMoved s s') : moved s (enter rs s s') := by
  unfold enter
  split
  · exact moved_raise _ rfl rfl
  · exact moved_refused _
  · exact moved_next h

theorem moved_enterStore {s s' : State} (rs : List Region) (h : FlagsMoved s s') : moved s (enterStore rs s s') := by
  unfold enterStore
  split
  · exact moved_raise _ (by simp) (by simp)
  · exact moved_refused _
  · exact moved_next h

theorem moved_tickStart (i : Instr) (j : Job) (s : State) : moved s (tickStart i j s) := by
  unfold tickStart
  cases i with
  | nop | clracc | add32 | mix | acc64 => exact moved_exec _ s
  | ldk | ldkInc | ldm | ldmInc | blk | blkInc => exact moved_enter _ (.of_eq rfl rfl rfl rfl)
  | std | stdInc => exact moved_enterStore _ (.of_eq rfl rfl rfl rfl)
  | run =>
    cases s.checkLengths with
    | some e => exact moved_raise e (by simp) (by simp)
    | none => exact moved_enterStore _ (.of_eq rfl rfl rfl rfl)

theorem flagsMoved_nextBlock (j : Job) (key msg : List (Nat × Byte)) (s : State) :
    FlagsMoved s (nextBlock j key msg s) := by
  unfold nextBlock
  split
  · exact .of_eq rfl rfl rfl rfl
  · exact .of_eq (by simp [State.issueWrites]) (by simp [State.issueWrites]) (by simp [State.issueWrites])
      (by simp [State.issueWrites])

theorem moved_tickBlock (i : Instr) (j : Job) (key msg : List (Nat × Byte)) (s : State) :
    moved s (tickBlock i j key msg s) := by
  unfold tickBlock
  cases i with
  | nop | clracc | add32 | mix | acc64 | std | stdInc => exact moved_fault _
  | ldk | ldkInc => exact moved_of_endsFrom (by simp) (by simp) (endLoadKey_ends _ _)
  | ldm | ldmInc => exact moved_of_endsFrom (by simp) (by simp) (endLoadMsg_ends _ _)
  | blk | blkInc => exact moved_of_endsFrom (by simp) (by simp) (endBlock_ends _ _)
  | run =>
    refine moved_next ?_
    have h := flagsMoved_nextBlock j key msg ((s.foldBytes (j.blockBytes key) (j.blockBytes msg)).countBlock j.k)
    exact ⟨by simpa using h.ie, by simpa using h.ovr, by simpa using h.status⟩

theorem moved_tickStored (i : Instr) (seen : Nat) (s : State) : moved s (tickStored i (s.settleLate i seen)) := by
  unfold tickStored
  cases i with
  | std | stdInc | run => exact moved_raise .ok (by simp) (by simp)
  | _ => exact moved_fault _

theorem moved_tickCommand (i : Instr) (j : Job) (s : State) : moved s (tickCommand i j s) := by
  unfold tickCommand
  split
  · exact moved_tickStart i j s
  · split
    · exact moved_tickBlock i j _ _ s
    · exact moved_self s
  · split
    · exact moved_tickStored i _ s
    · exact moved_self s

theorem moved_failRead (i : Instr) (s : State) : moved s (failRead i s) := by
  unfold failRead
  cases i with
  | nop | clracc | add32 | mix | acc64 | std | stdInc => exact moved_fault _
  | ldk | ldkInc | ldm | ldmInc | blk | blkInc => exact moved_raise .bus rfl rfl
  | run => exact moved_raise .bus (by simp) (by simp)

theorem moved_performWrite {s u : State} (i : Instr) (j : Job) (o : Nat)
    (h : FlagsMoved s u) (hdone : u.done = s.done) (hbusy : u.busy = s.busy) : moved s (performWrite i j o u) := by
  unfold performWrite failWrite
  split
  · cases i with
    | std | stdInc | run => exact moved_raise .bus (by simpa using h.ie) (by simpa using h.ovr)
    | _ => exact moved_fault _
  · exact moved_next (.of_eq h.ie h.ovr hdone hbusy)

theorem moved_answerCommand (i : Instr) (j : Job) (a : Access) (s : State) : moved s (answerCommand i j a s) := by
  unfold answerCommand perform
  split
  · cases a with
    | digest o => exact moved_performWrite i j o (.of_eq (by simp) (by simp) (by simp) (by simp)) (by simp) (by simp)
    | key o | msg o =>
      dsimp only
      split
      · exact moved_failRead i s
      · exact moved_next (.of_eq rfl rfl rfl rfl)
  · exact moved_self s

theorem moved_tick (s : State) : moved s (tick s) := by
  unfold tick
  split
  · exact moved_self s
  · split
    · exact moved_tickCommand _ _ s
    · exact moved_raise .illegal rfl rfl

theorem moved_answer (a : Access) (s : State) : moved s (answer a s) := by
  unfold answer
  split
  · exact moved_self s
  · split
    · exact moved_answerCommand _ _ a s
    · exact moved_self s

theorem moved_coreStep (s : State) : moved s (coreStep s) := by
  unfold coreStep runWord advance
  split
  · exact moved_self s
  · split <;> split
    · exact moved_exec _ s
    · exact moved_raise .illegal rfl rfl
    · split
      · exact moved_answerCommand _ _ _ s
      · exact moved_tickCommand _ _ s
    · exact moved_raise .illegal rfl rfl
    · split
      · exact moved_answerCommand _ _ _ s
      · exact moved_tickCommand _ _ s
    · exact moved_raise .illegal rfl rfl

/-! ### The step -/

/-- What a step does to the flags: a reset, a host write to CTRL or STATUS, an acceptance, a lost write, or no more than the
sequencer's own moves. -/
inductive StepFlags (s t : State) : Prop
  | reset {rest : List Event} (h : resetNext s rest) (ht : t = resetCore (taken s rest))
  | ctrl {v : Word} {rest : List Event} (h : hostWrites s 0x004 v rest)
      (ht : t = { taken s rest with ie := v.getLsbD 0 })
  | status {v : Word} {rest : List Event} (h : hostWrites s 0x008 v rest) (ht : t = writeStatus v (taken s rest))
  | accept {v : Word} {rest : List Event} (h : hostWrites s 0x00C v rest) (hb : s.busy = false)
      (ht : t = (taken s rest).accept v)
  | lost {off : Nat} {v : Word} {rest : List Event} (h : hostWrites s off v rest) (ho : off < 0x200)
      (hn : off ∉ [0x000, 0x004, 0x008]) (hb : s.busy = true) (ht : t = (taken s rest).lost)
  | moved (h : FlagsMoved s t)

theorem stepFlags_of_hostWrite {s : State} {addr size : Nat} {v : Word} {rest : List Event}
    (hin : s.inputs = .hostWrite addr size v :: rest) : StepFlags s (hostWrite addr size v (taken s rest)) := by
  obtain heq | ⟨off, ho, ha, rfl, rfl, heq⟩ := hostWrite_cases addr size v (taken s rest) <;> rw [heq]
  · exact .moved (.of_eq rfl rfl rfl rfl)
  obtain heq | ⟨rfl, heq⟩ | ⟨rfl, heq⟩ | ⟨rfl, hb, heq⟩ | ⟨hn, hb, heq⟩ | ⟨-, r, heq⟩ :=
    writeOffset_cases v (taken s rest) ha <;> rw [heq]
  · exact .moved (.of_eq rfl rfl rfl rfl)
  · unfold writeCtrl
    split
    · exact .reset (.inr ⟨v, by assumption, hin⟩) rfl
    · exact .ctrl hin rfl
  · exact .status hin rfl
  · exact .accept hin hb rfl
  · exact .lost hin ho hn hb rfl
  · exact .moved (by cases r <;> exact .of_eq rfl rfl rfl rfl)

theorem step_flags {s t : State} (h : step s = .next t) : StepFlags s t := by
  unfold step stepEvent at h
  split at h
  · exact .moved (moved_coreStep s t h)
  · rename_i e rest hin
    cases e with
    | hostWrite addr size v =>
      obtain rfl := Host.Outcome.next.inj h
      exact stepFlags_of_hostWrite hin
    | hostRead addr size =>
      obtain rfl := Host.Outcome.next.inj h
      obtain ⟨w, f, heq⟩ := hostRead_eq addr size { s with inputs := rest }
      rw [heq]
      exact .moved (.of_eq rfl rfl rfl rfl)
    | hardReset =>
      obtain rfl := Host.Outcome.next.inj h
      exact .reset (.inl hin) rfl
    | memWrite a b | errorMap rd wr =>
      obtain rfl := Host.Outcome.next.inj h
      exact .moved (.of_eq rfl rfl rfl rfl)
    | tick =>
      obtain ⟨hie, hovr, hstatus⟩ := moved_tick _ t h
      exact .moved ⟨hie, hovr, hstatus⟩
    | answer a =>
      obtain ⟨hie, hovr, hstatus⟩ := moved_answer a _ t h
      exact .moved ⟨hie, hovr, hstatus⟩
    | core =>
      obtain ⟨hie, hovr, hstatus⟩ := moved_coreStep _ t h
      exact .moved ⟨hie, hovr, hstatus⟩

end Sys2Proof.Claims
end

section
/-! The statements about the status protocol (spec/10_state.md R37, R39, 60_exceptions.md R251). -/

namespace Sys2Proof.Claims

open Sys2Proof.Machine

/-- Settles O47: of the ways a step moves the flags only a lost write sets OVR, and only STATUS and a reset clear it. -/
theorem ovrIsSticky : Obligations.OvrIsSticky := by
  intro s t h
  obtain ⟨hreset, rfl⟩ | ⟨-, rfl⟩ | @⟨v, rest, hwrite, rfl⟩ | ⟨-, -, rfl⟩ | ⟨hwrite, ho, hn, hb, rfl⟩ | hmoved :=
    step_flags h
  · exact ⟨fun _ hset => absurd hset (by simp [resetCore]), fun _ _ => ⟨_, .inl hreset⟩⟩
  · exact ⟨fun h0 h1 => absurd (h0.symm.trans h1) (by decide), fun h1 h0 => absurd (h1.symm.trans h0) (by decide)⟩
  · refine ⟨fun h0 h1 => ?_, fun h1 h0 => ⟨rest, .inr ⟨v, ?_, hwrite⟩⟩⟩
    · simp [writeStatus, taken, h0] at h1
    · simpa [writeStatus, taken, h1] using h0
  · exact ⟨fun h0 h1 => absurd (h0.symm.trans h1) (by decide), fun h1 h0 => absurd (h1.symm.trans h0) (by decide)⟩
  · exact ⟨fun _ _ => ⟨hb, _, _, _, hwrite, ho, hn⟩, fun _ h0 => by simp at h0⟩
  · exact ⟨fun h0 h1 => absurd ((hmoved.ovr.trans h0).symm.trans h1) (by decide),
      fun h1 h0 => absurd ((hmoved.ovr.trans h1).symm.trans h0) (by decide)⟩

/-- Settles O48: only an acceptance sets BUSY; a completion, which sets DONE, or a reset clears it. -/
theorem busyChangesByAcceptanceCompletionReset : Obligations.BusyChangesByAcceptanceCompletionReset := by
  intro s t _ h
  obtain ⟨hreset, rfl⟩ | ⟨-, rfl⟩ | ⟨-, rfl⟩ | ⟨hwrite, -, rfl⟩ | ⟨-, -, -, -, rfl⟩ | hmoved := step_flags h
  · exact ⟨fun _ h1 => by simp [resetCore] at h1, fun _ _ => .inr ⟨_, hreset⟩⟩
  · exact ⟨fun h0 h1 => absurd (h0.symm.trans h1) (by decide), fun h1 h0 => absurd (h1.symm.trans h0) (by decide)⟩
  · exact ⟨fun h0 h1 => absurd (h0.symm.trans h1) (by decide), fun h1 h0 => absurd (h1.symm.trans h0) (by decide)⟩
  · exact ⟨fun _ _ => ⟨_, _, hwrite, rfl⟩, fun _ h0 => by simp at h0⟩
  · exact ⟨fun h0 h1 => absurd (h0.symm.trans h1) (by decide), fun h1 h0 => absurd (h1.symm.trans h0) (by decide)⟩
  · obtain ⟨hd, hb⟩ | ⟨-, hb⟩ := hmoved.status
    · exact ⟨fun _ h1 => by simp [hb] at h1, fun _ _ => .inl hd⟩
    · exact ⟨fun h0 h1 => by simp [hb, h0] at h1, fun h1 h0 => by simp [hb, h1] at h0⟩

/-- What R251 lists: the inputs that lower irq. -/
def lowersIrq (s : State) (rest : List Event) : Prop :=
  resetNext s rest ∨ (∃ v : Word, v.getLsbD 1 = true ∧ hostWrites s 0x008 v rest) ∨
    (∃ v : Word, v.getLsbD 0 = false ∧ hostWrites s 0x004 v rest) ∨ (s.busy = false ∧ ∃ v, hostWrites s 0x00C v rest)

/-- Each of them lowers it. -/
theorem irq_of_lowersIrq {s t : State} {rest : List Event} (h : step s = .next t) (hl : lowersIrq s rest) :
    t.irq = false := by
  obtain hreset | ⟨v, hv, hwrite⟩ | ⟨v, hv, hwrite⟩ | ⟨hb, v, hwrite⟩ := hl
  · obtain rfl := Host.Outcome.next.inj (h.symm.trans (step_resetNext hreset))
    rfl
  · obtain rfl := Host.Outcome.next.inj (h.symm.trans (step_writes_status hwrite))
    simp [State.irq, hv]
  · obtain rfl := Host.Outcome.next.inj (h.symm.trans (step_writes_ctrl hwrite))
    split
    · rfl
    · exact Bool.and_eq_false_iff.2 (.inl hv)
  · obtain rfl := Host.Outcome.next.inj (h.symm.trans (step_writes_cmd hwrite))
    simp [State.irq, hb]

/-- Settles O49: every other step keeps IE, and keeps DONE or sets it. -/
theorem irqFallsOnlyAsListed : Obligations.IrqFallsOnlyAsListed := by
  intro s t h hirq
  refine ⟨fun hlow => ?_, fun ⟨rest, hl⟩ => irq_of_lowersIrq h hl⟩
  obtain ⟨hie, hdone⟩ : s.ie = true ∧ s.done = true := by simpa [State.irq] using hirq
  obtain ⟨hreset, -⟩ | @⟨v, rest, hwrite, rfl⟩ | @⟨v, rest, hwrite, rfl⟩ | ⟨hwrite, hb, -⟩ | ⟨-, -, -, -, rfl⟩ | hmoved :=
    step_flags h
  · exact ⟨_, .inl hreset⟩
  · exact ⟨rest, .inr (.inr (.inl ⟨v, by simpa [State.irq, taken, hdone] using hlow, hwrite⟩))⟩
  · exact ⟨rest, .inr (.inl ⟨v, by simpa [State.irq, writeStatus, taken, hie, hdone] using hlow, hwrite⟩)⟩
  · exact ⟨_, .inr (.inr (.inr ⟨hb, _, hwrite⟩))⟩
  · simp [State.irq, State.lost, taken, hie, hdone] at hlow
  · obtain ⟨hd, -⟩ | ⟨hd, -⟩ := hmoved.status <;> simp [State.irq, hmoved.ie, hie, hd, hdone] at hlow

end Sys2Proof.Claims
end

section
/-!
SUPPORT. The hidden state of a command in flight against its ranges (spec/20_memory.md R82, R88, 10_state.md R60): while it
reads or writes, its ranges are admitted and its places lie in them.
-/

namespace Sys2Proof.Claims

open Sys2Proof.Machine

/-- How many bytes of key and message a command reads (20_memory.md R82). -/
def inputLength (i : Instr) (s : State) : Nat := if i = .run then s.mlen.toNat else 32

theorem run_admitted {j : Job} {s : State} (h : j.runOk s = true) : s.vet (ranges .run s) = .clear ∧ 32 * j.n ≤ s.mlen.toNat := by
  simp only [Job.runOk, State.admitted, Bool.and_eq_true, beq_iff_eq, State.blockCount, Config.blockBytes_eq] at h
  exact ⟨h.1.2, by omega⟩

/-- A command that reads has its ranges admitted, and its unparsed places lie in them. -/
theorem admitted_of_read {i : Instr} {j : Job} {s : State} {key msg : List (Nat × Byte)} (hok : j.phaseOk i s = true)
    (hp : j.phase = .read key msg) : s.vet (ranges i s) = .clear ∧ 32 * j.n ≤ inputLength i s := by
  obtain ⟨hi, -⟩ := Job.phaseOk_read hok hp
  cases i with
  | nop | clracc | add32 | mix | acc64 | std | stdInc => simp at hi
  | run =>
    simp only [Job.phaseOk, hp, Bool.and_eq_true] at hok
    exact run_admitted hok.1.1
  | ldk | ldkInc | ldm | ldmInc | blk | blkInc =>
    simp only [Job.phaseOk, hp, State.admitted, Bool.and_eq_true, beq_iff_eq] at hok
    obtain ⟨⟨hn, hvet⟩, -⟩ := hok
    exact ⟨hvet, by rw [hn]; exact le_of_eq rfl⟩

/-- A command that writes has its ranges admitted, the digest range among them. -/
theorem admitted_of_write {i : Instr} {j : Job} {s : State} {left : List Nat} {seen : Nat} (hok : j.phaseOk i s = true)
    (hp : j.phase = .write left seen) : s.vet (ranges i s) = .clear ∧ s.digestRange ∈ ranges i s := by
  obtain ⟨hi, -⟩ := Job.phaseOk_write hok hp
  cases i with
  | std | stdInc =>
    simp only [Job.phaseOk, hp, State.admitted, Bool.and_eq_true, beq_iff_eq] at hok
    exact ⟨hok.1, List.mem_singleton.2 rfl⟩
  | run =>
    simp only [Job.phaseOk, hp, Bool.and_eq_true] at hok
    exact ⟨(run_admitted hok.1.1.1).1, by simp [ranges, State.digestRange]⟩
  | _ => simp at hi

theorem keyRange_mem_ranges {i : Instr} (s : State) (h : readsKey i = true) :
    s.keyRange (inputLength i s) ∈ ranges i s := by
  cases i <;> simp [readsKey, ranges, State.keyRange, inputLength] at h ⊢

theorem msgRange_mem_ranges {i : Instr} (s : State) (h : readsMsg i = true) :
    s.msgRange (inputLength i s) ∈ ranges i s := by
  cases i <;> simp [readsMsg, ranges, State.msgRange, inputLength] at h ⊢

/-- A place of an admitted range is an address inside it and below 2^32. -/
theorem address_in_range {s : State} {rs : List Region} {r : Region} {o : Nat} (hvet : s.vet rs = .clear) (hr : r ∈ rs)
    (ho : o < r.len) : r.base + o < 2 ^ 32 ∧ ∃ q ∈ rs, inside q (r.base + o) := by
  have hfits : r.base + r.len ≤ 2 ^ 32 := fits_of_vet hvet hr
  exact ⟨by omega, r, hr, by omega, by omega⟩

/-- What is issued, by the kind of the access. -/
theorem issued_key_iff {i : Instr} {j : Job} {o : Nat} :
    j.issued i (.key o) = true ↔
      ∃ key msg, j.phase = .read key msg ∧ readsKey i = true ∧ j.unparsed o = true ∧ hasByte key o = false := by
  unfold Job.issued
  cases j.phase <;> simp [and_assoc]

theorem issued_msg_iff {i : Instr} {j : Job} {o : Nat} :
    j.issued i (.msg o) = true ↔
      ∃ key msg, j.phase = .read key msg ∧ readsMsg i = true ∧ j.unparsed o = true ∧ hasByte msg o = false := by
  unfold Job.issued
  cases j.phase <;> simp [and_assoc]

theorem issued_digest_iff {i : Instr} {j : Job} {o : Nat} :
    j.issued i (.digest o) = true ↔ ∃ left seen, j.phase = .write left seen ∧ o ∈ left := by
  unfold Job.issued
  cases j.phase <;> simp

theorem lt_of_leftOk {left : List Nat} {o : Nat} (h : leftOk left = true) (ho : o ∈ left) : o < 64 := by
  simp only [leftOk, Bool.and_eq_true, List.all_eq_true, decide_eq_true_eq] at h
  exact h.1 o ho

end Sys2Proof.Claims
end

section
/-! The statements about issued accesses and about a reset (spec/20_memory.md R82 to R89, 70_reset_and_hazards.md R281, R282). -/

namespace Sys2Proof.Claims

open Sys2Proof.Machine

/-- Settles O57: reads and writes are issued in different phases, each with its ranges admitted. -/
theorem issuedAccessIsInRange : Obligations.IssuedAccessIsInRange := by
  intro s j i a hinv hj hd hissued
  have hok := InFlight.phaseOk ⟨hinv, hj, hd⟩
  cases a with
  | key o =>
    obtain ⟨key, msg, hp, hr, hu, -⟩ := issued_key_iff.1 hissued
    obtain ⟨hvet, hn⟩ := admitted_of_read hok hp
    have ho := ((Job.unparsed_iff j o).1 hu).2
    obtain ⟨hlt, hin⟩ := address_in_range (o := o) hvet (keyRange_mem_ranges s hr) (by simp [State.keyRange]; omega)
    exact ⟨hlt, hin, nofun⟩
  | msg o =>
    obtain ⟨key, msg, hp, hr, hu, -⟩ := issued_msg_iff.1 hissued
    obtain ⟨hvet, hn⟩ := admitted_of_read hok hp
    have ho := ((Job.unparsed_iff j o).1 hu).2
    obtain ⟨hlt, hin⟩ := address_in_range (o := o) hvet (msgRange_mem_ranges s hr) (by simp [State.msgRange]; omega)
    exact ⟨hlt, hin, nofun⟩
  | digest o =>
    obtain ⟨left, seen, hp, ho⟩ := issued_digest_iff.1 hissued
    obtain ⟨-, hleft, -⟩ := Job.phaseOk_write hok hp
    obtain ⟨hvet, hmem⟩ := admitted_of_write hok hp
    obtain ⟨hlt, hin⟩ := address_in_range hvet hmem (lt_of_leftOk hleft ho)
    exact ⟨hlt, hin, fun _ _ => by simp [Job.issued, hp]⟩

/-! ### Reset -/

/-- A reset changes no byte outside the digest range (R281). -/
theorem sameOutside_abandon (s : State) : sameOutside s.mem s.abandon.mem s.digestRange := by
  obtain heq | heq | @⟨i, j, left, seen, -, -, -, heq⟩ := abandoned s <;> rw [heq]
  · exact fun _ _ => rfl
  · exact sameOutside_of_onlyRaced (onlyRaced_settleDigest s)
  · have hout := sameOutside_cutDigest (s.settleLate i seen)
    rwa [State.settleLate_mem, State.digestRange_congr (s := s) (by simp)] at hout

/-- While no digest write is issued, a reset changes raced digest bytes alone (log 8). -/
theorem onlyRaced_abandon {s : State} (h : ∀ j, s.job = some j → ∀ left seen, j.phase ≠ .write left seen) :
    onlyRaced s s.abandon.mem ∧ (quiet s s.digestRange → s.abandon.mem = s.mem) := by
  obtain heq | heq | ⟨hj, -, hp, -⟩ := abandoned s
  · rw [heq]
    exact ⟨fun _ _ => rfl, fun _ => rfl⟩
  · rw [heq]
    exact ⟨onlyRaced_settleDigest s, fun hq => by rw [settleDigest_of_quiet hq]⟩
  · exact absurd hp (h _ hj _ _)

/-- A digest byte nobody else wrote is old or, where the command's results are no draws, the digest's (R282). -/
theorem abandon_byte {s : State} (hinv : s.inv = true)
    (hq : s.lastcmd = encode .run → quiet s ⟨s.kptr.toNat, s.mlen.toNat⟩ ∧ quiet s ⟨s.mptr.toNat, s.mlen.toNat⟩)
    {o : Nat} (ho : o < 64) (hd : s.dptr.toNat + o ∉ s.dirty) :
    Memory.read s.abandon.mem (s.dptr.toNat + o) = Memory.read s.mem (s.dptr.toNat + o) ∨
      Memory.read s.abandon.mem (s.dptr.toNat + o) = (serializeWords s.acc).getD o 0 := by
  obtain heq | heq | @⟨i, j, left, seen, hj, hi, hp, heq⟩ := abandoned s <;> rw [heq]
  · exact .inl rfl
  · exact .inl (State.settleDigest_read s _ fun h => hd h.2)
  · have hfl : InFlight i j s := ⟨hinv, hj, hi⟩
    obtain ⟨-, -, hfits⟩ := Job.phaseOk_write hfl.phaseOk hp
    have hsettled : s.settleLate i seen = s := by
      cases i with
      | run =>
        obtain ⟨-, -, -, -, hword, -, -⟩ := State.inv_job hinv hj
        obtain ⟨hk, hm⟩ := hq (hword ▸ (decodeAndEncodeAgree j.word .run).1 hi)
        exact State.settleLate_of_unraced _ _ ((quiet_iff _ _).1 hk) ((quiet_iff _ _).1 hm)
      | _ => rfl
    rw [hsettled]
    exact cutDigest_byte (wf_of_inv hinv) hfits ho hd

theorem inv_taken {s : State} (rest : List Event) (h : s.inv = true) : (taken s rest).inv = true :=
  State.inv_congr h rfl rfl rfl rfl rfl rfl rfl rfl id rfl rfl rfl (wf_of_inv h) fun hd _ => hd

/-- Settles O51: a reset keeps memory but for what it finds of a digest write. -/
theorem resetKeepsMemoryButTheOpenWrite : Obligations.ResetKeepsMemoryButTheOpenWrite := by
  intro s rest hinv hreset
  have hframe : (taken s rest).abandon.platform = s.platform ∧ (taken s rest).abandon.inputs = rest := by
    obtain heq | heq | ⟨-, -, -, heq⟩ := abandoned (taken s rest) <;> rw [heq]
    · exact ⟨rfl, rfl⟩
    · simp [taken]
    · rw [State.cutDigest_frame]
      simp [taken]
  exact ⟨_, step_resetNext hreset, hframe.1, hframe.2, sameOutside_abandon (taken s rest),
    onlyRaced_abandon (s := taken s rest), fun hq o => abandon_byte (inv_taken rest hinv) hq⟩

end Sys2Proof.Claims
end

section
/-! The statement about what RUN writes after a race on its input (spec/20_memory.md R89, R91). -/

namespace Sys2Proof.Claims

open Sys2Proof.Machine

theorem inputRaced_iff (s : State) :
    inputRaced s ↔ s.raced (s.keyRange s.mlen.toNat) = true ∨ s.raced (s.msgRange s.mlen.toNat) = true := by
  unfold inputRaced
  rw [quiet_iff, quiet_iff, not_and_or, Bool.not_eq_false, Bool.not_eq_false]
  rfl

/-- RUN's results are draws once its raced input is settled, whatever they were (log 8). -/
theorem accFree_settleRun {s u : State} (h : inputRaced s) (hd : u.dirty = s.dirty) (hk : u.kptr = s.kptr)
    (hm : u.mptr = s.mptr) (hl : u.mlen = s.mlen) : accFree u.settleRun := by
  refine State.settleRun_acc_of_raced ?_
  rw [State.raced_congr hd, State.raced_congr hd, State.keyRange_congr hk, State.msgRange_congr hm, hl]
  exact (inputRaced_iff s).1 h

/-- The last block of RUN parsed: its results are settled and the digest writes issued. -/
theorem nextBlock_last {j : Job} (key msg : List (Nat × Byte)) (s : State) (h : j.k + 1 = j.n) :
    nextBlock j key msg s = s.settleRun.issueWrites j :=
  if_neg (by omega)

/-- A write of one byte of the digest range meets no error where the range meets none. -/
theorem writeFails_byte {s : State} {o : Nat} (hw : writesWell s s.digestRange) (ho : o < 64) :
    s.writeFails ⟨s.dptr.toNat + o, 1⟩ = false := by
  rw [writesWell_iff] at hw
  by_contra hfails
  rw [Bool.not_eq_false] at hfails
  have := (State.writeFails_bytes s s.dptr.toNat 64).2 ⟨o, ho, hfails⟩
  exact Bool.false_ne_true (hw.symm.trans this)

/-- The port's answer to an issued write of a digest byte that meets no error. -/
theorem performWrite_of_writesWell {i : Instr} {j : Job} {o : Nat} {u : State} (hw : writesWell u u.digestRange)
    (ho : o < 64) : performWrite i j o u = .next ((u.putByte o).setJob (j.wrote o u.dirty.length)) := by
  unfold performWrite
  rw [if_neg]
  simpa [State.place] using writeFails_byte hw ho

theorem wrote_of_write {j : Job} {left : List Nat} {seen : Nat} (o n : Nat) (hp : j.phase = .write left seen) :
    j.wrote o n = { j with phase := .write (left.erase o) n } := by
  simp only [Job.wrote, hp]

/-- Settles O25: what RUN is about to write is settled when the writes are issued, and again before each byte if another
agent has written since. -/
theorem racedRunWritesFreeBytes : Obligations.RacedRunWritesFreeBytes := by
  intro s j rest hinv hj hd
  refine ⟨fun key msg hp hlast hthere hin => ?_, fun left seen o hp ho hin hw => ?_⟩
  · have hstep : step s = .next ((((taken s rest).foldBytes (j.blockBytes key) (j.blockBytes msg)).countBlock
        j.k).settleRun.issueWrites j) := by
      have htick : step s = tick (taken s rest) := by simp only [step, stepEvent, hin, handle, taken]
      rw [htick, tick_command (s := taken s rest) hj hd, ← nextBlock_last key msg _ hlast]
      simp only [tickCommand, hp, hthere, if_true, tickBlock]
    refine ⟨_, hstep, by simp [State.issueWrites, taken], by simp [State.issueWrites, taken],
      by simp [State.issueWrites, taken], fun hraced => ?_⟩
    exact accFree_settleRun (u := ((taken s rest).foldBytes (j.blockBytes key) (j.blockBytes msg)).countBlock j.k) hraced
      (by simp [taken]) (by simp [taken]) (by simp [taken]) (by simp [taken])
  · obtain ⟨-, hleft, hfits⟩ := Job.phaseOk_write (InFlight.phaseOk ⟨hinv, hj, hd⟩) hp
    have ho64 := lt_of_leftOk hleft ho
    have hwf := wf_of_inv hinv
    have hseen : j.seen = seen := by simp only [Job.seen, hp]
    generalize hu : (taken s rest).settleLate .run seen = u
    have hmem : u.mem = s.mem := by rw [← hu]; simp [taken]
    have hdptr : u.dptr = s.dptr := by rw [← hu]; simp [taken]
    have hdirty : u.dirty = s.dirty := by rw [← hu]; simp [taken]
    have hwell : writesWell u u.digestRange := by
      rw [State.digestRange_congr hdptr, writesWell, ← hu, State.settleLate_platform]
      exact hw
    have hstep : step s = .next ((u.putByte o).setJob { j with phase := .write (left.erase o) s.dirty.length }) := by
      have hanswer : step s = answer (.digest o) (taken s rest) := by simp only [step, stepEvent, hin, handle, taken]
      rw [hanswer, answer_command (s := taken s rest) hj hd, answerCommand,
        if_pos (issued_digest_iff.2 ⟨left, seen, hp, ho⟩), perform, hseen, hu, performWrite_of_writesWell hwell ho64,
        wrote_of_write o _ hp, hdirty]
    refine ⟨_, hstep, hdirty, rfl, ?_, fun a ha => ?_, fun hsame => ?_, fun hne hraced => ?_⟩
    · have hread := Memory.read_write_same (a := s.dptr.toNat + o) ((serializeWords u.acc).getD o 0) hwf
      simpa [hmem, hdptr] using hread
    · have hread := Memory.read_write_other s.mem ((serializeWords u.acc).getD o 0) ha
      simpa [hmem, hdptr] using hread
    · have hkeep : u = taken s rest := by
        rw [← hu]
        obtain rfl | hquiet := hsame
        · exact State.settleLate_self (taken s rest) .run
        · rw [inputRaced_iff, not_or, Bool.not_eq_true, Bool.not_eq_true] at hquiet
          exact State.settleLate_of_unraced .run seen hquiet.1 hquiet.2
      rw [hkeep]
      rfl
    · rw [State.settleLate_run (s := taken s rest) hne] at hu
      subst hu
      exact accFree_settleRun (u := taken s rest) hraced rfl rfl rfl rfl

end Sys2Proof.Claims
end

section
/-!
SUPPORT. The host-driven form of RUN, said once (spec/43_driver.md R208): a block of an admitted range is admitted, and
after CLRACC and k times BLK+ the registers are those of RUN's loop after k blocks, but for the pointers and BCNT.
-/

namespace Sys2Proof.Claims

open Sys2Proof.Machine

/-! ### Part of a range -/

/-- Every address of `q` is one of `r`. -/
def within (q r : Region) : Prop := r.base ≤ q.base ∧ q.base + q.len ≤ r.base + r.len

theorem inside_of_within {q r : Region} {a : Nat} (h : within q r) (ha : inside q a) : inside r a :=
  ⟨h.1.trans ha.1, ha.2.trans_le h.2⟩

theorem apart_of_within {rs : List Region} {q r : Region} (h : within q r) (hr : apart rs r) : apart rs q :=
  fun d hd a ha => hr d hd a ⟨ha.1, inside_of_within h ha.2⟩

theorem ordinary_of_within {s : State} {q r : Region} (h : within q r) (hr : ordinary s r) : ordinary s q :=
  ⟨h.2.trans hr.1, apart_of_within h hr.2⟩

theorem readsWell_of_within {s : State} {q r : Region} (h : within q r) (hr : readsWell s r) : readsWell s q :=
  hr.imp_right (apart_of_within h)

/-! ### RUN, whatever its digest range holds -/

/-- RUN where nothing stops it completes with BCNT the number of blocks, races or not. -/
theorem exec_run_of_passes {s : State} (h : RunPasses s) :
    ∃ kb mb xb zb acc m f, exec .run s = .next (ended
      { s with
        kb := kb, mb := mb, xb := xb, zb := zb, acc := acc, mem := m, free := f
        bcnt := BitVec.ofNat 32 (s.mlen.toNat / 32) } 0) := by
  have hrun : exec .run s = storeRun (s.startRun.runBlocks s.blockCount 0).settleRun :=
    execRun_of_readsWell h.lengths h.memory h.readsKey h.readsMsg
  obtain ⟨kb, mb, xb, zb, acc, f, hloop, -⟩ := settleRun_loop h.lengths
  rw [hrun, hloop, storeRun, if_neg, endRun_eq]
  · exact ⟨kb, mb, xb, zb, acc, _, _, rfl⟩
  · rw [Bool.not_eq_true]
    exact (writesWell_iff s _).1 h.writesDigest

/-- RUN undisturbed, on the loop's own state (R205). -/
theorem exec_run_eq_loop {s : State} (h : RunPasses s) (hq : ∀ r ∈ ranges .run s, quiet s r) :
    exec .run s = .next (ended
      { s.startRun.runBlocks s.blockCount 0 with
        mem := Memory.writeBytes s.mem s.dptr.toNat (serializeWords (s.startRun.runBlocks s.blockCount 0).acc) } 0) := by
  obtain ⟨hqk, hqm, hqd⟩ : quiet s (s.keyRange s.mlen.toNat) ∧ quiet s (s.msgRange s.mlen.toNat) ∧
      quiet s s.digestRange := by
    simpa only [ranges, State.keyRange, State.msgRange, State.digestRange, List.forall_mem_cons, List.not_mem_nil,
      false_implies, implies_true, and_true] using hq
  have hrun : exec .run s = storeRun (s.startRun.runBlocks s.blockCount 0).settleRun :=
    execRun_of_readsWell h.lengths h.memory h.readsKey h.readsMsg
  have hraced : ∀ r, quiet s r → (s.startRun.runBlocks s.blockCount 0).raced r = false := fun r hr => by
    rw [State.raced_congr (s := s) (by simp)]
    exact (quiet_iff _ _).1 hr
  have hsettled : (s.startRun.runBlocks s.blockCount 0).settleRun = s.startRun.runBlocks s.blockCount 0 :=
    State.settleBlock_of_unraced (hraced _ (by simpa [State.keyRange] using hqk))
      (hraced _ (by simpa [State.msgRange] using hqm))
  have hwell : (s.startRun.runBlocks s.blockCount 0).writeFails (s.startRun.runBlocks s.blockCount 0).digestRange = false := by
    rw [State.writeFails_congr (s := s) (by simp), State.digestRange_congr (s := s) (by simp)]
    exact (writesWell_iff _ _).1 h.writesDigest
  have hput := State.putDigest_of_unraced (hraced _ (by
    rw [State.digestRange_congr (s := s) (by simp)]; exact hqd))
  rw [hrun, hsettled, storeRun, hwell]
  simp only [Bool.false_eq_true, if_false]
  rw [endRun_eq, hput]
  simp

/-! ### BLK+ after BLK+ -/

/-- The state after CLRACC and `k` times BLK+. -/
def driven (s : State) (k : Nat) : State :=
  ended
    { s.startRun.runBlocks k 0 with
      bcnt := s.bcnt, kptr := s.kptr + BitVec.ofNat 32 (32 * k), mptr := s.mptr + BitVec.ofNat 32 (32 * k) } 0

/-- A pointer moved by blocks of a range that fits does not pass 2^32. -/
theorem moved_pointer_toNat {p : Word} {k n : Nat} (hk : k < n) (hf : p.toNat + 32 * n ≤ 2 ^ 32) :
    (p + BitVec.ofNat 32 (32 * k)).toNat = p.toNat + 32 * k := by
  rw [BitVec.toNat_add, BitVec.toNat_ofNat]
  omega

theorem driven_zero (s : State) : exec .clracc s = .next (driven s 0) := by
  rw [exec_eq]
  simp [driven, State.runBlocks, finish, State.complete, ended, State.startRun, State.clearACC, ErrCode.code]

/-- One BLK+ is one more block of RUN's loop. -/
theorem exec_blkInc_driven {s : State} {n k : Nat} (hk : k < n) (hok : ordinary s ⟨s.kptr.toNat, 32 * n⟩)
    (hom : ordinary s ⟨s.mptr.toNat, 32 * n⟩) (hrk : readsWell s ⟨s.kptr.toNat, 32 * n⟩)
    (hrm : readsWell s ⟨s.mptr.toNat, 32 * n⟩) : exec .blkInc (driven s k) = .next (driven s (k + 1)) := by
  have hkey : (driven s k).keyRange 32 = s.keyBlock k := by
    simp only [State.keyRange, State.keyBlock, driven, ended, moved_pointer_toNat hk hok.1, Config.blockBytes_eq]
  have hmsg : (driven s k).msgRange 32 = s.msgBlock k := by
    simp only [State.msgRange, State.msgBlock, driven, ended, moved_pointer_toNat hk hom.1, Config.blockBytes_eq]
  have hplatform : (driven s k).platform = s.platform := by simp [driven, ended]
  have hwk : within (s.keyBlock k) ⟨s.kptr.toNat, 32 * n⟩ := by
    simp only [within, State.keyBlock, Config.blockBytes_eq]; omega
  have hwm : within (s.msgBlock k) ⟨s.mptr.toNat, 32 * n⟩ := by
    simp only [within, State.msgBlock, Config.blockBytes_eq]; omega
  have hwell : ∀ r ∈ [(driven s k).keyRange 32, (driven s k).msgRange 32],
      ordinary (driven s k) r ∧ readsWell (driven s k) r := by
    simp only [hkey, hmsg, List.forall_mem_cons, List.not_mem_nil, false_implies, implies_true, and_true, ordinary,
      readsWell, hplatform]
    exact ⟨⟨ordinary_of_within hwk hok, readsWell_of_within hwk hrk⟩, ordinary_of_within hwm hom,
      readsWell_of_within hwm hrm⟩
  have hquiet : ∀ r, quiet (driven s k) r := fun r => by simp [quiet, driven, ended]
  rw [exec_oneBlock (.inr rfl), oneBlock_of_readsWell hwell,
    endBlock_of_quiet (hquiet _) (hquiet _) (by simp) (by simp) (by simp), hkey, hmsg, State.passBlock_eq]
  have hblock : s.startRun.runBlocks (k + 1) 0 =
      ((s.startRun.runBlocks k 0).passBlock (s.keyBlock k) (s.msgBlock k)).countBlock k := by
    rw [State.runBlocks_succ, Nat.zero_add, State.keyBlock_congr (s := s) (by simp),
      State.msgBlock_congr (s := s) (by simp)]
  have hptr : ∀ p : Word, p + BitVec.ofNat 32 (32 * k) + 32 = p + BitVec.ofNat 32 (32 * (k + 1)) := by
    intro p
    rw [Nat.mul_succ, BitVec.ofNat_add, ← BitVec.add_assoc]
    rfl
  unfold driven
  rw [hblock, State.passBlock_eq]
  simp only [ended, decide_true, if_true, hptr]
  rfl

/-- BLK+ `m` times goes `m` blocks on. -/
theorem blocksDriven_driven {s : State} {n : Nat} (hok : ordinary s ⟨s.kptr.toNat, 32 * n⟩)
    (hom : ordinary s ⟨s.mptr.toNat, 32 * n⟩) (hrk : readsWell s ⟨s.kptr.toNat, 32 * n⟩)
    (hrm : readsWell s ⟨s.mptr.toNat, 32 * n⟩) (m k : Nat) (h : k + m ≤ n) :
    blocksDriven m (.next (driven s k)) = .next (driven s (k + m)) := by
  induction m generalizing k with
  | zero => rfl
  | succ m ih =>
    rw [blocksDriven, andThen, exec_blkInc_driven (by omega) hok hom hrk hrm, ih _ (by omega)]
    congr 2
    omega

/-- STD after the blocks writes their digest, and nothing is raced any more. -/
theorem exec_std_driven {s : State} {n : Nat} (ho : ordinary s s.digestRange) (hw : writesWell s s.digestRange) :
    exec .std (driven s n) = .next
      { driven s n with
        mem := Memory.writeBytes s.mem s.dptr.toNat (serializeWords (s.startRun.runBlocks n 0).acc) } := by
  have hplatform : (driven s n).platform = s.platform := by simp [driven, ended]
  have hdigest : (driven s n).digestRange = s.digestRange := State.digestRange_congr (by simp [driven, ended])
  have ho' : ordinary (driven s n) (driven s n).digestRange := by rwa [hdigest, ordinary, hplatform]
  have hw' : writesWell (driven s n) (driven s n).digestRange := by rwa [hdigest, writesWell, hplatform]
  have hquiet : quiet (driven s n) (driven s n).digestRange := by simp [quiet, driven, ended]
  rw [exec_storeDigest (.inl rfl), storeDigest_of_writesWell ho' hw', endStore_of_quiet hquiet,
    State.putDigest_of_unraced ((quiet_iff _ _).1 hquiet)]
  have hmem : (driven s n).mem = s.mem := by simp [driven, ended]
  have hdptr : (driven s n).dptr = s.dptr := by simp [driven, ended]
  simp only [hmem, hdptr]
  simp [driven, ended]

end Sys2Proof.Claims
end

section
/-! The statements about the length of RUN's input and its host-driven form (spec/43_driver.md R208, R209). -/

namespace Sys2Proof.Claims

open Sys2Proof.Machine

/-- Settles O34: a success has passed every check, and the longest input whose ranges can fit passes them. -/
theorem runLengthIsBounded : Obligations.RunLengthIsBounded := by
  refine ⟨fun s t hrun herr => ?_, fun s hklen hmlen hkptr hmptr hdptr hdevice hbus => ?_⟩
  · have hpass := runPasses_of_exec hrun herr
    obtain ⟨kb, mb, xb, zb, acc, m, f, hend⟩ := exec_run_of_passes hpass
    obtain rfl := Host.Outcome.next.inj (hrun.symm.trans hend)
    obtain ⟨-, -, haligned⟩ := hpass.lengths
    have hlt := s.mlen.isLt
    have hcount : (BitVec.ofNat 32 (s.mlen.toNat / 32)).toNat = s.mlen.toNat / 32 := by
      rw [BitVec.toNat_ofNat]; omega
    have hkey : fits (s.keyRange s.mlen.toNat) := (hpass.memory _ (by simp [ranges, State.keyRange])).1
    have hmsg : fits (s.msgRange s.mlen.toNat) := (hpass.memory _ (by simp [ranges, State.msgRange])).1
    exact ⟨by omega, hcount, hcount.le.trans (by omega), hkey, hmsg⟩
  · have hmemory : ∀ r, fits r → ordinary s r := fun r hf => ⟨hf, by simp [apart, hdevice]⟩
    have hpass : RunPasses s := by
      refine ⟨⟨?_, ?_, ?_⟩, ?_, .inl hbus, .inl hbus, .inl hbus⟩
      · simp [hmlen]
      · rw [hklen, hmlen]
      · simp [hmlen]
      · simp only [ranges, List.forall_mem_cons, List.not_mem_nil, false_implies, implies_true, and_true]
        exact ⟨hmemory _ (by simp [fits, hkptr, hmlen]), hmemory _ (by simp [fits, hmptr, hmlen]),
          hmemory _ (by simp only [fits]; omega)⟩
    obtain ⟨kb, mb, xb, zb, acc, m, f, hend⟩ := exec_run_of_passes hpass
    exact ⟨_, hend, rfl, by simp [ended, hmlen]⟩

/-- Settles O35: both forms pass the same blocks into the same accumulator and write its digest. -/
theorem hostDrivenEqualsRun : Obligations.HostDrivenEqualsRun := by
  intro s hlengths hranges hrk hrm hw
  have hpass : RunPasses s := ⟨hlengths, fun r hr => (hranges r hr).1, hrk, hrm, hw⟩
  have hrun := exec_run_eq_loop hpass fun r hr => (hranges r hr).2
  obtain ⟨n, hn, hblocks⟩ := lengthsOk_blocks hlengths
  have hdiv : s.mlen.toNat / 32 = n + 1 := by omega
  have hlast := runBlocks_last s.startRun n
  obtain ⟨-, -, -, -, -, -, hcount⟩ := hlast
  have hptr : ∀ p : Word, p + BitVec.ofNat 32 (32 * (n + 1)) = p + s.mlen := by
    intro p
    rw [← hn, BitVec.ofNat_toNat, BitVec.setWidth_eq]
  have hok : ordinary s ⟨s.kptr.toNat, 32 * (n + 1)⟩ := hn ▸ (hranges _ (by simp [ranges])).1
  have hom : ordinary s ⟨s.mptr.toNat, 32 * (n + 1)⟩ := hn ▸ (hranges _ (by simp [ranges])).1
  have hod : ordinary s s.digestRange := (hranges _ (by simp [ranges, State.digestRange])).1
  rw [hblocks] at hrun
  refine ⟨_, hrun, rfl, by simp [ended], by simp [ended], by rw [hdiv]; exact hcount, ?_⟩
  rw [hdiv, driven_zero, blocksDriven_driven hok hom (hn ▸ hrk) (hn ▸ hrm) _ _ (by omega), Nat.zero_add, andThen,
    exec_std_driven hod hw]
  simp [driven, ended, hptr]

end Sys2Proof.Claims
end

section
/-!
SUPPORT. The meaning of a command, by its accesses (spec/20_memory.md R86, R89, 43_driver.md R202 to R204): what it answers
where a read meets an error, where all reads are well, and at its digest write. The sequencer's own steps meet it there.
-/

namespace Sys2Proof.Claims

open Sys2Proof.Machine

/-- The checks of a command have passed. -/
structure Checked (i : Instr) (s : State) : Prop where
  vet : s.vet (ranges i s) = .clear
  lengths : i = .run → lengthsOk s

theorem Checked.ordinary {i : Instr} {s : State} (h : Checked i s) : ∀ r ∈ ranges i s, ordinary s r :=
  (admit_clear_iff s _).1 h.vet

/-- No byte a command reads meets an error response. -/
def readsPass (i : Instr) (s : State) : Prop :=
  (readsKey i = true → readsWell s (s.keyRange (inputLength i s))) ∧
    (readsMsg i = true → readsWell s (s.msgRange (inputLength i s)))

/-- A range reads well exactly when each of its bytes does. -/
theorem readsWell_of_bytes {s : State} {b n : Nat} (h : ∀ o < n, s.readFails ⟨b + o, 1⟩ = false) :
    readsWell s ⟨b, n⟩ := by
  rw [readsWell_iff, ← Bool.not_eq_true, State.readFails_bytes]
  rintro ⟨o, ho, hfails⟩
  exact Bool.false_ne_true ((h o ho).symm.trans hfails)

theorem not_readsWell_of_byte {s : State} {b n o : Nat} (ho : o < n) (h : s.readFails ⟨b + o, 1⟩ = true) :
    ¬readsWell s ⟨b, n⟩ := by
  rw [not_readsWell_iff, State.readFails_bytes]
  exact ⟨o, ho, h⟩

/-- A command one of whose reads meets an error ends with BUS (R247). -/
theorem exec_of_not_readsPass {i : Instr} {s : State} (h : Checked i s) (hf : ¬readsPass i s) :
    exec i s = failRead i s := by
  have ho := h.ordinary
  rw [exec_eq]
  cases i with
  | nop | clracc | add32 | mix | acc64 | std | stdInc => exact absurd ⟨nofun, nofun⟩ hf
  | ldk | ldkInc =>
    exact loadKey_of_not_readsWell (ho _ (List.mem_singleton.2 rfl)) fun hw => hf ⟨fun _ => hw, nofun⟩
  | ldm | ldmInc =>
    exact loadMsg_of_not_readsWell (ho _ (List.mem_singleton.2 rfl)) fun hw => hf ⟨nofun, fun _ => hw⟩
  | blk | blkInc =>
    refine oneBlock_of_not_readsWell ho ?_
    by_contra hall
    simp only [List.mem_cons, List.not_mem_nil, or_false, exists_eq_or_imp, exists_eq_left, not_or, not_not] at hall
    exact hf ⟨fun _ => hall.1, fun _ => hall.2⟩
  | run => exact execRun_of_not_readsWell (h.lengths rfl) ho fun hw => hf ⟨fun _ => hw.1, fun _ => hw.2⟩

/-- A command that parses one block and ends with it (R143, R144, R207). -/
theorem tickBlock_eq_exec {i : Instr} {s : State} {j : Job} {key msg : List (Nat × Byte)} (x : Option Job)
    (hi : i ∈ [Instr.ldk, .ldkInc, .ldm, .ldmInc, .blk, .blkInc]) (h : Checked i s) (hw : readsPass i s)
    (hk : readsKey i = true → j.blockBytes key = s.fetch (s.keyRange 32))
    (hm : readsMsg i = true → j.blockBytes msg = s.fetch (s.msgRange 32)) :
    tickBlock i j key msg (s.withJob x) = exec i s := by
  have ho := h.ordinary
  rw [exec_eq]
  unfold tickBlock
  cases i with
  | nop | clracc | add32 | mix | acc64 | std | stdInc | run => simp at hi
  | ldk | ldkInc =>
    dsimp only
    rw [State.withJob_parseKey, endLoadKey_withJob, hk rfl]
    exact (loadKey_of_readsWell (ho _ (List.mem_singleton.2 rfl)) (hw.1 rfl)).symm
  | ldm | ldmInc =>
    dsimp only
    rw [State.withJob_parseMsg, endLoadMsg_withJob, hm rfl]
    exact (loadMsg_of_readsWell (ho _ (List.mem_singleton.2 rfl)) (hw.2 rfl)).symm
  | blk | blkInc =>
    dsimp only
    rw [State.withJob_foldBytes, endBlock_withJob, hk rfl, hm rfl]
    refine (oneBlock_of_readsWell fun r hr => ⟨ho r hr, ?_⟩).symm
    simp only [List.mem_cons, List.not_mem_nil, or_false] at hr
    obtain rfl | rfl := hr
    · exact hw.1 rfl
    · exact hw.2 rfl

/-! ### The digest write -/

/-- The registers and draws a command has when it issues its writes. -/
def results (i : Instr) (s : State) : State :=
  if i = .run then (s.startRun.runBlocks s.blockCount 0).settleRun else s

/-- A command that writes ends as its digest write does. -/
theorem exec_of_readsPass {i : Instr} {s : State} (hi : i ∈ [Instr.std, .stdInc, .run]) (h : Checked i s)
    (hw : readsPass i s) :
    exec i s = if s.writeFails s.digestRange then failWrite i (results i s) else tickStored i (results i s) := by
  have ho := h.ordinary
  rw [exec_eq]
  cases i with
  | std | stdInc =>
    have hvet : s.vet [s.digestRange] = .clear := h.vet
    simp only [Machine.storeDigest, hvet]
    rfl
  | run =>
    have hrun : execRun s = storeRun (results .run s) := execRun_of_readsWell (h.lengths rfl) ho (hw.1 rfl) (hw.2 rfl)
    have hfails : (results .run s).writeFails (results .run s).digestRange = s.writeFails s.digestRange := by
      rw [State.writeFails_congr (s := s) (by simp [results]), State.digestRange_congr (s := s) (by simp [results])]
    refine hrun.trans ?_
    rw [storeRun, hfails]
    rfl
  | _ => simp at hi

/-- What a completed digest write leaves does not depend on the bytes that stood in the digest range. -/
theorem putDigest_withMem {u : State} {m : List Host.Cell} (hwf : Memory.wf u.mem = true) (hm : Memory.wf m = true)
    (hf : fits u.digestRange) (hout : sameOutside u.mem m u.digestRange) :
    ({ u with mem := m } : State).putDigest = u.putDigest := by
  have hland : ({ u with mem := m } : State).landDigest (serializeWords u.acc) = u.landDigest (serializeWords u.acc) := by
    unfold State.landDigest
    rw [Memory.writeBytes_congr hm hwf (by simpa [fits, State.digestRange] using hf) fun x hx =>
      hout x (not_inside_digest_iff.2 (by simpa using hx))]
  unfold State.putDigest
  rw [hland]

theorem tickStored_withMem {i : Instr} {u : State} {m : List Host.Cell} (x : Option Job)
    (hi : i ∈ [Instr.std, .stdInc, .run]) (hwf : Memory.wf u.mem = true) (hm : Memory.wf m = true)
    (hf : fits u.digestRange) (hout : sameOutside u.mem m u.digestRange) :
    tickStored i (({ u with mem := m } : State).withJob x) = tickStored i u := by
  have hput := putDigest_withMem hwf hm hf hout
  unfold tickStored
  cases i with
  | std | stdInc =>
    dsimp only
    rw [endStore_withJob, endStore, endStore, hput]
  | run =>
    dsimp only
    rw [endRun_withJob, endRun, endRun, hput]
  | _ => simp at hi

theorem failWrite_withJob {i : Instr} (s : State) (x : Option Job) (hi : i ∈ [Instr.std, .stdInc, .run]) :
    failWrite i (s.withJob x) = failWrite i s := by
  unfold failWrite
  cases i with
  | std | stdInc => exact failStore_withJob s x
  | run => exact failRun_withJob s x
  | _ => simp at hi

end Sys2Proof.Claims
end

section
/-!
SUPPORT. The states between an accepted command and its end (spec/10_state.md R60, 20_memory.md R86): what the sequencer and
the memory port make of each. `s` is the state the command was accepted in, `i` the command, `c` its word.
-/

namespace Sys2Proof.Claims

open Sys2Proof.Machine

/-! ### Fields a command keeps until it writes -/

/-- The registers after `k` blocks of RUN; the other commands parse none before they end. -/
def loopState (i : Instr) (s : State) (k : Nat) : State := if i = .run then s.startRun.runBlocks k 0 else s

/-- How many blocks a command reads. -/
def blocks (i : Instr) (s : State) : Nat := if i = .run then s.blockCount else 1

section
variable (i : Instr) (s : State) (k : Nat)

@[simp] theorem loopState_kptr : (loopState i s k).kptr = s.kptr := by unfold loopState; split <;> simp
@[simp] theorem loopState_mptr : (loopState i s k).mptr = s.mptr := by unfold loopState; split <;> simp
@[simp] theorem loopState_mem : (loopState i s k).mem = s.mem := by unfold loopState; split <;> simp
@[simp] theorem loopState_platform : (loopState i s k).platform = s.platform := by unfold loopState; split <;> simp
@[simp] theorem results_dptr : (results i s).dptr = s.dptr := by unfold results; split <;> simp
@[simp] theorem results_mem : (results i s).mem = s.mem := by unfold results; split <;> simp
@[simp] theorem results_platform : (results i s).platform = s.platform := by unfold results; split <;> simp
@[simp] theorem results_dirty : (results i s).dirty = s.dirty := by unfold results; split <;> simp

theorem results_withMem_self : ({ results i s with mem := s.mem } : State) = results i s := by
  conv_lhs => rw [← results_mem i s]

end

/-! ### The states -/

/-- The bytes are those of memory from `a` on, and none of their reads meets an error. -/
def readFrom (s : State) (a : Nat) (bytes : List (Nat × Byte)) : Prop :=
  ∀ o b, (o, b) ∈ bytes → b = Memory.read s.mem (a + o) ∧ s.readFails ⟨a + o, 1⟩ = false

/-- No byte of the first `n` from `a` on meets an error. -/
def passes (s : State) (a n : Nat) : Prop := ∀ o < n, s.readFails ⟨a + o, 1⟩ = false

/-- What holds while a command reads block `k`. -/
structure Reading (i : Instr) (s : State) (k : Nat) (key msg : List (Nat × Byte)) : Prop where
  reads : i ∈ [Instr.ldk, .ldkInc, .ldm, .ldmInc, .blk, .blkInc, .run]
  checked : Checked i s
  lt : k < blocks i s
  keyPassed : readsKey i = true → passes s s.kptr.toNat (32 * k)
  msgPassed : readsMsg i = true → passes s s.mptr.toNat (32 * k)
  key : readFrom s s.kptr.toNat key
  msg : readFrom s s.mptr.toNat msg

/-- What holds while a command's digest bytes are written, with `left` open and memory `m`. -/
structure Writing (i : Instr) (s : State) (m : List Host.Cell) (left : List Nat) : Prop where
  writes : i ∈ [Instr.std, .stdInc, .run]
  checked : Checked i s
  reads : readsPass i s
  wf : Memory.wf s.mem = true
  wfNow : Memory.wf m = true
  outside : sameOutside s.mem m s.digestRange
  places : ∀ o ∈ left, o < 64
  untouched : s.writeFails s.digestRange = true → m = s.mem ∧ left = List.range 64

/-- The command in flight while it reads. -/
def readingJob (c : Word) (i : Instr) (s : State) (k : Nat) (key msg : List (Nat × Byte)) : Job :=
  ⟨c, blocks i s, k, .read key msg⟩

/-- The command in flight while it writes, nobody else having written since its results were settled. -/
def writingJob (c : Word) (s : State) (n k : Nat) (left : List Nat) : Job := ⟨c, n, k, .write left s.dirty.length⟩

def readingState (c : Word) (i : Instr) (s : State) (k : Nat) (key msg : List (Nat × Byte)) : State :=
  (loopState i s k).withJob (some (readingJob c i s k key msg))

def writingState (c : Word) (i : Instr) (s : State) (n k : Nat) (m : List Host.Cell) (left : List Nat) : State :=
  ({ results i s with mem := m } : State).withJob (some (writingJob c s n k left))

@[simp] theorem readingState_job (c : Word) (i : Instr) (s : State) (k : Nat) (key msg : List (Nat × Byte)) :
    (readingState c i s k key msg).job = some (readingJob c i s k key msg) := State.withJob_job _ _

@[simp] theorem writingState_job (c : Word) (i : Instr) (s : State) (n k : Nat) (m : List Host.Cell) (left : List Nat) :
    (writingState c i s n k m left).job = some (writingJob c s n k left) := State.withJob_job _ _

/-- State `t` is the end of the command. -/
structure Ended (i : Instr) (s t : State) : Prop where
  exec : exec i s = .next t
  job : t.job = none

/-- An outcome is the end of the command. -/
def isEnd (i : Instr) (s : State) (o : Host.Outcome State Fault Refusal) : Prop := ∃ t, o = .next t ∧ Ended i s t

/-- A command whose checks pass has an end. -/
theorem isEnd_of_eq {i : Instr} {s : State} {o : Host.Outcome State Fault Refusal} (h : Checked i s) (ho : o = exec i s) :
    isEnd i s o := by
  obtain ⟨e, u, hend⟩ := (exec_vettedAs i h.lengths).clear h.vet
  exact ⟨u.complete e, ho.trans hend, hend, rfl⟩

/-! ### Reads -/

section
variable {c : Word} {i : Instr} {s : State} {k : Nat} {key msg : List (Nat × Byte)}

theorem Reading.keyRead {o : Nat} (h : Reading i s k key msg) (hr : s.readFails ⟨s.kptr.toNat + o, 1⟩ = false) :
    Reading i s k ((o, Memory.read s.mem (s.kptr.toNat + o)) :: key) msg where
  __ := h
  key := by
    rintro o' b (_ | ⟨_, hmem⟩)
    · exact ⟨rfl, hr⟩
    · exact h.key o' b hmem

theorem Reading.msgRead {o : Nat} (h : Reading i s k key msg) (hr : s.readFails ⟨s.mptr.toNat + o, 1⟩ = false) :
    Reading i s k key ((o, Memory.read s.mem (s.mptr.toNat + o)) :: msg) where
  __ := h
  msg := by
    rintro o' b (_ | ⟨_, hmem⟩)
    · exact ⟨rfl, hr⟩
    · exact h.msg o' b hmem

/-- The places of the blocks a command reads lie in its ranges. -/
theorem lt_inputLength {o : Nat}
    (ho : (readingJob c i s k key msg).unparsed o = true) : o < inputLength i s := by
  have hlt : o < 32 * blocks i s := ((Job.unparsed_iff _ _).1 ho).2
  unfold blocks at hlt
  unfold inputLength
  split at hlt
  · rename_i hi
    simp only [State.blockCount, Config.blockBytes_eq, hi, if_true] at hlt ⊢
    omega
  · rename_i hi
    simpa [hi] using hlt

/-- What an error response to a read leaves does not depend on the blocks parsed before it. -/
theorem failRead_loopState (x : Option Job) (hi : i ∈ [Instr.ldk, .ldkInc, .ldm, .ldmInc, .blk, .blkInc, .run]) :
    failRead i ((loopState i s k).withJob x) = failRead i s := by
  cases i with
  | nop | clracc | add32 | mix | acc64 | std | stdInc => simp at hi
  | ldk | ldkInc | ldm | ldmInc | blk | blkInc => rfl
  | run =>
    refine raise_anyRun_congr (u := s) ?_ .bus
    have hrun : loopState .run s k = s.startRun.runBlocks k 0 := rfl
    have hfr := State.runBlocks_startRun_frame s k
    rw [hrun]
    generalize s.startRun.runBlocks k 0 = u at *
    rw [hfr]
    rfl

theorem answer_readingState (hd : decode c = .command i) (a : Access) :
    answer a (readingState c i s k key msg) =
      answerCommand i (readingJob c i s k key msg) a (readingState c i s k key msg) :=
  answer_command (readingState_job c i s k key msg) hd a

/-- The port reads a byte of the key: the command ends with BUS, or the byte joins those read. -/
theorem Reading.answer_key {o : Nat} (h : Reading i s k key msg) (hd : decode c = .command i) (hr : readsKey i = true)
    (hu : (readingJob c i s k key msg).unparsed o = true) (hn : hasByte key o = false) :
    isEnd i s (answer (.key o) (readingState c i s k key msg)) ∨
      ∃ b, answer (.key o) (readingState c i s k key msg) = .next (readingState c i s k ((o, b) :: key) msg) ∧
        Reading i s k ((o, b) :: key) msg := by
  have hfails : (readingState c i s k key msg).readFails ⟨(readingState c i s k key msg).place (.key o), 1⟩ =
      s.readFails ⟨s.kptr.toNat + o, 1⟩ := by
    simp [readingState, State.place, State.withJob, State.readFails]
  rw [answer_readingState hd, answerCommand, if_pos (issued_key_iff.2 ⟨key, msg, rfl, hr, hu, hn⟩)]
  simp only [perform, hfails]
  cases hb : s.readFails ⟨s.kptr.toNat + o, 1⟩ with
  | true =>
    refine .inl (isEnd_of_eq h.checked ?_)
    rw [if_pos rfl, readingState, failRead_loopState _ h.reads]
    exact (exec_of_not_readsPass h.checked fun hw =>
      not_readsWell_of_byte (lt_inputLength hu) hb (hw.1 hr)).symm
  | false =>
    refine .inr ⟨_, ?_, h.keyRead hb⟩
    rw [if_neg Bool.false_ne_true]
    simp [readingState, State.place, readingJob, Job.gotKey, State.setJob_eq, State.withJob]

/-- The same of the message. -/
theorem Reading.answer_msg {o : Nat} (h : Reading i s k key msg) (hd : decode c = .command i) (hr : readsMsg i = true)
    (hu : (readingJob c i s k key msg).unparsed o = true) (hn : hasByte msg o = false) :
    isEnd i s (answer (.msg o) (readingState c i s k key msg)) ∨
      ∃ b, answer (.msg o) (readingState c i s k key msg) = .next (readingState c i s k key ((o, b) :: msg)) ∧
        Reading i s k key ((o, b) :: msg) := by
  have hfails : (readingState c i s k key msg).readFails ⟨(readingState c i s k key msg).place (.msg o), 1⟩ =
      s.readFails ⟨s.mptr.toNat + o, 1⟩ := by
    simp [readingState, State.place, State.withJob, State.readFails]
  rw [answer_readingState hd, answerCommand, if_pos (issued_msg_iff.2 ⟨key, msg, rfl, hr, hu, hn⟩)]
  simp only [perform, hfails]
  cases hb : s.readFails ⟨s.mptr.toNat + o, 1⟩ with
  | true =>
    refine .inl (isEnd_of_eq h.checked ?_)
    rw [if_pos rfl, readingState, failRead_loopState _ h.reads]
    exact (exec_of_not_readsPass h.checked fun hw =>
      not_readsWell_of_byte (lt_inputLength hu) hb (hw.2 hr)).symm
  | false =>
    refine .inr ⟨_, ?_, h.msgRead hb⟩
    rw [if_neg Bool.false_ne_true]
    simp [readingState, State.place, readingJob, Job.gotMsg, State.setJob_eq, State.withJob]

end

end Sys2Proof.Claims
end

section
/-!
SUPPORT. The sequencer's own step while a command reads: it waits for its block, parses it and goes on to the next one, or
ends, or issues its writes (spec/43_driver.md R202, R203).
-/

namespace Sys2Proof.Claims

open Sys2Proof.Machine

section
variable {c : Word} {i : Instr} {s : State} {k : Nat} {key msg : List (Nat × Byte)}

/-- A command reads whole blocks. -/
theorem inputLength_eq (h : i = .run → lengthsOk s) : inputLength i s = 32 * blocks i s := by
  unfold inputLength blocks
  split
  case isTrue hi =>
    obtain ⟨-, -, hmod⟩ := h hi
    simp only [State.blockCount, Config.blockBytes_eq]
    omega
  case isFalse => rfl

/-- Once every block passed, so did the reads of the command. -/
theorem readsPass_of_passes (h : Checked i s) (hk : readsKey i = true → passes s s.kptr.toNat (32 * blocks i s))
    (hm : readsMsg i = true → passes s s.mptr.toNat (32 * blocks i s)) : readsPass i s := by
  rw [← inputLength_eq h.lengths] at hk hm
  exact ⟨fun hr => readsWell_of_bytes (hk hr), fun hr => readsWell_of_bytes (hm hr)⟩

/-- Once its bytes are there, a further block has passed. -/
theorem passes_succ {a : Nat} {bytes : List (Nat × Byte)} (h : passes s a (32 * k)) (hf : readFrom s a bytes)
    (hall : (readingJob c i s k key msg).places.all (fun o => hasByte bytes o) = true) : passes s a (32 * (k + 1)) := by
  intro o ho
  by_cases hlt : o < 32 * k
  · exact h o hlt
  · have hmem : o ∈ (readingJob c i s k key msg).places := (Job.mem_places _ _).2 ⟨Nat.not_lt.1 hlt, ho⟩
    exact (hf _ _ (byteAt_mem (List.all_eq_true.1 hall o hmem))).2

theorem readFrom_later {a : Nat} {bytes : List (Nat × Byte)} (j : Job) (h : readFrom s a bytes) :
    readFrom s a (j.later bytes) :=
  fun o b hmem => h o b (List.mem_of_mem_filter hmem)

theorem blockThere_iff {j : Job} :
    j.blockThere i key msg = true ↔
      (readsKey i = true → j.places.all (fun o => hasByte key o) = true) ∧
        (readsMsg i = true → j.places.all (fun o => hasByte msg o) = true) := by
  unfold Job.blockThere
  cases readsKey i <;> cases readsMsg i <;> simp

/-- RUN combines, mixes, accumulates and counts block `k`. -/
theorem loopState_succ :
    loopState .run s (k + 1) = ((loopState .run s k).foldBytes (Memory.readBytes s.mem (s.kptr.toNat + 32 * k) 32)
      (Memory.readBytes s.mem (s.mptr.toNat + 32 * k) 32)).countBlock k := by
  have hkptr := loopState_kptr .run s k
  have hmptr := loopState_mptr .run s k
  have hmem := loopState_mem .run s k
  have hrun (n : Nat) : loopState .run s n = s.startRun.runBlocks n 0 := rfl
  rw [hrun, State.runBlocks_succ, ← hrun, Nat.zero_add]
  unfold State.passBlock State.fetch State.keyBlock State.msgBlock
  rw [hkptr, hmptr, hmem, Config.blockBytes_eq]

/-- The bytes of the current block are those of memory. -/
theorem blockBytes_of_readFrom {a : Nat} {bytes : List (Nat × Byte)} {j : Job} (h : readFrom s a bytes)
    (hall : j.places.all (fun o => hasByte bytes o) = true) :
    j.blockBytes bytes = Memory.readBytes s.mem (a + 32 * j.k) 32 :=
  Job.blockBytes_eq_readBytes hall fun o b hmem => (h o b hmem).1

theorem tick_readingState (hd : decode c = .command i) :
    tick (readingState c i s k key msg) = tickCommand i (readingJob c i s k key msg) (readingState c i s k key msg) :=
  tick_command (readingState_job c i s k key msg) hd

/-- The sequencer waits for the bytes of its block. -/
theorem tick_reading_waits (hd : decode c = .command i)
    (hthere : ¬(readingJob c i s k key msg).blockThere i key msg = true) :
    tick (readingState c i s k key msg) = .next (readingState c i s k key msg) := by
  rw [tick_readingState hd]
  exact if_neg hthere

/-- The sequencer parses a block that is there. -/
theorem tick_reading_block (hd : decode c = .command i)
    (hthere : (readingJob c i s k key msg).blockThere i key msg = true) :
    tick (readingState c i s k key msg) =
      tickBlock i (readingJob c i s k key msg) key msg (readingState c i s k key msg) := by
  rw [tick_readingState hd]
  exact if_pos hthere

/-- LDK, LDM and BLK end with their block. -/
theorem Reading.tick_ends (h : Reading i s k key msg) (hd : decode c = .command i) (hi : i ≠ .run)
    (hthere : (readingJob c i s k key msg).blockThere i key msg = true) :
    isEnd i s (tick (readingState c i s k key msg)) := by
  have hblocks : blocks i s = 1 := if_neg hi
  have hk0 : k = 0 := by have := h.lt; omega
  subst hk0
  obtain ⟨hkey, hmsg⟩ := blockThere_iff.1 hthere
  have hpass : readsPass i s := readsPass_of_passes h.checked
    (fun hr => hblocks ▸ passes_succ (h.keyPassed hr) h.key (hkey hr))
    (fun hr => hblocks ▸ passes_succ (h.msgPassed hr) h.msg (hmsg hr))
  refine isEnd_of_eq h.checked ((tick_reading_block hd hthere).trans ?_)
  have hloop : loopState i s 0 = s := if_neg hi
  rw [readingState, hloop]
  refine tickBlock_eq_exec _ ?_ h.checked hpass (fun hr => blockBytes_of_readFrom h.key (hkey hr))
    (fun hr => blockBytes_of_readFrom h.msg (hmsg hr))
  have := h.reads
  simp only [List.mem_cons, List.not_mem_nil, or_false] at this ⊢
  tauto

/-- RUN goes on to its next block. -/
theorem Reading.tick_goesOn (h : Reading .run s k key msg) (hd : decode c = .command .run) (hlt : k + 1 < blocks .run s)
    (hthere : (readingJob c .run s k key msg).blockThere .run key msg = true) :
    ∃ key' msg', tick (readingState c .run s k key msg) = .next (readingState c .run s (k + 1) key' msg') ∧
      Reading .run s (k + 1) key' msg' := by
  obtain ⟨hkey, hmsg⟩ := blockThere_iff.1 hthere
  refine ⟨(readingJob c .run s k key msg).later key, (readingJob c .run s k key msg).later msg, ?_, ?_⟩
  · rw [tick_reading_block hd hthere]
    unfold tickBlock
    dsimp only
    rw [blockBytes_of_readFrom h.key (hkey rfl), blockBytes_of_readFrom h.msg (hmsg rfl), nextBlock, if_pos (by exact hlt),
      readingState, State.withJob_foldBytes]
    rw [readingState, loopState_succ]
    rfl
  · exact ⟨h.reads, h.checked, hlt, fun hr => passes_succ (h.keyPassed hr) h.key (hkey rfl),
      fun hr => passes_succ (h.msgPassed hr) h.msg (hmsg rfl), readFrom_later _ h.key, readFrom_later _ h.msg⟩

theorem readingJob_k : (readingJob c i s k key msg).k = k := rfl

theorem countBlock_withJob (u : State) (x : Option Job) (n : Nat) :
    (u.withJob x).countBlock n = (u.countBlock n).withJob x := rfl

theorem issueWrites_withJob (u : State) (x : Option Job) (j : Job) :
    (u.withJob x).issueWrites j = u.withJob (some { j with phase := .write (List.range 64) u.dirty.length }) := by
  rw [← Config.digestBytes_eq]
  rfl

/-- What a command has when it issues its writes. -/
theorem Writing.issued (hi : i ∈ [Instr.std, .stdInc, .run]) (h : Checked i s) (hr : readsPass i s)
    (hwf : Memory.wf s.mem = true) : Writing i s s.mem (List.range 64) :=
  ⟨hi, h, hr, hwf, hwf, fun _ _ => rfl, fun _ => List.mem_range.1, fun _ => ⟨rfl, rfl⟩⟩

/-- After its last block RUN issues its writes. -/
theorem Reading.tick_issues (h : Reading .run s k key msg) (hd : decode c = .command .run) (hlt : ¬k + 1 < blocks .run s)
    (hwf : Memory.wf s.mem = true) (hthere : (readingJob c .run s k key msg).blockThere .run key msg = true) :
    tick (readingState c .run s k key msg) =
        .next (writingState c .run s (blocks .run s) k s.mem (List.range 64)) ∧
      Writing .run s s.mem (List.range 64) := by
  obtain ⟨hkey, hmsg⟩ := blockThere_iff.1 hthere
  have hlast : k + 1 = blocks .run s := by have := h.lt; omega
  constructor
  · have hresults : results .run s = (loopState .run s (k + 1)).settleRun := by rw [hlast]; rfl
    rw [tick_reading_block hd hthere]
    unfold tickBlock
    dsimp only
    rw [blockBytes_of_readFrom h.key (hkey rfl), blockBytes_of_readFrom h.msg (hmsg rfl), nextBlock, if_neg (by exact hlt),
      readingState, State.withJob_foldBytes]
    rw [countBlock_withJob, readingJob_k, ← loopState_succ, State.withJob_settleRun, ← hresults, writingState,
      results_withMem_self, issueWrites_withJob, results_dirty]
    rfl
  · exact Writing.issued (by simp) h.checked (readsPass_of_passes h.checked
      (fun hr => hlast ▸ passes_succ (h.keyPassed hr) h.key (hkey rfl))
      (fun hr => hlast ▸ passes_succ (h.msgPassed hr) h.msg (hmsg rfl))) hwf

end

end Sys2Proof.Claims
end

section
/-!
SUPPORT. A command that writes its digest: the answers of the memory port to its writes, and its end (spec/40_codec.md R145,
43_driver.md R204, 60_exceptions.md R247).
-/

namespace Sys2Proof.Claims

open Sys2Proof.Machine

section
variable {c : Word} {i : Instr} {s : State} {n k : Nat} {m : List Host.Cell} {left : List Nat}

/-- A command that writes has the digest range admitted. -/
theorem fits_digestRange (hi : i ∈ [Instr.std, .stdInc, .run]) (h : Checked i s) : fits s.digestRange := by
  have hmem : s.digestRange ∈ ranges i s := by
    simp only [List.mem_cons, List.not_mem_nil, or_false] at hi
    obtain rfl | rfl | rfl := hi <;> simp [ranges, State.digestRange]
  exact (h.ordinary _ hmem).1

/-- The port writes an issued byte of the digest: the command ends, or the byte is in memory and off the open ones. -/
theorem answer_writingState {o : Nat} (hd : decode c = .command i) (ho : o ∈ left) :
    answer (.digest o) (writingState c i s n k m left) =
      if s.writeFails ⟨s.dptr.toNat + o, 1⟩ then failWrite i (writingState c i s n k m left)
      else .next (writingState c i s n k
        (Memory.write m (s.dptr.toNat + o) ((serializeWords (results i s).acc).getD o 0)) (left.erase o)) := by
  have hdptr := results_dptr i s
  have hdirty := results_dirty i s
  have hplatform := results_platform i s
  have hissued : (writingJob c s n k left).issued i (.digest o) = true := issued_digest_iff.2 ⟨left, _, rfl, ho⟩
  have hanswer : answer (.digest o) (writingState c i s n k m left) =
      answerCommand i (writingJob c s n k left) (.digest o) (writingState c i s n k m left) :=
    answer_command (writingState_job c i s n k m left) hd _
  have hfails : (writingState c i s n k m left).writeFails ⟨s.dptr.toNat + o, 1⟩ = s.writeFails ⟨s.dptr.toNat + o, 1⟩ :=
    State.writeFails_congr (by exact hplatform) _
  have hseen : (writingJob c s n k left).seen = (writingState c i s n k m left).dirty.length := congrArg _ hdirty.symm
  rw [hanswer, answerCommand, if_pos hissued, perform, hseen, State.settleLate_self, performWrite]
  have hplace : (writingState c i s n k m left).place (.digest o) = s.dptr.toNat + o := congrArg (·.toNat + o) hdptr
  rw [hplace, hfails, wrote_of_write o _ rfl, ← hseen]
  unfold State.putByte
  unfold writingState at *
  generalize results i s = r at *
  rw [← hdptr]
  rfl

/-- An error response to a byte of the digest ends the command with BUS. -/
theorem Writing.answer_fails {o : Nat} (h : Writing i s m left) (hd : decode c = .command i) (ho : o ∈ left)
    (hf : s.writeFails ⟨s.dptr.toNat + o, 1⟩ = true) :
    isEnd i s (answer (.digest o) (writingState c i s n k m left)) := by
  have hrange : s.writeFails s.digestRange = true := (State.writeFails_bytes _ _ _).2 ⟨o, h.places o ho, hf⟩
  obtain ⟨rfl, -⟩ := h.untouched hrange
  refine isEnd_of_eq h.checked ?_
  rw [answer_writingState hd ho, if_pos hf, exec_of_readsPass h.writes h.checked h.reads, if_pos hrange, writingState,
    results_withMem_self, failWrite_withJob _ _ h.writes]

/-- Where the digest meets no error, a byte of it is written. -/
theorem Writing.answer_writes {o : Nat} (h : Writing i s m left) (hd : decode c = .command i) (ho : o ∈ left)
    (hw : writesWell s s.digestRange) :
    ∃ m', answer (.digest o) (writingState c i s n k m left) = .next (writingState c i s n k m' (left.erase o)) ∧
      Writing i s m' (left.erase o) := by
  have hlt : o < 64 := h.places o ho
  have hfits : s.dptr.toNat + 64 ≤ 2 ^ 32 := fits_digestRange h.writes h.checked
  have hin : s.dptr.toNat + o < 2 ^ 32 := by omega
  refine ⟨Memory.write m (s.dptr.toNat + o) ((serializeWords (results i s).acc).getD o 0), ?_,
    h.writes, h.checked, h.reads, h.wf, Memory.wf_write _ hin h.wfNow, fun a ha => ?_,
    fun o' ho' => h.places o' (List.mem_of_mem_erase ho'), fun hf => ?_⟩
  · rw [answer_writingState hd ho, if_neg]
    exact ne_true_of_eq_false (writeFails_byte hw hlt)
  · have hother : a ≠ s.dptr.toNat + o := by
      have := not_inside_digest_iff.1 ha
      omega
    exact (Memory.read_write_other _ _ hother).trans (h.outside a ha)
  · exact absurd (((writesWell_iff _ _).1 hw).symm.trans hf) Bool.false_ne_true

theorem tick_writingState (hd : decode c = .command i) :
    tick (writingState c i s n k m left) =
      if left.isEmpty then tickStored i (writingState c i s n k m left) else .next (writingState c i s n k m left) := by
  have hdirty : (writingState c i s n k m left).dirty.length = s.dirty.length := congrArg _ (results_dirty i s)
  have hself : (writingState c i s n k m left).settleLate i s.dirty.length = writingState c i s n k m left := by
    rw [← hdirty]
    exact State.settleLate_self _ _
  rw [tick_command (writingState_job c i s n k m left) hd]
  exact congrArg (fun u => if left.isEmpty then tickStored i u else _) hself

/-- When every byte is written the command ends. -/
theorem Writing.tick_ends (h : Writing i s m []) (hd : decode c = .command i) :
    isEnd i s (tick (writingState c i s n k m [])) := by
  have hw : ¬s.writeFails s.digestRange = true := fun hf => by
    have := (h.untouched hf).2
    simp at this
  have hrange : (results i s).digestRange = s.digestRange := State.digestRange_congr (results_dptr i s)
  refine isEnd_of_eq h.checked ?_
  rw [tick_writingState hd, List.isEmpty_nil, if_pos rfl, exec_of_readsPass h.writes h.checked h.reads, if_neg hw,
    writingState]
  refine tickStored_withMem _ h.writes ?_ h.wfNow ?_ ?_
  · rw [results_mem]
    exact h.wf
  · rw [hrange]
    exact fits_digestRange h.writes h.checked
  · rw [hrange, results_mem]
    exact h.outside

end

end Sys2Proof.Claims
end

section
/-!
SUPPORT. The first step of a command, and every state its own steps and the port's answers lead to (spec/10_state.md R60,
20_memory.md R86 to R89).
-/

namespace Sys2Proof.Claims

open Sys2Proof.Machine

/-! ### The first step -/

section
variable {c : Word} {i : Instr} {s : State}

/-- A command one of whose ranges is not admitted is rejected or refused at its first step. -/
theorem tickStart_of_not_clear (j : Job) (hl : i = .run → lengthsOk s) (hv : s.vet (ranges i s) ≠ .clear) :
    tickStart i j s = exec i s := by
  have hexec := exec_vettedAs i hl
  cases ha : s.vet (ranges i s) with
  | clear => exact absurd ha hv
  | pastTop =>
    rw [hexec.pastTop ha]
    cases i with
    | nop | clracc | add32 | mix | acc64 => cases ha
    | ldk | ldkInc | ldm | ldmInc | blk | blkInc => exact enter_pastTop ha
    | std | stdInc => exact enterStore_pastTop ha
    | run =>
      have hlen : s.checkLengths = none := (lengthsOk_iff s).2 (hl rfl)
      simp only [tickStart, hlen]
      exact enterStore_pastTop ha
  | device =>
    rw [hexec.device ha]
    cases i with
    | nop | clracc | add32 | mix | acc64 => cases ha
    | ldk | ldkInc | ldm | ldmInc | blk | blkInc => exact enter_device ha
    | std | stdInc => exact enterStore_device ha
    | run =>
      have hlen : s.checkLengths = none := (lengthsOk_iff s).2 (hl rfl)
      simp only [tickStart, hlen]
      exact enterStore_device ha

/-- A command that reads issues its reads once its checks pass. -/
theorem tickStart_reads (h : Checked i s) (hi : i ∈ [Instr.ldk, .ldkInc, .ldm, .ldmInc, .blk, .blkInc, .run]) :
    tickStart i ⟨c, 0, 0, .start⟩ s = .next (readingState c i s 0 [] []) := by
  have hvet := h.vet
  cases i with
  | nop | clracc | add32 | mix | acc64 | std | stdInc => simp at hi
  | ldk | ldkInc | ldm | ldmInc | blk | blkInc => exact enter_clear hvet
  | run =>
    have hlen : s.checkLengths = none := (lengthsOk_iff s).2 (h.lengths rfl)
    simp only [tickStart, hlen]
    exact enterStore_clear hvet

/-- STD issues its writes once its checks pass. -/
theorem tickStart_writes (h : Checked i s) (hi : i ∈ [Instr.std, .stdInc]) :
    tickStart i ⟨c, 0, 0, .start⟩ s = .next (writingState c i s 0 0 s.mem (List.range 64)) := by
  have hvet := h.vet
  rw [writingState, results_withMem_self]
  simp only [List.mem_cons, List.not_mem_nil, or_false] at hi
  obtain rfl | rfl := hi <;> exact enterStore_clear hvet

theorem Reading.first (h : Checked i s) (hi : i ∈ [Instr.ldk, .ldkInc, .ldm, .ldmInc, .blk, .blkInc, .run]) :
    Reading i s 0 [] [] := by
  have hlt : 0 < blocks i s := by
    unfold blocks
    split
    case isFalse => exact Nat.one_pos
    case isTrue hrun =>
      obtain ⟨hpos, -, hmod⟩ := h.lengths hrun
      have : s.mlen.toNat ≠ 0 := fun h0 => hpos (BitVec.eq_of_toNat_eq h0)
      simp only [State.blockCount, Config.blockBytes_eq]
      omega
  exact ⟨hi, h, hlt, fun _ _ ho => absurd ho (Nat.not_lt_zero _), fun _ _ ho => absurd ho (Nat.not_lt_zero _), nofun,
    nofun⟩

/-- The first step of a command is its meaning, or issues its reads, or issues its writes. -/
theorem tickStart_cases (c : Word) (i : Instr) (hwf : Memory.wf s.mem = true) :
    tickStart i ⟨c, 0, 0, .start⟩ s = exec i s ∨
      (tickStart i ⟨c, 0, 0, .start⟩ s = .next (readingState c i s 0 [] []) ∧ Reading i s 0 [] []) ∨
      (tickStart i ⟨c, 0, 0, .start⟩ s = .next (writingState c i s 0 0 s.mem (List.range 64)) ∧
        Writing i s s.mem (List.range 64)) := by
  by_cases hl : i = .run → lengthsOk s
  case neg =>
    obtain ⟨rfl, hbad⟩ := Classical.not_imp.1 hl
    obtain ⟨e, he⟩ := Option.ne_none_iff_exists'.1 (mt (lengthsOk_iff s).1 hbad)
    exact .inl (by simp only [tickStart, exec, execRun, he])
  by_cases hv : s.vet (ranges i s) = .clear
  case neg => exact .inl (tickStart_of_not_clear _ hl hv)
  have h : Checked i s := ⟨hv, hl⟩
  by_cases hr : i ∈ [Instr.ldk, .ldkInc, .ldm, .ldmInc, .blk, .blkInc, .run]
  · exact .inr (.inl ⟨tickStart_reads h hr, .first h hr⟩)
  by_cases hw : i ∈ [Instr.std, .stdInc]
  · refine .inr (.inr ⟨tickStart_writes h hw, ?_⟩)
    simp only [List.mem_cons, List.not_mem_nil, or_false] at hw
    obtain rfl | rfl := hw <;> exact .issued (by simp) h ⟨nofun, nofun⟩ hwf
  · refine .inl ?_
    cases i with
    | nop | clracc | add32 | mix | acc64 => rfl
    | _ => simp at hr hw

end

/-! ### What comes after it -/

/-- Where the sequencer's own steps and the port's answers take a command that was accepted in `s`. -/
inductive Underway (c : Word) (i : Instr) (s : State) : State → Prop
  | start : Underway c i s s
  | reading {k : Nat} {key msg : List (Nat × Byte)} (h : Reading i s k key msg) :
    Underway c i s (readingState c i s k key msg)
  | writing {n k : Nat} {m : List Host.Cell} {left : List Nat} (h : Writing i s m left) :
    Underway c i s (writingState c i s n k m left)
  | ended {t : State} (h : Ended i s t) : Underway c i s t

/-- Every next state an outcome is lies on the command's way. -/
def leadsOn (c : Word) (i : Instr) (s : State) (o : Host.Outcome State Fault Refusal) : Prop :=
  ∀ v, o = .next v → Underway c i s v

section
variable {c : Word} {i : Instr} {s : State}

theorem leadsOn_next {o : Host.Outcome State Fault Refusal} {v : State} (h : o = .next v) (hv : Underway c i s v) :
    leadsOn c i s o := by
  intro w hw
  cases h.symm.trans hw
  exact hv

theorem leadsOn_end {o : Host.Outcome State Fault Refusal} (h : isEnd i s o) : leadsOn c i s o := by
  obtain ⟨t, ho, hend⟩ := h
  exact leadsOn_next ho (.ended hend)

/-- An access the sequencer has not issued is not answered. -/
theorem answer_unissued {v : State} {j : Job} {a : Access} (hj : v.job = some j) (hd : decode j.word = .command i)
    (h : ¬j.issued i a = true) : answer a v = .next v := by
  rw [answer_command hj hd, answerCommand, if_neg h]

theorem leadsOn_start_tick (hwf : Memory.wf s.mem = true) (hj : s.job = some ⟨c, 0, 0, .start⟩)
    (hd : decode c = .command i) : leadsOn c i s (tick s) := by
  have htick : tick s = tickStart i ⟨c, 0, 0, .start⟩ s := tick_command hj hd
  obtain h | ⟨h, hread⟩ | ⟨h, hwrite⟩ := tickStart_cases c i hwf
  · intro t ht
    have hexec : exec i s = .next t := (htick.trans h).symm.trans ht
    obtain ⟨e, u, rfl, -⟩ := exec_next hexec
    exact .ended ⟨hexec, rfl⟩
  · exact leadsOn_next (htick.trans h) (.reading hread)
  · exact leadsOn_next (htick.trans h) (.writing hwrite)

theorem Reading.leadsOn_answer {k : Nat} {key msg : List (Nat × Byte)} (h : Reading i s k key msg)
    (hd : decode c = .command i) (a : Access) : leadsOn c i s (answer a (readingState c i s k key msg)) := by
  by_cases hiss : (readingJob c i s k key msg).issued i a = true
  case neg => exact leadsOn_next (answer_unissued (readingState_job c i s k key msg) hd hiss) (.reading h)
  cases a with
  | key o =>
    obtain ⟨key', msg', hp, hr, hu, hn⟩ := issued_key_iff.1 hiss
    cases hp
    obtain hend | ⟨b, hnext, hread⟩ := h.answer_key hd hr hu hn
    · exact leadsOn_end hend
    · exact leadsOn_next hnext (.reading hread)
  | msg o =>
    obtain ⟨key', msg', hp, hr, hu, hn⟩ := issued_msg_iff.1 hiss
    cases hp
    obtain hend | ⟨b, hnext, hread⟩ := h.answer_msg hd hr hu hn
    · exact leadsOn_end hend
    · exact leadsOn_next hnext (.reading hread)
  | digest o =>
    obtain ⟨left, seen, hp, -⟩ := issued_digest_iff.1 hiss
    cases hp

/-- Once its block is there a command ends, reads on or writes. -/
theorem Reading.tick_cases {k : Nat} {key msg : List (Nat × Byte)} (h : Reading i s k key msg)
    (hd : decode c = .command i) (hwf : Memory.wf s.mem = true)
    (hthere : (readingJob c i s k key msg).blockThere i key msg = true) :
    isEnd i s (tick (readingState c i s k key msg)) ∨
      (∃ key' msg', tick (readingState c i s k key msg) = .next (readingState c i s (k + 1) key' msg') ∧
        Reading i s (k + 1) key' msg') ∨
      ∃ n, tick (readingState c i s k key msg) = .next (writingState c i s n k s.mem (List.range 64)) ∧
        Writing i s s.mem (List.range 64) := by
  by_cases hi : i = .run
  case neg => exact .inl (h.tick_ends hd hi hthere)
  subst hi
  by_cases hlt : k + 1 < blocks .run s
  · exact .inr (.inl (h.tick_goesOn hd hlt hthere))
  · exact .inr (.inr ⟨_, h.tick_issues hd hlt hwf hthere⟩)

theorem Reading.leadsOn_tick {k : Nat} {key msg : List (Nat × Byte)} (h : Reading i s k key msg)
    (hd : decode c = .command i) (hwf : Memory.wf s.mem = true) :
    leadsOn c i s (tick (readingState c i s k key msg)) := by
  by_cases hthere : (readingJob c i s k key msg).blockThere i key msg = true
  case neg => exact leadsOn_next (tick_reading_waits hd hthere) (.reading h)
  obtain hend | ⟨key', msg', hnext, hread⟩ | ⟨n, hnext, hwrite⟩ := h.tick_cases hd hwf hthere
  · exact leadsOn_end hend
  · exact leadsOn_next hnext (.reading hread)
  · exact leadsOn_next hnext (.writing hwrite)

theorem Writing.leadsOn_answer {n k : Nat} {m : List Host.Cell} {left : List Nat} (h : Writing i s m left)
    (hd : decode c = .command i) (hw : writesWell s s.digestRange) (a : Access) :
    leadsOn c i s (answer a (writingState c i s n k m left)) := by
  by_cases hiss : (writingJob c s n k left).issued i a = true
  case neg => exact leadsOn_next (answer_unissued (writingState_job c i s n k m left) hd hiss) (.writing h)
  cases a with
  | key o =>
    obtain ⟨key, msg, hp, -⟩ := issued_key_iff.1 hiss
    cases hp
  | msg o =>
    obtain ⟨key, msg, hp, -⟩ := issued_msg_iff.1 hiss
    cases hp
  | digest o =>
    obtain ⟨left', seen, hp, ho⟩ := issued_digest_iff.1 hiss
    cases hp
    obtain ⟨m', hnext, hwrite⟩ := h.answer_writes hd ho hw
    exact leadsOn_next hnext (.writing hwrite)

theorem Writing.leadsOn_tick {n k : Nat} {m : List Host.Cell} {left : List Nat} (h : Writing i s m left)
    (hd : decode c = .command i) : leadsOn c i s (tick (writingState c i s n k m left)) := by
  cases left with
  | nil => exact leadsOn_end (h.tick_ends hd)
  | cons o rest => exact leadsOn_next (tick_writingState hd) (.writing h)

/-- With nothing in flight the sequencer does nothing and no access is open. -/
theorem handle_own_idle {v : State} {e : Event} (he : own e) (hj : v.job = none) : handle e v = .next v := by
  obtain rfl | ⟨a, rfl⟩ := he
  · simp only [handle, tick, hj]
  · simp only [handle, answer, hj]

/-- A command's own steps and the port's answers stay on its way. -/
theorem Underway.step {v : State} {e : Event} (h : Underway c i s v) (hwf : Memory.wf s.mem = true)
    (hj : s.job = some ⟨c, 0, 0, .start⟩) (hd : decode c = .command i)
    (hw : i ∈ [Instr.std, .stdInc, .run] → writesWell s s.digestRange) (he : own e) : leadsOn c i s (handle e v) := by
  cases h with
  | start =>
    obtain rfl | ⟨a, rfl⟩ := he
    · exact leadsOn_start_tick hwf hj hd
    · exact leadsOn_next (answer_unissued hj hd Bool.false_ne_true) .start
  | reading hread =>
    obtain rfl | ⟨a, rfl⟩ := he
    · exact hread.leadsOn_tick hd hwf
    · exact hread.leadsOn_answer hd a
  | writing hwrite =>
    obtain rfl | ⟨a, rfl⟩ := he
    · exact hwrite.leadsOn_tick hd
    · exact hwrite.leadsOn_answer hd (hw hwrite.writes) a
  | ended hend => exact leadsOn_next (handle_own_idle he hend.job) (.ended hend)

theorem Underway.run {v u : State} {es : List Event} (h : Underway c i s v) (hwf : Memory.wf s.mem = true)
    (hj : s.job = some ⟨c, 0, 0, .start⟩) (hd : decode c = .command i)
    (hw : i ∈ [Instr.std, .stdInc, .run] → writesWell s s.digestRange) (hes : ∀ e ∈ es, own e)
    (hrun : runEvents es v = .next u) : Underway c i s u := by
  induction es generalizing v with
  | nil =>
    cases hrun
    exact h
  | cons e es ih =>
    have hstep := h.step hwf hj hd hw (hes e List.mem_cons_self)
    cases hh : handle e v with
    | next v' =>
      rw [runEvents_cons hh] at hrun
      exact ih (hstep v' hh) (fun e' he' => hes e' (List.mem_cons_of_mem _ he')) hrun
    | fault f => simp [runEvents, hh] at hrun
    | refused q => simp [runEvents, hh] at hrun

/-- Of the states on a command's way only its end has nothing in flight. -/
theorem Underway.ended_of_idle {v : State} (h : Underway c i s v) (hj : s.job = some ⟨c, 0, 0, .start⟩)
    (hidle : v.job = none) : Ended i s v := by
  cases h with
  | start => cases hj.symm.trans hidle
  | reading => simp at hidle
  | writing => simp at hidle
  | ended hend => exact hend

end

end Sys2Proof.Claims
end

section
/-! The statement about the order of a command's accesses (spec/20_memory.md R86, 43_driver.md R203). -/

namespace Sys2Proof.Claims

open Sys2Proof.Machine

/-- Settles O56: on a command's way only its end is idle, and that end is its meaning. -/
theorem orderOfAccessesIsIrrelevant : Obligations.OrderOfAccessesIsIrrelevant := by
  intro s u c i es hwf hj hd hw hes hrun hidle
  have hway : Underway c i s u := Underway.start.run hwf hj hd hw hes hrun
  exact (hway.ended_of_idle hj hidle).exec

end Sys2Proof.Claims
end

section
/-!
SUPPORT. A command's own steps and the port's answers can always take it to its end (spec/20_memory.md R86, 43_driver.md
R202 to R204): all of a block is read, the block is parsed, and after the last one the digest is written.
-/

namespace Sys2Proof.Claims

open Sys2Proof.Machine

/-- Some own steps and answers take state `v` to the end of the command. -/
def reachesEnd (i : Instr) (s v : State) : Prop :=
  ∃ es, (∀ e ∈ es, own e) ∧ ∃ t, runEvents es v = .next t ∧ Ended i s t

section
variable {c : Word} {i : Instr} {s : State}

theorem own_tick : own .tick := .inl rfl

theorem own_answer (a : Access) : own (.answer a) := .inr ⟨a, rfl⟩

theorem reachesEnd_of_step {v w : State} {e : Event} (he : own e) (h : handle e v = .next w) (hw : reachesEnd i s w) :
    reachesEnd i s v := by
  obtain ⟨es, hes, t, hrun, hend⟩ := hw
  exact ⟨e :: es, List.forall_mem_cons.2 ⟨he, hes⟩, t, (runEvents_cons h).trans hrun, hend⟩

theorem reachesEnd_of_isEnd {v : State} {e : Event} (he : own e) (h : isEnd i s (handle e v)) : reachesEnd i s v := by
  obtain ⟨t, ht, hend⟩ := h
  exact reachesEnd_of_step he ht ⟨[], by simp, t, rfl, hend⟩

/-- Every open byte of the digest is answered, and the command ends. -/
theorem Writing.reachesEnd_of_writesWell {n k : Nat} {left : List Nat} (hd : decode c = .command i)
    (hw : writesWell s s.digestRange) {m : List Host.Cell} (h : Writing i s m left) :
    reachesEnd i s (writingState c i s n k m left) := by
  induction left generalizing m with
  | nil => exact reachesEnd_of_isEnd own_tick (h.tick_ends hd)
  | cons o rest ih =>
    obtain ⟨m', hnext, hwrite⟩ := h.answer_writes (n := n) (k := k) hd List.mem_cons_self hw
    rw [List.erase_cons_head] at hnext hwrite
    exact reachesEnd_of_step (own_answer _) hnext (ih hwrite)

/-- The digest write ends the command, with BUS at a byte of it that meets an error. -/
theorem Writing.reachesEnd {n k : Nat} {m : List Host.Cell} {left : List Nat} (h : Writing i s m left)
    (hd : decode c = .command i) : reachesEnd i s (writingState c i s n k m left) := by
  cases hf : s.writeFails s.digestRange with
  | false => exact h.reachesEnd_of_writesWell hd ((writesWell_iff _ _).2 hf)
  | true =>
    obtain ⟨o, ho, hfails⟩ := (State.writeFails_bytes _ _ _).1 hf
    obtain ⟨-, rfl⟩ := h.untouched hf
    exact reachesEnd_of_isEnd (own_answer _) (h.answer_fails hd (List.mem_range.2 ho) hfails)

/-- The places of the block a command reads are issued. -/
theorem Reading.unparsed {k o : Nat} {key msg : List (Nat × Byte)} (h : Reading i s k key msg)
    (ho : o ∈ (readingJob c i s k key msg).places) : (readingJob c i s k key msg).unparsed o = true := by
  have hlt : k < blocks i s := h.lt
  have hmem : 32 * k ≤ o ∧ o < 32 * k + 32 := (Job.mem_places _ _).1 ho
  exact (Job.unparsed_iff _ _).2 ⟨hmem.1, show o < 32 * blocks i s by omega⟩

/-- While bytes of a block are read one at a time, the rest of it can be read before the command goes on. -/
theorem reachesEnd_of_reads {access : Nat → Access} {reading : List (Nat × Byte) → Prop}
    {state : List (Nat × Byte) → State} (places : List Nat)
    (hread : ∀ bytes, ∀ o ∈ places, reading bytes → hasByte bytes o = false →
      isEnd i s (answer (access o) (state bytes)) ∨
        ∃ b, answer (access o) (state bytes) = .next (state ((o, b) :: bytes)) ∧ reading ((o, b) :: bytes))
    {bytes : List (Nat × Byte)} (h : reading bytes)
    (hthen : ∀ bytes', reading bytes' → (∀ o ∈ places, hasByte bytes' o = true) → reachesEnd i s (state bytes')) :
    reachesEnd i s (state bytes) := by
  induction places with
  | nil => exact hthen bytes h (by simp)
  | cons o l ih =>
    refine ih (fun bytes' p hp => hread bytes' p (List.mem_cons_of_mem _ hp)) fun bytes' h' hall => ?_
    cases hn : hasByte bytes' o with
    | true => exact hthen bytes' h' (List.forall_mem_cons.2 ⟨hn, hall⟩)
    | false =>
      obtain hend | ⟨b, hnext, hb⟩ := hread bytes' o List.mem_cons_self h' hn
      · exact reachesEnd_of_isEnd (own_answer _) hend
      · refine reachesEnd_of_step (own_answer _) hnext (hthen _ hb (List.forall_mem_cons.2 ⟨?_, fun p hp => ?_⟩))
        · exact (hasByte_iff _ _).2 ⟨b, List.mem_cons_self⟩
        · obtain ⟨b', hb'⟩ := (hasByte_iff _ _).1 (hall p hp)
          exact (hasByte_iff _ _).2 ⟨b', List.mem_cons_of_mem _ hb'⟩

/-- The port can answer whatever is open of the key's block before the command goes on. -/
theorem Reading.reachesEnd_of_key {k : Nat} {key msg : List (Nat × Byte)} (h : Reading i s k key msg)
    (hd : decode c = .command i)
    (hthen : ∀ key', Reading i s k key' msg →
      (readsKey i = true → ∀ o ∈ (readingJob c i s k key msg).places, hasByte key' o = true) →
      reachesEnd i s (readingState c i s k key' msg)) :
    reachesEnd i s (readingState c i s k key msg) := by
  by_cases hr : readsKey i = true
  case neg => exact hthen key h fun hr' => absurd hr' hr
  exact reachesEnd_of_reads (access := .key) (reading := fun key' => Reading i s k key' msg)
    (state := fun key' => readingState c i s k key' msg) (readingJob c i s k key msg).places
    (fun _ _ ho h' hn => h'.answer_key hd hr (h'.unparsed ho) hn) h fun key' h' hall => hthen key' h' fun _ => hall

/-- The same of the message. -/
theorem Reading.reachesEnd_of_msg {k : Nat} {key msg : List (Nat × Byte)} (h : Reading i s k key msg)
    (hd : decode c = .command i)
    (hthen : ∀ msg', Reading i s k key msg' →
      (readsMsg i = true → ∀ o ∈ (readingJob c i s k key msg).places, hasByte msg' o = true) →
      reachesEnd i s (readingState c i s k key msg')) :
    reachesEnd i s (readingState c i s k key msg) := by
  by_cases hr : readsMsg i = true
  case neg => exact hthen msg h fun hr' => absurd hr' hr
  exact reachesEnd_of_reads (access := .msg) (reading := fun msg' => Reading i s k key msg')
    (state := fun msg' => readingState c i s k key msg') (readingJob c i s k key msg).places
    (fun _ _ ho h' hn => h'.answer_msg hd hr (h'.unparsed ho) hn) h fun msg' h' hall => hthen msg' h' fun _ => hall

/-- Block after block is read and parsed, and the command ends, after its digest write if it has one. -/
theorem Reading.reachesEnd {k : Nat} {key msg : List (Nat × Byte)} (h : Reading i s k key msg)
    (hd : decode c = .command i) (hwf : Memory.wf s.mem = true) :
    reachesEnd i s (readingState c i s k key msg) := by
  generalize hrest : blocks i s - k = rest
  induction rest generalizing k key msg with
  | zero =>
    have hlt : k < blocks i s := h.lt
    omega
  | succ rest ih =>
    refine h.reachesEnd_of_key hd fun key' h hkey => h.reachesEnd_of_msg hd fun msg' h hmsg => ?_
    have hthere : (readingJob c i s k key' msg').blockThere i key' msg' = true :=
      blockThere_iff.2 ⟨fun hr => List.all_eq_true.2 (hkey hr), fun hr => List.all_eq_true.2 (hmsg hr)⟩
    obtain hend | ⟨key'', msg'', hnext, hread⟩ | ⟨n, hnext, hwrite⟩ := h.tick_cases hd hwf hthere
    · exact reachesEnd_of_isEnd own_tick hend
    · exact reachesEnd_of_step own_tick hnext (ih hread (by omega))
    · exact reachesEnd_of_step own_tick hnext (hwrite.reachesEnd hd)

/-- From acceptance to the end its meaning gives. -/
theorem reachesEnd_of_accepted {t : State} (hwf : Memory.wf s.mem = true) (hj : s.job = some ⟨c, 0, 0, .start⟩)
    (hd : decode c = .command i) (hexec : exec i s = .next t) : reachesEnd i s s := by
  have htick : tick s = tickStart i ⟨c, 0, 0, .start⟩ s := tick_command hj hd
  obtain h | ⟨h, hread⟩ | ⟨h, hwrite⟩ := tickStart_cases c i hwf
  · obtain ⟨e, u, rfl, -⟩ := exec_next hexec
    exact reachesEnd_of_isEnd own_tick ⟨_, (htick.trans h).trans hexec, hexec, rfl⟩
  · exact reachesEnd_of_step own_tick (htick.trans h) (hread.reachesEnd hd hwf)
  · exact reachesEnd_of_step own_tick (htick.trans h) (hwrite.reachesEnd hd)

/-- A command whose checks pass is not refused. -/
theorem exec_ne_refused {q : Refusal} (h : Checked i s) : exec i s ≠ .refused q := by
  obtain ⟨e, u, hend⟩ := (exec_vettedAs i h.lengths).clear h.vet
  intro hq
  cases hend.symm.trans hq

/-- A refused command is refused at its first step. -/
theorem tick_of_refused {q : Refusal} (hwf : Memory.wf s.mem = true) (hj : s.job = some ⟨c, 0, 0, .start⟩)
    (hd : decode c = .command i) (hq : exec i s = .refused q) : tick s = .refused q := by
  have htick : tick s = tickStart i ⟨c, 0, 0, .start⟩ s := tick_command hj hd
  obtain h | ⟨-, hread⟩ | ⟨-, hwrite⟩ := tickStart_cases c i hwf
  · exact (htick.trans h).trans hq
  · exact absurd hq (exec_ne_refused hread.checked)
  · exact absurd hq (exec_ne_refused hwrite.checked)

end

end Sys2Proof.Claims
end

section
/-! The statement about a command's own steps and its meaning (spec/10_state.md R60, 20_memory.md R86). -/

namespace Sys2Proof.Claims

open Sys2Proof.Machine

/-- Settles O55: the command's own steps and the port's answers reach an end of it, and a command has one end. -/
theorem sequencerStepsReachTheMeaning : Obligations.SequencerStepsReachTheMeaning := by
  intro s c i hwf hj hd
  refine ⟨fun t hexec => ?_, fun q hq => ?_⟩
  · obtain ⟨es, hes, u, hrun, hend⟩ := reachesEnd_of_accepted hwf hj hd hexec
    cases hend.exec.symm.trans hexec
    exact ⟨es, hes, hrun⟩
  · have htick : handle .tick s = .refused q := tick_of_refused hwf hj hd hq
    simp only [runEvents, htick]

end Sys2Proof.Claims
end
